-- ==== Sys2Proof/Word.lean ====
section
/-! DEFINITION. The word types of the Huffman codec core. -/

namespace Sys2Proof

/-- A register value, command word, length, offset or count: 32 bits (CNTW = LENW = 32, 00_scope.md R6). -/
abbrev Word := BitVec 32

/-- A byte of a buffer, and a symbol: 8 bits (SYMW = 8, 00_scope.md R6, 30_encoding.md R84). -/
abbrev Byte := BitVec 8

end Sys2Proof
end

