-- ==== Sys2Proof/Syntax.lean ====
section
/-! DEFINITION. The instructions of the block: its fifteen commands (30_encoding.md R82). -/

namespace Sys2Proof

/-- A command. A command word carries no operand (30_encoding.md R81): every operand is implicit, so no constructor takes an
argument. One constructor per row of spec/opcode_table.json, in the order of the opcodes. -/
inductive Instr where
  /-- 0x00, CTRL: STATUS only (49_control.md R223). -/
  | nop
  /-- 0x01: frequency count of the window (40_frequency_counter.md R112). -/
  | fcnt
  /-- 0x02: build the tree (41_tree_builder.md R124). -/
  | tbld
  /-- 0x03: walk the tree into the code table (42_code_table_generator.md R133). -/
  | cgen
  /-- 0x04: code the window, pack, append (43_bit_packer.md R144). -/
  | bpck
  /-- 0x05: validate a packed payload, set the bit view (44_bit_unpacker.md R153). -/
  | bunp
  /-- 0x06: append the serialized tree (45_tree_codec.md R165). -/
  | tser
  /-- 0x07: deserialize the window into the arena (45_tree_codec.md R168). -/
  | tdes
  /-- 0x08, CFMT: append the container's length prefix (46_container_format.md R181). -/
  | chdr
  /-- 0x09, CFMT: parse the window as a container (46_container_format.md R183). -/
  | cpar
  /-- 0x0A: decode the bit view through the tree, append (47_decode_walk.md R192). -/
  | walk
  /-- 0x0B: end-to-end encode (48_end_to_end.md R201). -/
  | enc
  /-- 0x0C: end-to-end decode (48_end_to_end.md R204). -/
  | dec
  /-- 0x0D, CTRL: clear the output (49_control.md R224). -/
  | oclr
  /-- 0x0E, CTRL: soft reset (49_control.md R225). -/
  | rst
  deriving DecidableEq, Repr

end Sys2Proof
end

