-- ==== Sys2Proof/WellFormed.lean ====
section
/-! DEFINITION. Which command words are well formed (30_encoding.md R80, R83), as two checks, and which instructions are. -/

namespace Sys2Proof

/-- Bits 31:8 of a command word, RSV, must be 0 (30_encoding.md R80). -/
def reservedZero (w : Word) : Bool := w.extractLsb' 8 24 == 0#24

/-- The opcode, bits 7:0, must be one of 0x00 to 0x0E (30_encoding.md R82, R83). -/
def opcodeAssigned (w : Word) : Bool := (w.extractLsb' 0 8).toNat ≤ 0x0E

/-- A command word that is one of the fifteen commands; every other word is IllegalCommand (30_encoding.md R83). -/
def wordWellFormed (w : Word) : Bool := reservedZero w && opcodeAssigned w

/-- Every instruction term is well formed: a command carries no operand that could be out of range (30_encoding.md R81). -/
def instrWellFormed (_ : Instr) : Bool := true

end Sys2Proof
end

