-- ==== Sys2Proof/Decode.lean ====
section
/-! DEFINITION. From command words to instructions and back (30_encoding.md R80 to R83). -/

namespace Sys2Proof

/-- Why a command word is no command (30_encoding.md R83; 49_control.md R222 tests bits 31:8 first). -/
inductive DecodeReject where
  /-- Some bit of 31:8 is set. -/
  | reservedBits
  /-- The opcode is in 0x0F to 0xFF. -/
  | unassignedOpcode
  deriving DecidableEq, Repr

/-- The opcode map of 30_encoding.md R82; no instruction for 0x0F to 0xFF. -/
def instrOfOpcode (op : Byte) : Option Instr :=
  match op.toNat with
  | 0x00 => some .nop
  | 0x01 => some .fcnt
  | 0x02 => some .tbld
  | 0x03 => some .cgen
  | 0x04 => some .bpck
  | 0x05 => some .bunp
  | 0x06 => some .tser
  | 0x07 => some .tdes
  | 0x08 => some .chdr
  | 0x09 => some .cpar
  | 0x0A => some .walk
  | 0x0B => some .enc
  | 0x0C => some .dec
  | 0x0D => some .oclr
  | 0x0E => some .rst
  | _ => none

/-- The decoder, total on all 2^32 words (30_encoding.md R83). -/
def decode (w : Word) : Except DecodeReject Instr :=
  if reservedZero w then
    match instrOfOpcode (w.extractLsb' 0 8) with
    | some i => .ok i
    | none => .error .unassignedOpcode
  else .error .reservedBits

/-- The instruction of a row of spec/opcode_table.json whose bits are `w`, bit 0 least significant. A command word is one 32-bit
register value, not bytes in a memory (30_encoding.md R80), so nothing is laid out in byte order. -/
def decodeTableWord (nbits w : Nat) : Option Instr :=
  match decode (BitVec.ofNat 32 (w % 2 ^ nbits)) with
  | .ok i => some i
  | .error _ => none

/-- OP of each command (30_encoding.md R82). -/
def opcode : Instr → Byte
  | .nop => 0x00
  | .fcnt => 0x01
  | .tbld => 0x02
  | .cgen => 0x03
  | .bpck => 0x04
  | .bunp => 0x05
  | .tser => 0x06
  | .tdes => 0x07
  | .chdr => 0x08
  | .cpar => 0x09
  | .walk => 0x0A
  | .enc => 0x0B
  | .dec => 0x0C
  | .oclr => 0x0D
  | .rst => 0x0E

/-- The command word of an instruction: its opcode, zero-extended (30_encoding.md R82). -/
def encode (i : Instr) : Word := (opcode i).setWidth 32

end Sys2Proof
end

