-- ==== Sys2Proof/Config.lean ====
section
/-! DEFINITION. The fixed parameters of every instance (00_scope.md R6) and the free values: what 93_implementation_defined.md
leaves unspecified. A free value is an opaque constant with no body; nothing in Lean can tell what it is. -/

namespace Sys2Proof.Config

/-- NSYM: the size of the alphabet (00_scope.md R6). -/
abbrev nsym : Nat := 256

/-- NNODE_MAX: the capacity of the node arena, 2*NSYM - 1 (00_scope.md R6). -/
abbrev nnodeMax : Nat := 511

/-- The byte at IBUF address `addr` that nothing has written since hardware reset number `draw`: any value, the same at every
read until it is written (93_implementation_defined.md U3, U4). FREE VALUE, notes/assumptions/4.md. -/
opaque freeIbuf (draw addr : Nat) : Byte

/-- The byte at OBUF address `addr` that nothing has written since draw number `draw`: a hardware reset (U3) or a failed
appending command (U1) draws again. FREE VALUE, notes/assumptions/4.md and 5.md. -/
opaque freeObuf (draw addr : Nat) : Byte

/-- KIND of NODE entry `id` after the failed TDES step number `draw` (93_implementation_defined.md U2). FREE VALUE, as are the
four below: notes/assumptions/6.md. -/
opaque freeNodeKind (draw id : Nat) : Bool

/-- SYM of NODE entry `id` after the failed TDES step number `draw` (U2). FREE VALUE. -/
opaque freeNodeSym (draw id : Nat) : Byte

/-- FREQ of NODE entry `id` after the failed TDES step number `draw` (U2). FREE VALUE. -/
opaque freeNodeFreq (draw id : Nat) : Word

/-- LEFT of NODE entry `id` after the failed TDES step number `draw` (U2). FREE VALUE. -/
opaque freeNodeLeft (draw id : Nat) : BitVec 9

/-- RIGHT of NODE entry `id` after the failed TDES step number `draw` (U2). FREE VALUE. -/
opaque freeNodeRight (draw id : Nat) : BitVec 9

end Sys2Proof.Config
end

