-- ==== Sys2Proof/Machine/State.lean ====
section
/-! DEFINITION. The state of one instance of the block (10_state.md), its reset (70_reset_and_hazards.md R260), and the reasons a
step of the model can stop. -/

namespace Sys2Proof.Machine

/-- The eight error kinds of STATUS.ERR (10_state.md R26, 60_exceptions.md R230). An error is a defined outcome of a command,
recorded in STATUS; it is no fault of the model (60_exceptions.md R252). -/
inductive ErrKind where
  | malformedPayload
  | malformedTree
  | truncatedContainer
  | decodeUnderflow
  | capacityExceeded
  | illegalCommand
  | badWindow
  | missingCode
  deriving DecidableEq, Repr

/-- The units of STATUS.UNIT (10_state.md R26); fcnt, tbld and cgen raise nothing and are there for completeness. -/
inductive BlockUnit where
  | ctrl
  | fcnt
  | tbld
  | cgen
  | bpck
  | bunp
  | tser
  | tdes
  | cfmt
  | walk
  deriving DecidableEq, Repr

/-- The fields of STATUS (10_state.md R26): ERR and UNIT together as `error` (both 0 when it is none), DONE, LASTOP, FAULTED. The
32-bit word that the host reads is `Status.word`. DESIGN CHOICE, notes/assumptions/12.md. -/
structure Status where
  error : Option (ErrKind × BlockUnit)
  done : Bool
  lastop : Byte
  faulted : Bool
  deriving DecidableEq, Repr

/-- An entry of the node arena (10_state.md R37); `kind` is KIND: false for a leaf (0), true for an internal node (1). -/
structure Node where
  kind : Bool
  sym : Byte
  freq : Word
  left : BitVec 9
  right : BitVec 9
  deriving DecidableEq, Repr

/-- The node entry with every field 0 (the reset value, 70_reset_and_hazards.md R260). -/
def Node.zero : Node := { kind := false, sym := 0, freq := 0, left := 0, right := 0 }

/-- A host transaction (20_memory.md R62). -/
inductive HostTxn where
  /-- `HostReadReg(n)`. -/
  | readReg (n : Nat)
  /-- `HostWriteReg(n, v)`; with n = 0, the command word v. -/
  | writeReg (n : Nat) (v : Word)
  /-- `HostWriteIBUF(a, b)`. -/
  | writeIbuf (a : Word) (b : Byte)
  /-- `HostReadIBUF(a)`. -/
  | readIbuf (a : Word)
  /-- `HostReadOBUF(a)`. -/
  | readObuf (a : Word)
  /-- `HostReset`. -/
  | hostReset
  deriving DecidableEq, Repr

/-- What a host transaction returns (20_memory.md R62, last column). -/
inductive HostReply where
  | nothing
  | word (v : Word)
  | byte (b : Byte)
  deriving DecidableEq, Repr

/-- The state: 10_state.md R20 (a) to (e), then the model's own fields (INVENTORY.md, State). CMD and TBL_DATA have no storage
(R25, R34). A buffer is a list of (address, byte) with strictly rising addresses; an unlisted address holds a byte nobody has
written, which reads as a free value (notes/assumptions/4.md). -/
structure State where
  /-- Register 1. -/
  status : Status
  /-- Register 2. -/
  srcOff : Word
  /-- Register 3. -/
  srcLen : Word
  /-- Register 4. -/
  olen : Word
  /-- Register 5. -/
  treeOff : Word
  /-- Register 6. -/
  treeLen : Word
  /-- Register 7. -/
  payOff : Word
  /-- Register 8. -/
  payLen : Word
  /-- Register 9. -/
  bitOff : Word
  /-- Register 10. -/
  dataLen : Word
  /-- Register 11. -/
  pad : BitVec 3
  /-- Register 12. -/
  k : BitVec 9
  /-- Register 13. -/
  nnodes : BitVec 9
  /-- Register 14. -/
  root : BitVec 9
  /-- Register 15, a parameter of the instance: no step changes it (R33; notes/assumptions/3.md). -/
  ibufSize : Word
  /-- Register 16, a parameter of the instance: no step changes it (R33; notes/assumptions/3.md). -/
  obufSize : Word
  /-- Register 17. -/
  tblSel : BitVec 3
  /-- Register 18. -/
  tblIdx : BitVec 11
  /-- FREQ (R35). -/
  freq : Vector Word 256
  /-- SEQ (R36). -/
  seq : Vector Byte 256
  /-- NODE (R37). -/
  node : Vector Node 511
  /-- CLEN (R38). -/
  clen : Vector Byte 256
  /-- CBITS (R38). -/
  cbits : Vector (BitVec 256) 256
  /-- IBUF (R39). -/
  ibuf : List Host.Cell
  /-- OBUF (R40). -/
  obuf : List Host.Cell
  /-- MODEL: the draw the unwritten IBUF bytes stand in (notes/assumptions/7.md). -/
  ibufDraw : Nat
  /-- MODEL: the draw the unwritten OBUF bytes stand in (notes/assumptions/7.md). -/
  obufDraw : Nat
  /-- MODEL: the next draw of the NODE entries (notes/assumptions/7.md). -/
  nodeDraw : Nat
  /-- MODEL: the transactions the host has still to perform, first first (notes/assumptions/1.md). -/
  script : List HostTxn
  /-- MODEL: what the last transaction returned to the host (notes/assumptions/2.md). -/
  reply : HostReply
  deriving DecidableEq, Repr

/-- STATUS after reset: 0x00000000 (70_reset_and_hazards.md R260). -/
def Status.zero : Status := { error := none, done := false, lastop := 0, faulted := false }

/-- An instance with buffers of the given sizes right after hardware reset (70_reset_and_hazards.md R260). The draw counters, the
empty script and the reply are the model's (notes/assumptions/1.md, 2.md, 7.md). -/
def State.resetWith (ibufSize obufSize : Word) : State where
  status := Status.zero
  srcOff := 0
  srcLen := 0
  olen := 0
  treeOff := 0
  treeLen := 0
  payOff := 0
  payLen := 0
  bitOff := 0
  dataLen := 0
  pad := 0
  k := 0
  nnodes := 0
  root := 0
  ibufSize := ibufSize
  obufSize := obufSize
  tblSel := 0
  tblIdx := 0
  freq := Vector.replicate 256 0
  seq := Vector.replicate 256 0
  node := Vector.replicate 511 Node.zero
  clen := Vector.replicate 256 0
  cbits := Vector.replicate 256 0
  ibuf := []
  obuf := []
  ibufDraw := 0
  obufDraw := 0
  nodeDraw := 0
  script := []
  reply := .nothing

/-- The machine right after reset, with the buffer sizes of the test vectors, 4096 bytes each (00_scope.md R7 leaves them open:
DESIGN CHOICE, notes/assumptions/3.md). -/
def State.reset : State := State.resetWith 4096 4096

/-- Why a step faults: a state that breaks an invariant of 10_state.md R43. No run reaches such a state and the spec gives the
command no meaning in it; a fault there is SAFE (notes/assumptions/9.md, 10.md). -/
inductive Fault where
  /-- CGEN, TSER or WALK (and the steps of ENC, DEC) met an arena that holds no tree: invariant 3 is broken, so CurrentTree of
  R44 does not exist. SAFE. -/
  | brokenArena
  /-- TBLD met K > 256: invariant 2 is broken, SEQ has no entry to read. SAFE. -/
  | countOutOfRange
  /-- WALK met a bit view that leaves IBUF or has padding without data: invariant 5 is broken. SAFE. -/
  | viewOutOfRange
  deriving DecidableEq, Repr

/-- Why a step is refused: the model gives it no meaning. -/
inductive Refusal where
  /-- An instruction without a meaning yet, by its mnemonic; no arm raises it now. SAFE. -/
  | notModelled (mnemonic : String)
  /-- A host transaction on IBUF at an address outside it: no defined effect (93_implementation_defined.md U5). SAFE. -/
  | ibufAddress
  /-- A host transaction on OBUF at an address outside it: no defined effect (93_implementation_defined.md U5). SAFE. -/
  | obufAddress
  deriving DecidableEq, Repr

end Sys2Proof.Machine
end

