-- ==== Sys2Proof/Machine/Flags.lean ====
section
/-! DEFINITION. STATUS as the host reads it (10_state.md R26) and how a command that ends writes it (49_control.md R220). The
block has no arithmetic flag (10_state.md R41). -/

namespace Sys2Proof.Machine

/-- The code of an error in STATUS.ERR (10_state.md R26). -/
def errCode : ErrKind → BitVec 4
  | .malformedPayload => 1
  | .malformedTree => 2
  | .truncatedContainer => 3
  | .decodeUnderflow => 4
  | .capacityExceeded => 5
  | .illegalCommand => 6
  | .badWindow => 7
  | .missingCode => 8

/-- The code of a unit in STATUS.UNIT (10_state.md R26). -/
def unitCode : BlockUnit → BitVec 4
  | .ctrl => 1
  | .fcnt => 2
  | .tbld => 3
  | .cgen => 4
  | .bpck => 5
  | .bunp => 6
  | .tser => 7
  | .tdes => 8
  | .cfmt => 9
  | .walk => 10

/-- STATUS.ERR: 0 when the last command succeeded (10_state.md R26). -/
def Status.errField (st : Status) : BitVec 4 :=
  match st.error with
  | none => 0
  | some (e, _) => errCode e

/-- STATUS.UNIT: 0 when the last command succeeded (10_state.md R26). -/
def Status.unitField (st : Status) : BitVec 4 :=
  match st.error with
  | none => 0
  | some (_, u) => unitCode u

/-- Register 1 as the host reads it: FAULTED 31, zero 30:24, LASTOP 23:16, zero 15:9, DONE 8, UNIT 7:4, ERR 3:0
(10_state.md R26). -/
def Status.word (st : Status) : Word :=
  BitVec.ofBool st.faulted ++ 0#7 ++ st.lastop ++ 0#7 ++ BitVec.ofBool st.done ++ st.unitField ++ st.errField

/-- `Finish(error, unit, lastop)`: STATUS after a command (49_control.md R220). FAULTED is sticky. -/
def Status.finish (st : Status) (error : Option (ErrKind × BlockUnit)) (lastop : Byte) : Status where
  error := error
  done := true
  lastop := lastop
  faulted := st.faulted || error.isSome

end Sys2Proof.Machine
end

