-- ==== Sys2Proof/Machine/Ops.lean ====
section
/-! DEFINITION. The named operations over registers, tables and buffers, and how a command ends: in success, or by the one shared
operation that takes an error (60_exceptions.md R236 to R240). There is no return from an error (R242). -/

namespace Sys2Proof.Machine

/-! ### Buffers: lists of (address, byte), strictly rising -/

/-- The byte listed at an address, if one is. -/
def memGet : List Host.Cell → Nat → Option Byte
  | [], _ => none
  | (a', b) :: m, a => if a' = a then some b else memGet m a

/-- Store a byte, keeping the addresses strictly rising. -/
def memSet : List Host.Cell → Nat → Byte → List Host.Cell
  | [], a, b => [(a, b)]
  | (a', b') :: m, a, b =>
    if a < a' then (a, b) :: (a', b') :: m
    else if a = a' then (a, b) :: m
    else (a', b') :: memSet m a b

/-- `MemWrite`: store bytes at consecutive addresses from `a` (00_scope.md R11). -/
def memWrite : List Host.Cell → Nat → List Byte → List Host.Cell
  | m, _, [] => m
  | m, a, b :: bs => memWrite (memSet m a b) (a + 1) bs

/-- The canonical form of a buffer: addresses strictly rising. An unlisted address holds no written byte, so no listed byte can
equal what it holds. -/
def memWf : List Host.Cell → Bool
  | [] => true
  | [_] => true
  | c :: c' :: m => decide (c.1 < c'.1) && memWf (c' :: m)

/-- `IBUF[a]`: the byte written there, or the free value of the current draw (93_implementation_defined.md U3, U4). -/
def State.ibufByte (s : State) (a : Nat) : Byte := (memGet s.ibuf a).getD (Config.freeIbuf s.ibufDraw a)

/-- `OBUF[a]`: the byte written there, or the free value of the current draw (93_implementation_defined.md U1, U3). -/
def State.obufByte (s : State) (a : Nat) : Byte := (memGet s.obuf a).getD (Config.freeObuf s.obufDraw a)

/-- `MemRead(IBUF, a, n)` (00_scope.md R11). -/
def State.ibufRange (s : State) (a n : Nat) : List Byte := (List.range n).map fun i => s.ibufByte (a + i)

/-- `OBUF[a], ..., OBUF[a+n-1]`. -/
def State.obufRange (s : State) (a n : Nat) : List Byte := (List.range n).map fun i => s.obufByte (a + i)

/-! ### Multi-byte fields -/

/-- `BE32(v)`: most significant byte first (00_scope.md R10). -/
def be32 (v : Word) : List Byte := [v.extractLsb' 24 8, v.extractLsb' 16 8, v.extractLsb' 8 8, v.extractLsb' 0 8]

/-- `UnBE32(b0, b1, b2, b3)` (00_scope.md R10). -/
def unBE32 (b0 b1 b2 b3 : Byte) : Word := b0 ++ b1 ++ b2 ++ b3

/-! ### Tables -/

/-- The entry of a 256-entry table for a symbol. -/
def symGet {α : Type} (v : Vector α 256) (s : Byte) : α := v[s.toNat]'(s.isLt)

/-- Store the entry of a 256-entry table for a symbol. -/
def symSet {α : Type} (v : Vector α 256) (s : Byte) (x : α) : Vector α 256 := v.set s.toNat x s.isLt

/-- `NODE[i]`; ids run from 0 to 510 (10_state.md R37). -/
def nodeGet (v : Vector Node 511) (i : Nat) : Node := if h : i < 511 then v[i] else Node.zero

/-- The arena with entries 0 to `|ns| - 1` replaced; the others are left as they were (10_state.md R37). -/
def loadNodes (v : Vector Node 511) (ns : List Node) : Vector Node 511 :=
  Vector.ofFn fun i => (ns[i.val]?).getD v[i]

/-- The arena of unspecified entries that a failed TDES step leaves (93_implementation_defined.md U2). -/
def freeNodes (draw : Nat) : Vector Node 511 :=
  Vector.ofFn fun i =>
    { kind := Config.freeNodeKind draw i, sym := Config.freeNodeSym draw i, freq := Config.freeNodeFreq draw i,
      left := Config.freeNodeLeft draw i, right := Config.freeNodeRight draw i }

/-! ### Updates of the state, one per group of registers or table that a rule writes together -/

/-- Write STATUS. -/
def State.setStatus (s : State) (v : Status) : State := { s with status := v }

/-- Write the window registers SRC_OFF, SRC_LEN (10_state.md R27). -/
def State.setWindow (s : State) (off len : Word) : State := { s with srcOff := off, srcLen := len }

/-- Write OLEN (10_state.md R28). -/
def State.setOlen (s : State) (v : Word) : State := { s with olen := v }

/-- Write the parse registers (10_state.md R29). -/
def State.setParse (s : State) (treeOff treeLen payOff payLen : Word) : State :=
  { s with treeOff := treeOff, treeLen := treeLen, payOff := payOff, payLen := payLen }

/-- Write the bit view (10_state.md R30). -/
def State.setView (s : State) (bitOff dataLen : Word) (pad : BitVec 3) : State :=
  { s with bitOff := bitOff, dataLen := dataLen, pad := pad }

/-- Write FREQ, SEQ and K (10_state.md R31, R35, R36). -/
def State.setCount (s : State) (freq : Vector Word 256) (seq : Vector Byte 256) (k : BitVec 9) : State :=
  { s with freq := freq, seq := seq, k := k }

/-- Write NODE, NNODES and ROOT (10_state.md R32, R37). -/
def State.setTree (s : State) (node : Vector Node 511) (nnodes root : BitVec 9) : State :=
  { s with node := node, nnodes := nnodes, root := root }

/-- Advance the draw of the NODE entries (notes/assumptions/7.md). -/
def State.setNodeDraw (s : State) (d : Nat) : State := { s with nodeDraw := d }

/-- Write CLEN and CBITS (10_state.md R38). -/
def State.setCodes (s : State) (clen : Vector Byte 256) (cbits : Vector (BitVec 256) 256) : State :=
  { s with clen := clen, cbits := cbits }

/-- Write the table port's selector and index (10_state.md R34). -/
def State.setPort (s : State) (sel : BitVec 3) (idx : BitVec 11) : State := { s with tblSel := sel, tblIdx := idx }

/-- Write IBUF. -/
def State.setIbuf (s : State) (m : List Host.Cell) : State := { s with ibuf := m }

/-- Write OBUF, and the draw its unlisted bytes stand in. -/
def State.setObuf (s : State) (m : List Host.Cell) (draw : Nat) : State := { s with obuf := m, obufDraw := draw }

/-- The transactions the host has still to perform (the model's field). -/
def State.setScript (s : State) (ts : List HostTxn) : State := { s with script := ts }

/-- What the host transaction returns (the model's field). -/
def State.setReply (s : State) (r : HostReply) : State := { s with reply := r }

/-! ### How the body of a command ends -/

/-- What running the body of a command gives: it completed; it stopped at `raise E(U)` in the state shown (00_scope.md R11); or
the state breaks an invariant and the model stops. -/
inductive BodyResult where
  | done (s : State)
  | raised (e : ErrKind) (u : BlockUnit) (s : State)
  | stuck (f : Fault)
  deriving DecidableEq, Repr

/-- Run the next step of ENC or DEC if the one before completed (48_end_to_end.md R201, R204). -/
def BodyResult.andThen (r : BodyResult) (f : State → BodyResult) : BodyResult :=
  match r with
  | .done s => f s
  | .raised e u s => .raised e u s
  | .stuck x => .stuck x

/-- `Append_U(bytes)` (20_memory.md R68). The comparison is exact. -/
def appendBytes (u : BlockUnit) (bytes : List Byte) (s : State) : BodyResult :=
  if s.olen.toNat + bytes.length > s.obufSize.toNat then .raised .capacityExceeded u s
  else .done ((s.setObuf (memWrite s.obuf s.olen.toNat bytes) s.obufDraw).setOlen (s.olen + BitVec.ofNat 32 bytes.length))

/-- `Append_U([b])` for each byte in order, the first that does not fit raising (47_decode_walk.md R192). -/
def appendEach (u : BlockUnit) : List Byte → State → BodyResult
  | [], s => .done s
  | b :: bs, s => (appendBytes u [b] s).andThen (appendEach u bs)

/-- OBUF after a failed appending command that ends with OLEN = `n`: bytes below `n` as they are, every other byte drawn anew
(60_exceptions.md R238, 93_implementation_defined.md U1; notes/assumptions/5.md). -/
def State.scrubOutput (s : State) (n : Nat) : State :=
  s.setObuf ((List.range n).map fun a => (a, s.obufByte a)) (s.obufDraw + 1)

/-- How a command runs in the wrapper (30_encoding.md R82): its opcode, whether it reads the window, whether it appends to OBUF,
and whether its body begins by clearing OLEN (ENC and DEC). -/
structure CommandForm where
  op : Byte
  window : Bool
  appends : Bool
  clears : Bool
  deriving DecidableEq, Repr

/-- `Finish` on the state (49_control.md R220). -/
def State.finish (s : State) (error : Option (ErrKind × BlockUnit)) (lastop : Byte) : State :=
  s.setStatus (s.status.finish error lastop)

/-- TAKING AN ERROR: the state after the body of a command that began with OLEN = `olen0` raised error `e` of unit `u` in state
`s` (60_exceptions.md R236 to R239). What the failing step itself clears (R239) stands already in `s`. -/
def takeError (c : CommandForm) (olen0 : Word) (e : ErrKind) (u : BlockUnit) (s : State) : State :=
  let o : Word := if c.clears then 0 else olen0
  let s1 := if c.appends then s.scrubOutput o.toNat else s
  (s1.setOlen o).finish (some (e, u)) c.op

/-- The window check: `SRC_OFF + SRC_LEN` formed exactly, at most IBUF_SIZE (49_control.md R221). -/
def State.windowOk (s : State) : Bool := s.srcOff.toNat + s.srcLen.toNat ≤ s.ibufSize.toNat

/-- The execution wrapper around the body of a command other than RST (49_control.md R220). -/
def runCommand (c : CommandForm) (body : State → BodyResult) (s : State) : Host.Outcome State Fault Refusal :=
  if c.window && !s.windowOk then .next (s.finish (some (.badWindow, .ctrl)) c.op)
  else
    match body s with
    | .done t => .next (t.finish none c.op)
    | .raised e u t => .next (takeError c s.olen e u t)
    | .stuck f => .fault f

end Sys2Proof.Machine
end

