-- ==== Sys2Proof/Machine/Operands.lean ====
section
/-! DEFINITION. The implicit operands of the commands (30_encoding.md R81): the window, the bit view, the code of a symbol; and
the bits of a byte. A bit-string is a list of Bool, first bit first, true for 1 (00_scope.md R9). -/

namespace Sys2Proof.Machine

/-- The bit-string of a byte, most significant bit first: bit `j` is `byte[7-j]` (00_scope.md R9). -/
def byteBits (b : Byte) : List Bool := (List.range 8).map fun j => b.getLsbD (7 - j)

/-- The byte whose bit `7 - m` is bit `m` of a bit-string of 8 bits (43_bit_packer.md R141). -/
def bitsByte (bs : List Bool) : Byte := bs.foldl (fun acc b => acc.shiftConcat b) (0 : Byte)

/-- The bytes of the window (20_memory.md R67). -/
def State.window (s : State) : List Byte := s.ibufRange s.srcOff.toNat s.srcLen.toNat

/-- BITLEN (10_state.md R30). -/
def State.bitLen (s : State) : Nat := 8 * s.dataLen.toNat - s.pad.toNat

/-- `Bit(i)` of the bit view, read from IBUF as it is now (10_state.md R30). -/
def State.viewBit (s : State) (i : Nat) : Bool := (s.ibufByte (s.bitOff.toNat + i / 8)).getLsbD (7 - i % 8)

/-- The bit-string of the bit view. -/
def State.viewBits (s : State) : List Bool := (List.range s.bitLen).map s.viewBit

/-- Invariant 5 of 10_state.md R43: the bit view lies in IBUF and has no padding without data. -/
def State.viewOk (s : State) : Bool :=
  s.bitOff.toNat + s.dataLen.toNat ≤ s.ibufSize.toNat && (s.dataLen.toNat != 0 || s.pad.toNat == 0)

/-- `Code(s)`: bit `j` is `CBITS[s][255 - j]`, for `j < CLEN[s]` (10_state.md R38). -/
def State.code (s : State) (sym : Byte) : List Bool :=
  (List.range (symGet s.clen sym).toNat).map fun j => (symGet s.cbits sym).getLsbD (255 - j)

/-- A code of at most 255 bits left-aligned in 256 bits: bit `255 - j` is `c[j]`, every other bit 0 (10_state.md R38). -/
def leftAlign (c : List Bool) : BitVec 256 := (c.foldl (fun acc b => acc.shiftConcat b) (0 : BitVec 256)) <<< (256 - c.length)

end Sys2Proof.Machine
end

