-- ==== Sys2Proof/Machine/BitPacker.lean ====
section
/-! DEFINITION. The bit packer (43_bit_packer.md). -/

namespace Sys2Proof.Machine

/-- `Stream(B, code)` (43_bit_packer.md R140). -/
def stream (B : List Byte) (code : Byte → List Bool) : List Bool := B.flatMap code

/-- The padding count of a bit-string of length `t` (43_bit_packer.md R141). -/
def padCount (t : Nat) : Nat := (8 - t % 8) % 8

/-- The bytes of a bit-string whose length is a multiple of 8 (43_bit_packer.md R141). -/
def groupBits : List Bool → List Byte
  | b0 :: b1 :: b2 :: b3 :: b4 :: b5 :: b6 :: b7 :: rest => bitsByte [b0, b1, b2, b3, b4, b5, b6, b7] :: groupBits rest
  | _ => []

/-- `Pack(bits)` (43_bit_packer.md R141). -/
def pack (bits : List Bool) : List Byte :=
  BitVec.ofNat 8 (padCount bits.length) :: groupBits (bits ++ List.replicate (padCount bits.length) false)

/-- The body of BPCK (43_bit_packer.md R144). -/
def bpckBody (s : State) : BodyResult :=
  let B := s.window
  if B.any fun b => symGet s.clen b == 0 then .raised .missingCode .bpck s
  else appendBytes .bpck (pack (stream B s.code)) s

/-- Command BPCK (43_bit_packer.md R144). -/
def execBpck (s : State) : Host.Outcome State Fault Refusal :=
  runCommand { op := 0x04, window := true, appends := true, clears := false } bpckBody s

end Sys2Proof.Machine
end

