-- ==== Sys2Proof/Machine/BitUnpacker.lean ====
section
/-! DEFINITION. The bit unpacker (44_bit_unpacker.md). -/

namespace Sys2Proof.Machine

/-- `Unpack(p)` with the tests of 44_bit_unpacker.md R151, in their order, and the result of R150. -/
def unpack : List Byte → Except ErrKind (List Bool)
  | [] => .error .malformedPayload
  | pad :: data =>
    if pad.toNat > 7 then .error .malformedPayload
    else if data = [] ∧ pad ≠ 0 then .error .malformedPayload
    else .ok ((data.flatMap byteBits).take (8 * data.length - pad.toNat))

/-- The body of BUNP on the window `(off, len)` (44_bit_unpacker.md R153): `Unpack` of the window decides, and the view is set to
the bytes after the padding byte; a failure clears the view (60_exceptions.md R239). -/
def bunpBody (off len : Word) (s : State) : BodyResult :=
  match unpack (s.ibufRange off.toNat len.toNat) with
  | .error e => .raised e .bunp (s.setView 0 0 0)
  | .ok _ => .done (s.setView (off + 1) (len - 1) ((s.ibufByte off.toNat).setWidth 3))

/-- Command BUNP (44_bit_unpacker.md R153). -/
def execBunp (s : State) : Host.Outcome State Fault Refusal :=
  runCommand { op := 0x05, window := true, appends := false, clears := false } (fun t => bunpBody t.srcOff t.srcLen t) s

end Sys2Proof.Machine
end

