-- ==== Sys2Proof/Machine/Tree.lean ====
section
/-! DEFINITION. The abstract tree that the arena holds (10_state.md R44). -/

namespace Sys2Proof.Machine

/-- A tree that is not absent: `Leaf(SYM, FREQ)` or `Node(FREQ, left, right)` (10_state.md R44). -/
inductive HTree where
  | leaf (sym : Byte) (freq : Word)
  | node (freq : Word) (l r : HTree)
  deriving DecidableEq, Repr

/-- The number of nodes. -/
def HTree.size : HTree → Nat
  | .leaf _ _ => 1
  | .node _ l r => 1 + l.size + r.size

/-- The length of the longest path from the root to a leaf, in edges. -/
def HTree.depth : HTree → Nat
  | .leaf _ _ => 0
  | .node _ l r => 1 + max l.depth r.depth

/-- The symbols of the leaves, in pre-order. -/
def HTree.syms : HTree → List Byte
  | .leaf s _ => [s]
  | .node _ l r => l.syms ++ r.syms

/-- What the arena holds, read as a tree: `CurrentTree` of 10_state.md R44 is `absent` or `tree t`; `broken` is a state that breaks
invariant 3 of R43, in which CurrentTree does not exist (notes/assumptions/9.md). -/
inductive ArenaTree where
  | absent
  | tree (t : HTree)
  | broken
  deriving DecidableEq, Repr

/-- `TreeOf(i)` (10_state.md R44), given the arena as a lookup by id and its number of nodes `n`; `none` if an id outside the
arena is met or the descent passes through more than `fuel` nodes, which in an arena of `fuel` nodes only a cycle can do. -/
def treeOf (look : Nat → Node) (n : Nat) : Nat → Nat → Option HTree
  | 0, _ => none
  | fuel + 1, i =>
    if i < n then
      let nd := look i
      if nd.kind then
        match treeOf look n fuel nd.left.toNat, treeOf look n fuel nd.right.toNat with
        | some l, some r => some (.node nd.freq l r)
        | _, _ => none
      else some (.leaf nd.sym nd.freq)
    else none

/-- The ids that following LEFT and RIGHT from `i` visits, in pre-order; `none` as for `treeOf`. -/
def visitOf (look : Nat → Node) (n : Nat) : Nat → Nat → Option (List Nat)
  | 0, _ => none
  | fuel + 1, i =>
    if i < n then
      let nd := look i
      if nd.kind then
        match visitOf look n fuel nd.left.toNat, visitOf look n fuel nd.right.toNat with
        | some l, some r => some (i :: (l ++ r))
        | _, _ => none
      else some [i]
    else none

/-- `CurrentTree` (10_state.md R44). In an arena that meets invariant 3 of R43 the tree has exactly NNODES nodes; one that has
not is broken. -/
def State.currentTree (s : State) : ArenaTree :=
  if s.nnodes = 0 then .absent
  else
    match treeOf (nodeGet s.node) s.nnodes.toNat Config.nnodeMax s.root.toNat with
    | some t => if t.size = s.nnodes.toNat then .tree t else .broken
    | none => .broken

/-- Run a body on `CurrentTree` as an optional tree (`none` is the absent tree). -/
def withTree (s : State) (f : Option HTree → BodyResult) : BodyResult :=
  match s.currentTree with
  | .absent => f none
  | .tree t => f (some t)
  | .broken => .stuck .brokenArena

end Sys2Proof.Machine
end

