-- ==== Sys2Proof/Machine/CodeTable.lean ====
section
/-! DEFINITION. The code-table generator, the tree walker (42_code_table_generator.md). -/

namespace Sys2Proof.Machine

/-- `Paths(t, p)` (42_code_table_generator.md R130): false is "0", left; true is "1", right. -/
def paths : HTree → List Bool → List (Byte × List Bool)
  | .leaf s _, p => [(s, p)]
  | .node _ l r, p => paths l (p ++ [false]) ++ paths r (p ++ [true])

/-- `Codes(t)` (42_code_table_generator.md R130); `none` is the absent tree, a root that is a leaf gets "0" (R132). -/
def codes : Option HTree → List (Byte × List Bool)
  | none => []
  | some (.leaf s _) => [(s, [false])]
  | some (.node f l r) => paths (.node f l r) []

/-- CLEN after CGEN: cleared, then written in list order (42_code_table_generator.md R133, R134). -/
def clenTable (cs : List (Byte × List Bool)) : Vector Byte 256 :=
  cs.foldl (fun v p => symSet v p.1 (BitVec.ofNat 8 p.2.length)) (Vector.replicate 256 0)

/-- CBITS after CGEN: cleared, then written in list order (42_code_table_generator.md R133, R134). -/
def cbitsTable (cs : List (Byte × List Bool)) : Vector (BitVec 256) 256 :=
  cs.foldl (fun v p => symSet v p.1 (leftAlign p.2)) (Vector.replicate 256 0)

/-- The body of CGEN (42_code_table_generator.md R133). -/
def cgenBody (s : State) : BodyResult :=
  withTree s fun t => .done (s.setCodes (clenTable (codes t)) (cbitsTable (codes t)))

/-- Command CGEN (42_code_table_generator.md R133). -/
def execCgen (s : State) : Host.Outcome State Fault Refusal :=
  runCommand { op := 0x03, window := false, appends := false, clears := false } cgenBody s

end Sys2Proof.Machine
end

