-- ==== Sys2Proof/Machine/TreeBuilder.lean ====
section
/-! DEFINITION. The Huffman tree builder (41_tree_builder.md). -/

namespace Sys2Proof.Machine

/-- A node of the live set: its frequency, exact, and its id (41_tree_builder.md R120). -/
structure Live where
  freq : Nat
  id : Nat
  deriving DecidableEq, Repr

/-- The order of 41_tree_builder.md R121: frequency first, then id. -/
def keyLt (a b : Live) : Bool := decide (a.freq < b.freq) || (decide (a.freq = b.freq) && decide (a.id < b.id))

/-- The live node with the least key, and the others (41_tree_builder.md R120). -/
def takeMin (x : Live) : List Live → Live × List Live
  | [] => (x, [])
  | y :: ys =>
    if keyLt y x then
      let (m, rest) := takeMin y ys
      (m, x :: rest)
    else
      let (m, rest) := takeMin x ys
      (m, y :: rest)

/-- A leaf entry (41_tree_builder.md R124). -/
def leafNode (sym : Byte) (freq : Word) : Node := { kind := false, sym := sym, freq := freq, left := 0, right := 0 }

/-- An internal entry (41_tree_builder.md R124). -/
def innerNode (freq : Word) (left right : Nat) : Node :=
  { kind := true, sym := 0, freq := freq, left := BitVec.ofNat 9 left, right := BitVec.ofNat 9 right }

/-- The rounds of `Build` (41_tree_builder.md R120): while two live nodes are left, the least becomes the LEFT child and the next
least the RIGHT child of a new node with the next id (R122). `arena` is A so far; its length is the next id. -/
def buildRounds : Nat → List Live → List Node → List Node
  | 0, _, arena => arena
  | rounds + 1, live, arena =>
    match live with
    | [] => arena
    | x :: xs =>
      let (a, live1) := takeMin x xs
      match live1 with
      | [] => arena
      | y :: ys =>
        let (b, live2) := takeMin y ys
        let f := a.freq + b.freq
        buildRounds rounds ({ freq := f, id := arena.length } :: live2)
          (arena ++ [innerNode (BitVec.ofNat 32 f) a.id b.id])

/-- `Build(F, S)` for `S` not empty (41_tree_builder.md R120): the nodes by id; the root is the last. `k - 1` rounds. -/
def build (F : Byte → Nat) (S : List Byte) : List Node :=
  buildRounds (S.length - 1)
    (S.zipIdx.map fun p => { freq := F p.1, id := p.2 })
    (S.map fun sym => leafNode sym (BitVec.ofNat 32 (F sym)))

/-- `SEQ[0..K)`. -/
def State.seqList (s : State) : List Byte := s.seq.toList.take s.k.toNat

/-- The body of TBLD (41_tree_builder.md R124, R125). -/
def tbldBody (s : State) : BodyResult :=
  if s.k.toNat > 256 then .stuck .countOutOfRange
  else if s.k = 0 then .done (s.setTree s.node 0 0)
  else
    let A := build (fun sym => (symGet s.freq sym).toNat) s.seqList
    .done (s.setTree (loadNodes s.node A) (BitVec.ofNat 9 (2 * s.k.toNat - 1)) (BitVec.ofNat 9 (2 * s.k.toNat - 2)))

/-- Command TBLD (41_tree_builder.md R124). -/
def execTbld (s : State) : Host.Outcome State Fault Refusal :=
  runCommand { op := 0x02, window := false, appends := false, clears := false } tbldBody s

end Sys2Proof.Machine
end

