-- ==== Sys2Proof/Machine/TreeCodec.lean ====
section
/-! DEFINITION. The tree serializer and deserializer (45_tree_codec.md; the records are 30_encoding.md R87 to R91). -/

namespace Sys2Proof.Machine

/-- `Ser(t)` of a tree that is not absent (45_tree_codec.md R160). -/
def serTree : HTree → List Byte
  | .leaf s f => [0x01, s] ++ be32 f
  | .node f l r => [0x06] ++ be32 f ++ serTree l ++ serTree r

/-- `Ser(t)`; the absent tree gives no byte (45_tree_codec.md R160). -/
def ser : Option HTree → List Byte
  | none => []
  | some t => serTree t

/-- `SerLen` of a tree of `n` nodes (30_encoding.md R93). -/
def serLen (n : Nat) : Nat := if n = 0 then 0 else (11 * n + 1) / 2

/-- `Parse` (45_tree_codec.md R166) on what is left of the region, with `n` nodes made so far: the nodes of the subtree in
pre-order, the first of them with id `n`, and what is left after it. At one record: tag, then length, then capacity. `fuel` bounds
the depth; `n` grows with the depth, so 512 is never used up. -/
def parse : Nat → Nat → List Byte → Except ErrKind (List Node × List Byte)
  | 0, _, _ => .error .capacityExceeded
  | _ + 1, _, [] => .error .malformedTree
  | fuel + 1, n, t :: body =>
    if t = 0x01 then
      match body with
      | sym :: f3 :: f2 :: f1 :: f0 :: rest =>
        if n = Config.nnodeMax then .error .capacityExceeded
        else .ok ([leafNode sym (unBE32 f3 f2 f1 f0)], rest)
      | _ => .error .malformedTree
    else if t = 0x06 then
      match body with
      | f3 :: f2 :: f1 :: f0 :: rest =>
        if n = Config.nnodeMax then .error .capacityExceeded
        else
          match parse fuel (n + 1) rest with
          | .error e => .error e
          | .ok (ls, rest1) =>
            match parse fuel (n + 1 + ls.length) rest1 with
            | .error e => .error e
            | .ok (rs, rest2) =>
              .ok (innerNode (unBE32 f3 f2 f1 f0) (n + 1) (n + 1 + ls.length) :: (ls ++ rs), rest2)
      | _ => .error .malformedTree
    else .error .malformedTree

/-- `Des(r)` (45_tree_codec.md R166): the nodes by id, root 0; no node for the empty region, the absent tree. -/
def des (r : List Byte) : Except ErrKind (List Node) :=
  if r = [] then .ok []
  else
    match parse 512 0 r with
    | .error e => .error e
    | .ok (ns, rest) => if rest = [] then .ok ns else .error .malformedTree

/-- The body of TSER (45_tree_codec.md R165). -/
def tserBody (s : State) : BodyResult := withTree s fun t => appendBytes .tser (ser t) s

/-- Command TSER (45_tree_codec.md R165). -/
def execTser (s : State) : Host.Outcome State Fault Refusal :=
  runCommand { op := 0x06, window := false, appends := true, clears := false } tserBody s

/-- The arena after a failed TDES step: the absent tree, every entry unspecified (60_exceptions.md R239; U2). -/
def State.dropTree (s : State) : State := (s.setTree (freeNodes s.nodeDraw) 0 0).setNodeDraw (s.nodeDraw + 1)

/-- The body of TDES on the window `(off, len)` (45_tree_codec.md R168). -/
def tdesBody (off len : Word) (s : State) : BodyResult :=
  match des (s.ibufRange off.toNat len.toNat) with
  | .ok ns => .done (s.setTree (loadNodes s.node ns) (BitVec.ofNat 9 ns.length) 0)
  | .error e => .raised e .tdes s.dropTree

/-- Command TDES (45_tree_codec.md R168). -/
def execTdes (s : State) : Host.Outcome State Fault Refusal :=
  runCommand { op := 0x07, window := true, appends := false, clears := false } (fun t => tdesBody t.srcOff t.srcLen t) s

end Sys2Proof.Machine
end

