-- ==== Sys2Proof/Machine/Container.lean ====
section
/-! DEFINITION. The container framing (46_container_format.md). -/

namespace Sys2Proof.Machine

/-- `Frame(tr, pl)` (46_container_format.md R180). -/
def frame (tr pl : List Byte) : List Byte := be32 (BitVec.ofNat 32 tr.length) ++ tr ++ pl

/-- `Split(c)` (46_container_format.md R182): the tree region and the payload region. -/
def split : List Byte → Except ErrKind (List Byte × List Byte)
  | c0 :: c1 :: c2 :: c3 :: rest =>
    let n := (unBE32 c0 c1 c2 c3).toNat
    if n > rest.length then .error .truncatedContainer else .ok (rest.take n, rest.drop n)
  | _ => .error .truncatedContainer

/-- The body of CHDR (46_container_format.md R181; SerLen from NNODES, 30_encoding.md R93). -/
def chdrBody (s : State) : BodyResult := appendBytes .cfmt (be32 (BitVec.ofNat 32 (serLen s.nnodes.toNat))) s

/-- Command CHDR (46_container_format.md R181). -/
def execChdr (s : State) : Host.Outcome State Fault Refusal :=
  runCommand { op := 0x08, window := false, appends := true, clears := false } chdrBody s

/-- The body of CPAR on the window `(off, len)` (46_container_format.md R183): `Split` of the window decides, and the four
registers name its two regions; a failure clears them (60_exceptions.md R239). -/
def cparBody (off len : Word) (s : State) : BodyResult :=
  match split (s.ibufRange off.toNat len.toNat) with
  | .error e => .raised e .cfmt (s.setParse 0 0 0 0)
  | .ok (tr, pl) =>
    let n := BitVec.ofNat 32 tr.length
    .done (s.setParse (off + 4) n (off + 4 + n) (BitVec.ofNat 32 pl.length))

/-- Command CPAR (46_container_format.md R183). -/
def execCpar (s : State) : Host.Outcome State Fault Refusal :=
  runCommand { op := 0x09, window := true, appends := false, clears := false } (fun t => cparBody t.srcOff t.srcLen t) s

end Sys2Proof.Machine
end

