-- ==== Sys2Proof/Machine/DecodeWalk.lean ====
section
/-! DEFINITION. The decode tree walk (47_decode_walk.md). -/

namespace Sys2Proof.Machine

/-- A walk: the symbols emitted, in order, and the error that ends it, if one does (47_decode_walk.md R190, R194). -/
abbrev WalkResult := List Byte × Option ErrKind

/-- The walk of a tree whose root is a leaf: a 0 emits its symbol, a 1 ends it (47_decode_walk.md R190, R191 (a)). -/
def walkLeaf (sym : Byte) : List Bool → WalkResult
  | [] => ([], none)
  | false :: bits =>
    let (out, e) := walkLeaf sym bits
    (sym :: out, e)
  | true :: _ => ([], some .malformedPayload)

/-- The walk of a tree `t` whose root is internal, standing at `cur`; `atRoot` says that `cur` is the position of the root
(47_decode_walk.md R190: the comparison is of positions). -/
def walkNode (t : HTree) : HTree → Bool → List Bool → WalkResult
  | _, atRoot, [] => ([], if atRoot then none else some .decodeUnderflow)
  | .leaf s _, _, _ :: _ => ([s], some .decodeUnderflow)
  | .node _ l r, _, b :: bits =>
    match if b then r else l with
    | .leaf s _ =>
      let (out, e) := walkNode t t true bits
      (s :: out, e)
    | .node f l' r' => walkNode t (.node f l' r') false bits

/-- `Walk(t, bits)` (47_decode_walk.md R190, R191), with what was emitted before an error. -/
def walk : Option HTree → List Bool → WalkResult
  | none, bits => ([], if bits = [] then none else some .malformedTree)
  | some (.leaf s _), bits => walkLeaf s bits
  | some (.node f l r), bits => walkNode (.node f l r) (.node f l r) true bits

/-- The body of WALK (47_decode_walk.md R192): the emitted symbols are appended one by one, so the first failure in bit order is
the one raised (R194). -/
def walkBody (s : State) : BodyResult :=
  if s.viewOk then
    withTree s fun t =>
      let (out, e) := walk t s.viewBits
      (appendEach .walk out s).andThen fun s' =>
        match e with
        | none => .done s'
        | some e => .raised e .walk s'
  else .stuck .viewOutOfRange

/-- Command WALK (47_decode_walk.md R192). -/
def execWalk (s : State) : Host.Outcome State Fault Refusal :=
  runCommand { op := 0x0A, window := false, appends := true, clears := false } walkBody s

end Sys2Proof.Machine
end

