-- ==== Sys2Proof/Machine/FrequencyCounter.lean ====
section
/-! DEFINITION. The frequency counter (40_frequency_counter.md). -/

namespace Sys2Proof.Machine

/-- `F` of `Count(B)`: the number of occurrences of a symbol (40_frequency_counter.md R110). -/
def countFreq (B : List Byte) (s : Byte) : Nat := B.count s

/-- `S` of `Count(B)`: the distinct symbols in order of first appearance (40_frequency_counter.md R110). -/
def countSeq : List Byte → List Byte
  | [] => []
  | b :: bs => b :: (countSeq bs).filter fun x => x != b

/-- FREQ after a count of `B`: every entry (40_frequency_counter.md R112). -/
def freqTable (B : List Byte) : Vector Word 256 :=
  Vector.ofFn fun i => BitVec.ofNat 32 (countFreq B (BitVec.ofNat 8 i.val))

/-- SEQ after a count of `B`: `S`, then zeros (40_frequency_counter.md R112). -/
def seqTable (B : List Byte) : Vector Byte 256 := Vector.ofFn fun i => (countSeq B).getD i.val 0

/-- The body of FCNT (40_frequency_counter.md R112). -/
def fcntBody (s : State) : BodyResult :=
  let B := s.window
  .done (s.setCount (freqTable B) (seqTable B) (BitVec.ofNat 9 (countSeq B).length))

/-- Command FCNT (40_frequency_counter.md R112). -/
def execFcnt (s : State) : Host.Outcome State Fault Refusal :=
  runCommand { op := 0x01, window := true, appends := false, clears := false } fcntBody s

end Sys2Proof.Machine
end

