-- ==== Sys2Proof/Machine/EndToEnd.lean ====
section
/-! DEFINITION. The end-to-end encode and decode sequences (48_end_to_end.md). -/

namespace Sys2Proof.Machine

/-- The abstract tree of an arena given as the list of its nodes (10_state.md R44). -/
def treeOfNodes (ns : List Node) (root : Nat) : Option HTree :=
  treeOf (fun i => (ns[i]?).getD Node.zero) ns.length ns.length root

/-- The tree of `Build(F, S)` for the count of `B`; `none` is the absent tree of the empty input (48_end_to_end.md R200). -/
def inputTree (B : List Byte) : Option HTree :=
  if countSeq B = [] then none
  else treeOfNodes (build (countFreq B) (countSeq B)) (2 * (countSeq B).length - 2)

/-- A code list as a map: the last entry of a symbol (42_code_table_generator.md R134); a symbol without a code gives no bit. -/
def codeMap (cs : List (Byte × List Bool)) (s : Byte) : List Bool := (cs.reverse.lookup s).getD []

/-- `Encode(B)` (48_end_to_end.md R200). -/
def encodeBytes (B : List Byte) : List Byte :=
  frame (ser (inputTree B)) (pack (stream B (codeMap (codes (inputTree B)))))

/-- `Decode(c)` (48_end_to_end.md R200). -/
def decodeBytes (c : List Byte) : Except ErrKind (List Byte) :=
  match split c with
  | .error e => .error e
  | .ok (tr, pl) =>
    match des tr with
    | .error e => .error e
    | .ok ns =>
      match unpack pl with
      | .error e => .error e
      | .ok bits =>
        match walk (if ns = [] then none else treeOfNodes ns 0) bits with
        | (_, some e) => .error e
        | (out, none) => .ok out

/-- The body of OCLR (49_control.md R224). -/
def oclrBody (s : State) : BodyResult := .done (s.setOlen 0)

/-- The body of ENC: the bodies of seven commands in order, the first to raise ending it (48_end_to_end.md R201). -/
def encBody (s : State) : BodyResult :=
  (oclrBody s).andThen fun s1 =>
  (fcntBody s1).andThen fun s2 =>
  (tbldBody s2).andThen fun s3 =>
  (cgenBody s3).andThen fun s4 =>
  (chdrBody s4).andThen fun s5 =>
  (tserBody s5).andThen fun s6 =>
  bpckBody s6

/-- Command ENC (48_end_to_end.md R201). -/
def execEnc (s : State) : Host.Outcome State Fault Refusal :=
  runCommand { op := 0x0B, window := true, appends := true, clears := true } encBody s

/-- The body of DEC: TDES runs on the tree region and BUNP on the payload region (48_end_to_end.md R204). -/
def decBody (s : State) : BodyResult :=
  (oclrBody s).andThen fun s1 =>
  (cparBody s1.srcOff s1.srcLen s1).andThen fun s2 =>
  (tdesBody s2.treeOff s2.treeLen s2).andThen fun s3 =>
  (bunpBody s3.payOff s3.payLen s3).andThen fun s4 =>
  walkBody s4

/-- Command DEC (48_end_to_end.md R204). -/
def execDec (s : State) : Host.Outcome State Fault Refusal :=
  runCommand { op := 0x0C, window := true, appends := true, clears := true } decBody s

end Sys2Proof.Machine
end

