-- ==== Sys2Proof/Machine/Control.lean ====
section
/-! DEFINITION. The control commands (49_control.md). -/

namespace Sys2Proof.Machine

/-- Command NOP: an empty body (49_control.md R223). -/
def execNop (s : State) : Host.Outcome State Fault Refusal :=
  runCommand { op := 0x00, window := false, appends := false, clears := false } (fun t => .done t) s

/-- Command OCLR (49_control.md R224). -/
def execOclr (s : State) : Host.Outcome State Fault Refusal :=
  runCommand { op := 0x0D, window := false, appends := false, clears := false } oclrBody s

/-- The state after RST: every register and table at its reset value, the buffers as they are (49_control.md R225,
70_reset_and_hazards.md R260). The model's own fields are as they are. -/
def State.softReset (s : State) : State :=
  { State.resetWith s.ibufSize s.obufSize with
    ibuf := s.ibuf, obuf := s.obuf, ibufDraw := s.ibufDraw, obufDraw := s.obufDraw, nodeDraw := s.nodeDraw,
    script := s.script, reply := s.reply }

/-- Command RST: `Finish` is not applied (49_control.md R220, R225). -/
def execRst (s : State) : Host.Outcome State Fault Refusal := .next s.softReset

end Sys2Proof.Machine
end

