-- ==== Sys2Proof/Machine/Dispatch.lean ====
section
/-! DEFINITION. The dispatch of a decoded command to its meaning (49_control.md R220). -/

namespace Sys2Proof.Machine

/-- One arm per command. -/
def exec (i : Instr) (s : State) : Host.Outcome State Fault Refusal :=
  match i with
  | .nop => Sys2Proof.Machine.execNop s
  | .fcnt => Sys2Proof.Machine.execFcnt s
  | .tbld => Sys2Proof.Machine.execTbld s
  | .cgen => Sys2Proof.Machine.execCgen s
  | .bpck => Sys2Proof.Machine.execBpck s
  | .bunp => Sys2Proof.Machine.execBunp s
  | .tser => Sys2Proof.Machine.execTser s
  | .tdes => Sys2Proof.Machine.execTdes s
  | .chdr => Sys2Proof.Machine.execChdr s
  | .cpar => Sys2Proof.Machine.execCpar s
  | .walk => Sys2Proof.Machine.execWalk s
  | .enc => Sys2Proof.Machine.execEnc s
  | .dec => Sys2Proof.Machine.execDec s
  | .oclr => Sys2Proof.Machine.execOclr s
  | .rst => Sys2Proof.Machine.execRst s

end Sys2Proof.Machine
end

