-- ==== Sys2Proof/Machine/Transactions.lean ====
section
/-! DEFINITION. The host transactions (20_memory.md R62): the register file as the host sees it, command words, the buffers, the
hardware reset. -/

namespace Sys2Proof.Machine

/-- A read of TBL_DATA (10_state.md R34): the entry that TBL_SEL and TBL_IDX select; 0 for a reserved selector or an index outside
the table. -/
def State.tblData (s : State) : Word :=
  let idx := s.tblIdx.toNat
  match s.tblSel.toNat with
  | 0 => if h : idx < 256 then s.freq[idx] else 0
  | 1 => if h : idx < 256 then s.seq[idx].setWidth 32 else 0
  | 2 =>
    if h : idx < 511 then
      let nd := s.node[idx]
      BitVec.ofBool nd.kind ++ 0#5 ++ nd.right ++ nd.left ++ nd.sym
    else 0
  | 3 => if h : idx < 511 then s.node[idx].freq else 0
  | 4 => if h : idx < 256 then s.clen[idx].setWidth 32 else 0
  | 5 => if h : idx / 8 < 256 then s.cbits[idx / 8].extractLsb' (224 - 32 * (idx % 8)) 32 else 0
  | _ => 0

/-- The value of `HostReadReg(n)` (10_state.md R23, R24); 0 for CMD and for a number above 19. -/
def State.regRead (s : State) (n : Nat) : Word :=
  match n with
  | 1 => s.status.word
  | 2 => s.srcOff
  | 3 => s.srcLen
  | 4 => s.olen
  | 5 => s.treeOff
  | 6 => s.treeLen
  | 7 => s.payOff
  | 8 => s.payLen
  | 9 => s.bitOff
  | 10 => s.dataLen
  | 11 => s.pad.setWidth 32
  | 12 => s.k.setWidth 32
  | 13 => s.nnodes.setWidth 32
  | 14 => s.root.setWidth 32
  | 15 => s.ibufSize
  | 16 => s.obufSize
  | 17 => s.tblSel.setWidth 32
  | 18 => s.tblIdx.setWidth 32
  | 19 => s.tblData
  | _ => 0

/-- The effect of `HostWriteReg(n, v)` for `n` not 0 (10_state.md R23, R24): an RW register takes the used low bits of `v`; a write
to any other number changes nothing. -/
def State.regWrite (s : State) (n : Nat) (v : Word) : State :=
  match n with
  | 2 => s.setWindow v s.srcLen
  | 3 => s.setWindow s.srcOff v
  | 17 => s.setPort (v.setWidth 3) s.tblIdx
  | 18 => s.setPort s.tblSel (v.setWidth 11)
  | _ => s

/-- `Execute(w)` (49_control.md R220): the command that `w` encodes, or IllegalCommand, which changes STATUS alone (R222). -/
def executeWord (w : Word) (s : State) : Host.Outcome State Fault Refusal :=
  match decode w with
  | .ok i => exec i s
  | .error _ => .next (s.finish (some (.illegalCommand, .ctrl)) (w.extractLsb' 0 8))

/-- `HostReset` (70_reset_and_hazards.md R260): the reset values, both buffers drawn anew (93_implementation_defined.md U3); the
sizes and the rest of the host's script stand. -/
def State.hardReset (s : State) : State :=
  { State.resetWith s.ibufSize s.obufSize with
    ibufDraw := s.ibufDraw + 1, obufDraw := s.obufDraw + 1, nodeDraw := s.nodeDraw, script := s.script }

/-- One host transaction (20_memory.md R62): its effect and what it returns. -/
def transact (t : HostTxn) (s : State) : Host.Outcome State Fault Refusal :=
  match t with
  | .readReg n => .next (s.setReply (.word (s.regRead n)))
  | .writeReg n v => if n = 0 then executeWord v (s.setReply .nothing) else .next ((s.regWrite n v).setReply .nothing)
  | .writeIbuf a b =>
    if a.toNat < s.ibufSize.toNat then .next ((s.setIbuf (memSet s.ibuf a.toNat b)).setReply .nothing)
    else .refused .ibufAddress
  | .readIbuf a =>
    if a.toNat < s.ibufSize.toNat then .next (s.setReply (.byte (s.ibufByte a.toNat))) else .refused .ibufAddress
  | .readObuf a =>
    if a.toNat < s.obufSize.toNat then .next (s.setReply (.byte (s.obufByte a.toNat))) else .refused .obufAddress
  | .hostReset => .next s.hardReset

/-- The host's next transaction, taken off its script; with none left the block is idle and nothing changes (20_memory.md R61). -/
def stepScript (s : State) : Host.Outcome State Fault Refusal :=
  match s.script with
  | [] => .next s
  | t :: ts => transact t (s.setScript ts)

end Sys2Proof.Machine
end

