-- ==== Sys2Proof/Machine/Step.lean ====
section
/-! DEFINITION. One step of the machine: one host transaction (20_memory.md R62). -/

namespace Sys2Proof.Machine

/-- One step: the first transaction of the host's script, whole (20_memory.md R71). -/
def step (s : State) : Host.Outcome State Fault Refusal := stepScript s

/-- The state in which the host's next transaction writes the command word `w` (its low `nbits` bits) to CMD: the block fetches
nothing, its command comes from the host (notes/assumptions/1.md). -/
def State.withFetchWord (s : State) (nbits w : Nat) : State :=
  s.setScript (.writeReg 0 (BitVec.ofNat 32 (w % 2 ^ nbits)) :: s.script)

end Sys2Proof.Machine
end

