-- ==== Sys2Proof/Safety.lean ====
section
/-! DEFINITION. The invariants of 10_state.md R43, and the words the statements use for how a command ended, what it appended and
what it left as it was. -/

namespace Sys2Proof.Safety

open Sys2Proof.Machine

/-! ### The invariants of 10_state.md R43 -/

/-- Invariant 1: OLEN is at most OBUF_SIZE. -/
def OutputInv (s : State) : Prop := s.olen.toNat ≤ s.obufSize.toNat

/-- Invariant 2: K is at most 256, the first K entries of SEQ are distinct and are exactly the symbols counted, the rest are 0. -/
def CountInv (s : State) : Prop :=
  s.k.toNat ≤ 256 ∧ s.seqList.Nodup ∧ (∀ sym : Byte, 1 ≤ (symGet s.freq sym).toNat ↔ sym ∈ s.seqList) ∧
    ∀ i : Fin 256, s.k.toNat ≤ i.val → s.seq[i] = 0

/-- Invariant 3: the arena is empty with ROOT 0, or NNODES is odd, at most 511, and following LEFT and RIGHT from ROOT visits every
id below NNODES exactly once and no other id. -/
def ArenaInv (s : State) : Prop :=
  (s.nnodes = 0 ∧ s.root = 0) ∨
    (s.nnodes.toNat % 2 = 1 ∧ s.root.toNat < s.nnodes.toNat ∧
      ∃ ids, visitOf (nodeGet s.node) s.nnodes.toNat Config.nnodeMax s.root.toNat = some ids ∧
        ids.Perm (List.range s.nnodes.toNat))

/-- Invariant 4: the part of CBITS that a code does not use is zero (CLEN is 8 bits wide, so at most 255). -/
def CodeInv (s : State) : Prop :=
  ∀ (sym : Byte) (j : Nat), (symGet s.clen sym).toNat ≤ j → j ≤ 255 → (symGet s.cbits sym).getLsbD (255 - j) = false

/-- Invariant 5: the bit view lies in IBUF and has no padding without data (PAD is 3 bits wide, so at most 7). -/
def ViewInv (s : State) : Prop :=
  (s.dataLen = 0 → s.pad = 0) ∧ s.bitOff.toNat + s.dataLen.toNat ≤ s.ibufSize.toNat

/-- Invariant 6: the payload region follows the tree region and ends in IBUF. -/
def ParseInv (s : State) : Prop :=
  s.treeOff.toNat + s.treeLen.toNat = s.payOff.toNat ∧ s.payOff.toNat + s.payLen.toNat ≤ s.ibufSize.toNat

/-- The model's own invariant: both buffers are in canonical form. -/
def BufferInv (s : State) : Prop := memWf s.ibuf = true ∧ memWf s.obuf = true

/-- All six invariants of 10_state.md R43, and the model's own. -/
structure Inv (s : State) : Prop where
  output : OutputInv s
  count : CountInv s
  arena : ArenaInv s
  code : CodeInv s
  view : ViewInv s
  parse : ParseInv s
  buffer : BufferInv s

/-! ### Which command, when -/

/-- The window-reading commands (30_encoding.md R82). -/
def windowCommands : List Instr := [.fcnt, .bpck, .bunp, .tdes, .cpar, .enc, .dec]

/-- The window lies in IBUF: the sum is formed exactly (49_control.md R221). -/
def WindowFits (s : State) : Prop := s.srcOff.toNat + s.srcLen.toNat ≤ s.ibufSize.toNat

/-- The errors each command can end with, and their units (60_exceptions.md R230; ENC: 48_end_to_end.md R202, DEC: R205). -/
def allowedErrors : Instr → List (ErrKind × BlockUnit)
  | .nop => []
  | .fcnt => [(.badWindow, .ctrl)]
  | .tbld => []
  | .cgen => []
  | .bpck => [(.badWindow, .ctrl), (.missingCode, .bpck), (.capacityExceeded, .bpck)]
  | .bunp => [(.badWindow, .ctrl), (.malformedPayload, .bunp)]
  | .tser => [(.capacityExceeded, .tser)]
  | .tdes => [(.badWindow, .ctrl), (.malformedTree, .tdes), (.capacityExceeded, .tdes)]
  | .chdr => [(.capacityExceeded, .cfmt)]
  | .cpar => [(.badWindow, .ctrl), (.truncatedContainer, .cfmt)]
  | .walk => [(.malformedPayload, .walk), (.malformedTree, .walk), (.decodeUnderflow, .walk), (.capacityExceeded, .walk)]
  | .enc => [(.badWindow, .ctrl), (.capacityExceeded, .cfmt), (.capacityExceeded, .tser), (.capacityExceeded, .bpck)]
  | .dec => [(.badWindow, .ctrl), (.truncatedContainer, .cfmt), (.malformedTree, .tdes), (.capacityExceeded, .tdes),
      (.malformedPayload, .bunp), (.malformedPayload, .walk), (.malformedTree, .walk), (.decodeUnderflow, .walk),
      (.capacityExceeded, .walk)]
  | .oclr => []
  | .rst => []

/-! ### How a command ended -/

/-- The command with opcode `op` ended with `error`, as `Finish` writes STATUS (49_control.md R220). -/
def Ended (s t : State) (op : Byte) (error : Option (ErrKind × BlockUnit)) : Prop :=
  t.status = { error := error, done := true, lastop := op, faulted := s.status.faulted || error.isSome }

/-- `bytes` were appended: OLEN grew by their number, they stand from the old OLEN on, every other byte reads as before
(20_memory.md R68). -/
def Appended (s t : State) (bytes : List Byte) : Prop :=
  t.olen.toNat = s.olen.toNat + bytes.length ∧ t.obufRange s.olen.toNat bytes.length = bytes ∧
    ∀ a, a < s.olen.toNat ∨ s.olen.toNat + bytes.length ≤ a → t.obufByte a = s.obufByte a

/-- The output is exactly `bytes`: OLEN is their number and they stand from address 0 on; bytes above read as before. -/
def OutputIs (s t : State) (bytes : List Byte) : Prop :=
  t.olen.toNat = bytes.length ∧ t.obufRange 0 bytes.length = bytes ∧
    ∀ a, bytes.length ≤ a → t.obufByte a = s.obufByte a

/-- No output: OLEN is `n` and every byte below `n` reads as before (60_exceptions.md R238; bytes from `n` on are unspecified). -/
def NoOutput (s t : State) (n : Word) : Prop := t.olen = n ∧ ∀ a, a < n.toNat → t.obufByte a = s.obufByte a

/-! ### What is as it was -/

/-- SRC_OFF, SRC_LEN and every byte of IBUF. -/
def SameInput (s t : State) : Prop :=
  t.srcOff = s.srcOff ∧ t.srcLen = s.srcLen ∧ ∀ a, t.ibufByte a = s.ibufByte a

/-- OLEN and every byte of OBUF. -/
def SameOutput (s t : State) : Prop := t.olen = s.olen ∧ ∀ a, t.obufByte a = s.obufByte a

/-- The four parse registers. -/
def SameParse (s t : State) : Prop :=
  t.treeOff = s.treeOff ∧ t.treeLen = s.treeLen ∧ t.payOff = s.payOff ∧ t.payLen = s.payLen

/-- The bit view. -/
def SameView (s t : State) : Prop := t.bitOff = s.bitOff ∧ t.dataLen = s.dataLen ∧ t.pad = s.pad

/-- FREQ, SEQ and K. -/
def SameCount (s t : State) : Prop := t.freq = s.freq ∧ t.seq = s.seq ∧ t.k = s.k

/-- NODE, NNODES and ROOT. -/
def SameTree (s t : State) : Prop := t.node = s.node ∧ t.nnodes = s.nnodes ∧ t.root = s.root

/-- The NODE entries with an id at or above the new NNODES (41_tree_builder.md R124, 45_tree_codec.md R168). -/
def SameNodesAbove (s t : State) : Prop := ∀ i, t.nnodes.toNat ≤ i → nodeGet t.node i = nodeGet s.node i

/-- CLEN and CBITS. -/
def SameCodes (s t : State) : Prop := t.clen = s.clen ∧ t.cbits = s.cbits

/-- The constants IBUF_SIZE and OBUF_SIZE, the table port, and the model's script and reply: what no command but RST touches. -/
def SameRest (s t : State) : Prop :=
  t.ibufSize = s.ibufSize ∧ t.obufSize = s.obufSize ∧ t.tblSel = s.tblSel ∧ t.tblIdx = s.tblIdx ∧
    t.script = s.script ∧ t.reply = s.reply

/-- What an appending unit command leaves: everything but STATUS, OLEN and OBUF. -/
def SameAllButOutput (s t : State) : Prop :=
  SameInput s t ∧ SameParse s t ∧ SameView s t ∧ SameCount s t ∧ SameTree s t ∧ SameCodes s t ∧ SameRest s t

/-! ### Words of the statements -/

/-- The state's CurrentTree is `t`, where `none` is the absent tree (10_state.md R44). -/
def HoldsTree (s : State) (t : Option HTree) : Prop :=
  match t with
  | none => s.currentTree = .absent
  | some t => s.currentTree = .tree t

/-- `S` lists the distinct bytes of `B` in order of first appearance (40_frequency_counter.md R110). -/
def FirstAppearance (B S : List Byte) : Prop :=
  S.Nodup ∧ (∀ x, x ∈ S ↔ x ∈ B) ∧ S.Pairwise fun x y => B.idxOf x < B.idxOf y

/-- The same outcome with the next state, if there is one, changed by `f`. -/
def mapNext (f : State → State) : Host.Outcome State Fault Refusal → Host.Outcome State Fault Refusal
  | .next t => .next (f t)
  | .fault x => .fault x
  | .refused x => .refused x

/-- The number of nodes of a tree; 0 for the absent tree. -/
def nodeCount : Option HTree → Nat
  | none => 0
  | some t => t.size

/-- A list of nodes holds the tree `t` with its root at id 0; no node for the absent tree (45_tree_codec.md R166). -/
def NodesHold (ns : List Node) : Option HTree → Prop
  | none => ns = []
  | some t => treeOfNodes ns 0 = some t

/-- A complete record of the tree format: a leaf, 6 bytes with tag 0x01, or an internal node, 5 bytes with tag 0x06
(30_encoding.md R88 to R90). -/
def IsRecord (r : List Byte) : Prop := (r.length = 6 ∧ r.head? = some 0x01) ∨ (r.length = 5 ∧ r.head? = some 0x06)

/-- After the first `k` records the root's subtree is not complete: it is complete as soon as its leaves (6 bytes each) outnumber its
internal nodes (5 bytes each). -/
def StillOpen (recs : List (List Byte)) (k : Nat) : Prop :=
  (recs.take k).countP (·.length = 6) ≤ (recs.take k).countP (·.length = 5)

/-- The region starts with 512 complete records, and the tree is not complete after any fewer of them: a complete record would be the
512th node (45_tree_codec.md R167, last cause). -/
def Has512Nodes (r : List Byte) : Prop :=
  ∃ recs : List (List Byte), recs.length = 512 ∧ (∀ x ∈ recs, IsRecord x) ∧ recs.flatten <+: r ∧ ∀ k, k ≤ 511 → StillOpen recs k

/-- Node `i` comes before node `j` in the order of 41_tree_builder.md R121: the pair (FREQ, id). -/
def KeyLess (v : Vector Node 511) (i j : Nat) : Prop :=
  (nodeGet v i).freq.toNat < (nodeGet v j).freq.toNat ∨ ((nodeGet v i).freq.toNat = (nodeGet v j).freq.toNat ∧ i < j)

/-- Id `x` is live when node `j` is made: it exists and is no child of an internal node made before, where the internal nodes start
at id `k` (41_tree_builder.md R120). -/
def LiveAt (v : Vector Node 511) (k j x : Nat) : Prop :=
  x < j ∧ ∀ m, k ≤ m → m < j → (nodeGet v m).left.toNat ≠ x ∧ (nodeGet v m).right.toNat ≠ x

/-- One iteration of FCNT's loop on FREQ and SEQ (40_frequency_counter.md R112). -/
def countStep (c : (Byte → Nat) × List Byte) (s : Byte) : (Byte → Nat) × List Byte :=
  (fun x => if x = s then c.1 s + 1 else c.1 x, if c.1 s = 0 then c.2 ++ [s] else c.2)

/-- The tables of the input `B`, as the FCNT, TBLD and CGEN steps of ENC leave them (48_end_to_end.md R201). -/
def TablesOf (B : List Byte) (t : State) : Prop :=
  (∀ sym, (symGet t.freq sym).toNat = B.count sym) ∧ FirstAppearance B t.seqList ∧ t.k.toNat = t.seqList.length ∧
    HoldsTree t (inputTree B) ∧ ∀ sym, t.code sym = codeMap (codes (inputTree B)) sym

/-- The length field at the start of the window: four bytes, most significant first (46_container_format.md R182). -/
def windowN (s : State) : Nat :=
  (s.ibufByte s.srcOff.toNat).toNat * 2 ^ 24 + (s.ibufByte (s.srcOff.toNat + 1)).toNat * 2 ^ 16 +
    (s.ibufByte (s.srcOff.toNat + 2)).toNat * 2 ^ 8 + (s.ibufByte (s.srcOff.toNat + 3)).toNat

/-- The parse registers name the regions `tr` and `pl` of the container in the window (46_container_format.md R183). -/
def ParsedAs (s t : State) (tr pl : List Byte) : Prop :=
  t.treeOff.toNat = s.srcOff.toNat + 4 ∧ t.payOff.toNat = t.treeOff.toNat + t.treeLen.toNat ∧
    s.ibufRange t.treeOff.toNat t.treeLen.toNat = tr ∧ s.ibufRange t.payOff.toNat t.payLen.toNat = pl

/-- Run commands one after another as long as each succeeds. -/
def runUnits : List Instr → State → Option State
  | [], s => some s
  | i :: is, s =>
    match exec i s with
    | .next t => if t.status.error = none then runUnits is t else none
    | _ => none

end Sys2Proof.Safety
end

