-- ==== Sys2Proof/Certificates/Slice0/Obligations.lean ====
section
/-! DEFINITION. The statements for the provers. Each docstring names the rule of spec/ it rests on. -/

open Sys2Proof Sys2Proof.Machine Sys2Proof.Safety

/-! ### Command words -/

/-- 30_encoding.md R82: the fifteen command words, and three words that are none. -/
def Obligations.OpcodeMap : Prop :=
  decode 0x00000000 = .ok .nop ∧ decode 0x00000001 = .ok .fcnt ∧ decode 0x00000002 = .ok .tbld ∧
  decode 0x00000003 = .ok .cgen ∧ decode 0x00000004 = .ok .bpck ∧ decode 0x00000005 = .ok .bunp ∧
  decode 0x00000006 = .ok .tser ∧ decode 0x00000007 = .ok .tdes ∧ decode 0x00000008 = .ok .chdr ∧
  decode 0x00000009 = .ok .cpar ∧ decode 0x0000000A = .ok .walk ∧ decode 0x0000000B = .ok .enc ∧
  decode 0x0000000C = .ok .dec ∧ decode 0x0000000D = .ok .oclr ∧ decode 0x0000000E = .ok .rst ∧
  decode 0x0000000F = .error .unassignedOpcode ∧ decode 0x0000010B = .error .reservedBits ∧
  decode 0xFFFFFFFF = .error .reservedBits

/-- 30_encoding.md R82, R83: every command has one word and no other word decodes to it. -/
def Obligations.DecodeIffEncode : Prop := ∀ (w : Word) (i : Instr), decode w = .ok i ↔ w = encode i

/-- 49_control.md R222: an illegal word changes nothing but STATUS (and, in the model, takes nothing back to the host). -/
def Obligations.IllegalWordChangesStatusOnly : Prop :=
  ∀ (s : State) (w : Word), w.extractLsb' 8 24 ≠ 0 ∨ 0x0F ≤ (w.extractLsb' 0 8).toNat →
    ∃ t, transact (.writeReg 0 w) s = .next t ∧
      t = { s with
        status := { error := some (.illegalCommand, .ctrl), done := true, lastop := w.extractLsb' 0 8, faulted := true }
        reply := .nothing } ∧
      (t.regRead 1).extractLsb' 0 4 = 6 ∧ (t.regRead 1).extractLsb' 4 4 = 1 ∧
      (t.regRead 1).extractLsb' 16 8 = w.extractLsb' 0 8

/-! ### The machine's step -/

/-- 20_memory.md R61, R62, R71: the host's next transaction is performed, whole; a command word that decodes is exec of its
command; with no transaction to perform the state does not change. -/
def Obligations.StepRunsCommand : Prop :=
  (∀ (s : State) x ts, s.script = x :: ts → step s = transact x { s with script := ts }) ∧
  (∀ (s : State) w ts i, s.script = .writeReg 0 w :: ts → decode w = .ok i →
    step s = exec i { s with script := ts, reply := .nothing }) ∧
  ∀ s : State, s.script = [] → step s = .next s

/-! ### The wrapper: windows, STATUS, errors -/

/-- 49_control.md R221: the window check, and who ignores the window. -/
def Obligations.WindowCheck : Prop :=
  (∀ s i, i ∈ windowCommands → s.ibufSize.toNat < s.srcOff.toNat + s.srcLen.toNat →
    exec i s = .next { s with
      status := { error := some (.badWindow, .ctrl), done := true, lastop := opcode i, faulted := true } }) ∧
  errCode .badWindow = 7 ∧ unitCode .ctrl = 1 ∧
  (∀ s i t u, i ∈ windowCommands → WindowFits s → exec i s = .next t → t.status.error ≠ some (.badWindow, u)) ∧
  (∀ s : State, s.srcLen = 0 → (WindowFits s ↔ s.srcOff.toNat ≤ s.ibufSize.toNat)) ∧
  (∀ s i off len, i ∉ windowCommands → i ≠ .rst →
    exec i (s.setWindow off len) = mapNext (fun t => t.setWindow off len) (exec i s)) ∧
  (∀ s off len, exec .rst (s.setWindow off len) = exec .rst s) ∧
  (∀ s i t u, i ∉ windowCommands → exec i s = .next t → t.status.error ≠ some (.badWindow, u))

/-- 49_control.md R220: what `Finish` leaves in STATUS after any command but RST. -/
def Obligations.StatusAfterCommand : Prop :=
  ∀ (s : State) (i : Instr) (t : State), i ≠ .rst → exec i s = .next t →
    t.status.done = true ∧ t.status.lastop = opcode i ∧
      t.status.faulted = (s.status.faulted || t.status.error.isSome)

/-- 10_state.md R26: the fields of the STATUS word, which codes are produced, and the code of each error kind and of each unit. -/
def Obligations.StatusLayout : Prop :=
  (∀ st : Status, st.word.extractLsb' 0 4 = st.errField ∧ st.word.extractLsb' 4 4 = st.unitField ∧
    st.word.getLsbD 8 = st.done ∧ st.word.extractLsb' 9 7 = 0 ∧ st.word.extractLsb' 16 8 = st.lastop ∧
    st.word.extractLsb' 24 7 = 0 ∧ st.word.getLsbD 31 = st.faulted ∧ st.errField.toNat ≤ 8 ∧ st.unitField.toNat ≤ 10 ∧
    (st.errField = 0 ↔ st.error = none) ∧ (st.unitField = 0 ↔ st.error = none) ∧
    ∀ e u, st.error = some (e, u) → st.errField = errCode e ∧ st.unitField = unitCode u) ∧
  (errCode .malformedPayload = 1 ∧ errCode .malformedTree = 2 ∧ errCode .truncatedContainer = 3 ∧
    errCode .decodeUnderflow = 4 ∧ errCode .capacityExceeded = 5 ∧ errCode .illegalCommand = 6 ∧ errCode .badWindow = 7 ∧
    errCode .missingCode = 8) ∧
  (unitCode .ctrl = 1 ∧ unitCode .fcnt = 2 ∧ unitCode .tbld = 3 ∧ unitCode .cgen = 4 ∧ unitCode .bpck = 5 ∧
    unitCode .bunp = 6 ∧ unitCode .tser = 7 ∧ unitCode .tdes = 8 ∧ unitCode .cfmt = 9 ∧ unitCode .walk = 10)

/-- 60_exceptions.md R230, 48_end_to_end.md R202, R205: which command can end with which error, of which unit. -/
def Obligations.ErrorTable : Prop :=
  ∀ (s : State) (i : Instr) (t : State) (e : ErrKind × BlockUnit),
    exec i s = .next t → t.status.error = some e → e ∈ allowedErrors i

/-- 49_control.md R226, 60_exceptions.md R252: in a state that meets the invariants every command ends, in a next state. -/
def Obligations.CommandsEnd : Prop := ∀ (s : State) (i : Instr), Inv s → ∃ t, exec i s = .next t

/-- 10_state.md R41: no command reads STATUS. -/
def Obligations.StatusNotRead : Prop :=
  ∀ (s : State) (i : Instr) (st : Status) (t : State), exec i s = .next t →
    ∃ t', exec i (s.setStatus st) = .next t' ∧ t'.setStatus t.status = t ∧ t'.status.error = t.status.error

/-- 70_reset_and_hazards.md R275: no command but RST changes the table port, none reads it, RST included, and reading a register
changes nothing but what the host was told (that is the model's field, notes/assumptions/2.md). -/
def Obligations.TablePortPassive : Prop :=
  (∀ (s : State) (i : Instr) (sel : BitVec 3) (idx : BitVec 11), i ≠ .rst →
    exec i (s.setPort sel idx) = mapNext (fun t => t.setPort sel idx) (exec i s)) ∧
  (∀ (s : State) (sel : BitVec 3) (idx : BitVec 11), exec .rst (s.setPort sel idx) = exec .rst s) ∧
  (∀ (s t : State) (i : Instr), i ≠ .rst → exec i s = .next t → t.tblSel = s.tblSel ∧ t.tblIdx = s.tblIdx) ∧
  (∀ (s : State) (n : Nat), transact (.readReg n) s = .next { s with reply := .word (s.regRead n) })

/-! ### What every command leaves -/

/-- 10_state.md R33, R39, 20_memory.md R60: a command only reads IBUF and never changes the sizes. -/
def Obligations.InputUntouched : Prop :=
  ∀ (s : State) (i : Instr) (t : State), exec i s = .next t →
    (∀ a, t.ibufByte a = s.ibufByte a) ∧ t.ibufSize = s.ibufSize ∧ t.obufSize = s.obufSize ∧
      t.script = s.script ∧ t.reply = s.reply

/-- 20_memory.md R68, 60_exceptions.md R238: a command other than ENC, DEC, OCLR and RST, successful or failed, never takes back or
overwrites output; a command that appends nothing leaves all of OBUF. -/
def Obligations.OutputNeverOverwritten : Prop :=
  (∀ (s : State) (i : Instr) (t : State), i ∉ [Instr.enc, .dec, .oclr, .rst] → exec i s = .next t → OutputInv s →
    s.olen.toNat ≤ t.olen.toNat ∧ ∀ a, a < s.olen.toNat → t.obufByte a = s.obufByte a) ∧
  (∀ (s : State) (i : Instr) (t : State), i ∉ [Instr.bpck, .tser, .chdr, .walk, .enc, .dec] → exec i s = .next t →
    ∀ a, t.obufByte a = s.obufByte a)

/-! ### NOP, OCLR, RST -/

/-- 49_control.md R223: NOP. -/
def Obligations.NopStatusOnly : Prop :=
  decode 0x00000000 = .ok .nop ∧
  (∀ s : State, exec .nop s =
    .next { s with status := { error := none, done := true, lastop := 0x00, faulted := s.status.faulted } }) ∧
  ∀ t, exec .nop State.reset = .next t → t.regRead 1 = 0x00000100

/-- 49_control.md R224: OCLR. -/
def Obligations.OclrClearsOutput : Prop :=
  decode 0x0000000D = .ok .oclr ∧
  ∀ s : State, exec .oclr s =
    .next { s with olen := 0, status := { error := none, done := true, lastop := 0x0D, faulted := s.status.faulted } }

/-- 49_control.md R225: RST gives every register and table its reset value and keeps the buffers; it alone clears FAULTED;
it differs from a hardware reset in the buffers only (and the model's reply). -/
def Obligations.RstResets : Prop :=
  decode 0x0000000E = .ok .rst ∧
  (∀ s : State, ∃ t, exec .rst s = .next t ∧ t.regRead 1 = 0 ∧
    t.status = { error := none, done := false, lastop := 0, faulted := false } ∧
    t.srcOff = 0 ∧ t.srcLen = 0 ∧ t.olen = 0 ∧ t.treeOff = 0 ∧ t.treeLen = 0 ∧ t.payOff = 0 ∧ t.payLen = 0 ∧
    t.bitOff = 0 ∧ t.dataLen = 0 ∧ t.pad = 0 ∧ t.k = 0 ∧ t.nnodes = 0 ∧ t.root = 0 ∧ t.tblSel = 0 ∧ t.tblIdx = 0 ∧
    (∀ sym, symGet t.freq sym = 0) ∧ (∀ i : Fin 256, t.seq[i] = 0) ∧
    (∀ i, i < 511 → nodeGet t.node i = { kind := false, sym := 0, freq := 0, left := 0, right := 0 }) ∧
    (∀ sym, symGet t.clen sym = 0) ∧ (∀ sym, symGet t.cbits sym = 0) ∧
    t.ibufSize = s.ibufSize ∧ t.obufSize = s.obufSize ∧
    (∀ a, t.ibufByte a = s.ibufByte a) ∧ ∀ a, t.obufByte a = s.obufByte a) ∧
  (∀ s t i, exec i s = .next t → s.status.faulted = true → t.status.faulted = false → i = .rst) ∧
  ∀ s : State, ∃ h, transact .hostReset s = .next h ∧ exec .rst s = .next { h with
    ibuf := s.ibuf, obuf := s.obuf, ibufDraw := s.ibufDraw, obufDraw := s.obufDraw, reply := s.reply }

/-! ### FCNT -/

/-- 40_frequency_counter.md R110, R112: FCNT completes on every window that fits, and counts it. -/
def Obligations.FcntCounts : Prop :=
  ∀ s : State, WindowFits s → ∃ t, exec .fcnt s = .next t ∧ Ended s t 0x01 none ∧
    (∀ sym, (symGet t.freq sym).toNat = s.window.count sym) ∧
    FirstAppearance s.window t.seqList ∧ t.k.toNat = t.seqList.length ∧
    (∀ i : Fin 256, t.k.toNat ≤ i.val → t.seq[i] = 0) ∧
    SameInput s t ∧ SameOutput s t ∧ SameParse s t ∧ SameView s t ∧ SameTree s t ∧ SameCodes s t ∧ SameRest s t

/-- 40_frequency_counter.md R110, R112: the one-pass loop of FCNT computes `Count`. -/
def Obligations.CountIsOnePass : Prop :=
  ∀ B : List Byte,
    (∀ s, (B.foldl countStep (fun _ => 0, [])).1 s = countFreq B s) ∧
      (B.foldl countStep (fun _ => 0, [])).2 = countSeq B

/-! ### TBLD -/

/-- 41_tree_builder.md R123, R124, R125: TBLD completes for every K that exists; its leaves, its internal nodes, the entries it
leaves, and that the arena holds one tree. -/
def Obligations.TbldArena : Prop :=
  ∀ s : State, s.k.toNat ≤ 256 → ∃ t, exec .tbld s = .next t ∧ Ended s t 0x02 none ∧
    (s.k = 0 → t.nnodes = 0 ∧ t.root = 0 ∧ t.node = s.node) ∧
    (s.k ≠ 0 →
      t.nnodes.toNat = 2 * s.k.toNat - 1 ∧ t.root.toNat = 2 * s.k.toNat - 2 ∧
      (∀ i, i < s.k.toNat → nodeGet t.node i =
        { kind := false, sym := s.seqList.getD i 0, freq := symGet s.freq (s.seqList.getD i 0), left := 0, right := 0 }) ∧
      (∀ i, s.k.toNat ≤ i → i < 2 * s.k.toNat - 1 →
        (nodeGet t.node i).kind = true ∧ (nodeGet t.node i).sym = 0 ∧
        (nodeGet t.node i).left.toNat < i ∧ (nodeGet t.node i).right.toNat < i ∧
        (nodeGet t.node i).freq =
          (nodeGet t.node (nodeGet t.node i).left.toNat).freq + (nodeGet t.node (nodeGet t.node i).right.toNat).freq) ∧
      (∀ i, 2 * s.k.toNat - 1 ≤ i → nodeGet t.node i = nodeGet s.node i) ∧
      ArenaInv t) ∧
    SameInput s t ∧ SameOutput s t ∧ SameParse s t ∧ SameView s t ∧ SameCount s t ∧ SameCodes s t ∧ SameRest s t

/-- 41_tree_builder.md R120, R121, R122: each internal node joins the two live nodes with the least keys, the least on the left.
With the counts of a window their sum fits 32 bits (R123 item 2). -/
def Obligations.TbldPicksTwoLeast : Prop :=
  ∀ (s t : State) (j : Nat), s.k.toNat ≤ 256 →
    (s.seqList.map fun sym => (symGet s.freq sym).toNat).sum < 2 ^ 32 → exec .tbld s = .next t →
    s.k.toNat ≤ j → j < 2 * s.k.toNat - 1 →
    LiveAt t.node s.k.toNat j (nodeGet t.node j).left.toNat ∧ LiveAt t.node s.k.toNat j (nodeGet t.node j).right.toNat ∧
      KeyLess t.node (nodeGet t.node j).left.toNat (nodeGet t.node j).right.toNat ∧
      ∀ x, LiveAt t.node s.k.toNat j x → x ≠ (nodeGet t.node j).left.toNat → x ≠ (nodeGet t.node j).right.toNat →
        KeyLess t.node (nodeGet t.node j).right.toNat x

/-! ### CGEN -/

/-- 42_code_table_generator.md R133, R134: CGEN completes on every tree; each symbol gets the code of its last leaf in pre-order, and
no code if it has no leaf. -/
def Obligations.CgenTable : Prop :=
  ∀ (s : State) (ot : Option HTree), HoldsTree s ot → ∃ t, exec .cgen s = .next t ∧ Ended s t 0x03 none ∧
    (∀ sym, t.code sym = codeMap (codes ot) sym) ∧
    (∀ sym, sym ∉ (codes ot).map Prod.fst → symGet t.clen sym = 0 ∧ symGet t.cbits sym = 0) ∧ CodeInv t ∧
    SameInput s t ∧ SameOutput s t ∧ SameParse s t ∧ SameView s t ∧ SameCount s t ∧ SameTree s t ∧ SameRest s t

/-- 42_code_table_generator.md R131 item 2: no code is a prefix of another, and no two are equal. -/
def Obligations.CodesPrefixFree : Prop :=
  ∀ ot : Option HTree, (codes ot).Pairwise fun p q => ¬ p.2 <+: q.2 ∧ ¬ q.2 <+: p.2

/-- 42_code_table_generator.md R130, R131 items 1 and 4, R132: a root that is a leaf gets "0"; below an internal node the codes of
the left subtree start with 0 (false) and those of the right subtree, which come after them, with 1 (true); so the leaves get their
codes in pre-order, each of 1 to 255 bits in a tree that fits the arena. -/
def Obligations.CodeLengths : Prop :=
  codes none = [] ∧ (∀ s f, codes (some (.leaf s f)) = [(s, [false])]) ∧
  (∀ f l r, codes (some (.node f l r)) = paths (.node f l r) []) ∧
  (∀ s f, paths (.leaf s f) [] = [(s, [])]) ∧
  (∀ f l r, paths (.node f l r) [] =
    (paths l []).map (fun q => (q.1, false :: q.2)) ++ (paths r []).map fun q => (q.1, true :: q.2)) ∧
  (∀ t : HTree, (codes (some t)).map Prod.fst = t.syms) ∧
  ∀ t : HTree, t.size ≤ 511 → ∀ p ∈ codes (some t), 1 ≤ p.2.length ∧ p.2.length ≤ 255

/-! ### BPCK -/

/-- 43_bit_packer.md R144: BPCK completes when every byte of the window has a code and the payload fits; it appends
`Pack(Stream(window, Code))`, of `1 + ceil8(T)` bytes. -/
def Obligations.BpckPacks : Prop :=
  ∀ s : State, WindowFits s → (∀ b ∈ s.window, symGet s.clen b ≠ 0) →
    s.olen.toNat + 1 + ((s.window.map fun b => (symGet s.clen b).toNat).sum + 7) / 8 ≤ s.obufSize.toNat →
    ∃ t, exec .bpck s = .next t ∧ Ended s t 0x04 none ∧ Appended s t (pack (s.window.flatMap s.code)) ∧
      SameAllButOutput s t

/-- 43_bit_packer.md R144, R145, 60_exceptions.md R238: BPCK's errors, in the order they are tested; no output. -/
def Obligations.BpckErrors : Prop :=
  ∀ s : State, WindowFits s →
    ((∃ b ∈ s.window, symGet s.clen b = 0) →
      ∃ t, exec .bpck s = .next t ∧ Ended s t 0x04 (some (.missingCode, .bpck)) ∧ NoOutput s t s.olen ∧
        SameAllButOutput s t) ∧
    ((∀ b ∈ s.window, symGet s.clen b ≠ 0) →
      s.obufSize.toNat < s.olen.toNat + 1 + ((s.window.map fun b => (symGet s.clen b).toNat).sum + 7) / 8 →
      ∃ t, exec .bpck s = .next t ∧ Ended s t 0x04 (some (.capacityExceeded, .bpck)) ∧ NoOutput s t s.olen ∧
        SameAllButOutput s t)

/-- 43_bit_packer.md R142 items 1 to 4 (and 30_encoding.md R85): the shape of a packed payload. -/
def Obligations.PackShape : Prop :=
  ∀ bits : List Bool, ∃ pad data, pack bits = pad :: data ∧ pad.toNat = (8 - bits.length % 8) % 8 ∧
    data.length = (bits.length + 7) / 8 ∧ (data = [] → pad = 0) ∧ 8 * data.length - pad.toNat = bits.length ∧
    ∀ last, data.getLast? = some last → ∀ i, i < pad.toNat → last.getLsbD i = false

/-! ### BUNP and the bit view -/

/-- 43_bit_packer.md R142 item 5, 44_bit_unpacker.md R152 item 1: unpacking a packed bit-string gives it back. -/
def Obligations.UnpackPack : Prop := ∀ bits : List Bool, unpack (pack bits) = .ok bits

/-- 44_bit_unpacker.md R151, R153, 60_exceptions.md R239: BUNP completes, sets the view to `Unpack(window)`, or fails by the three
tests and clears the view. -/
def Obligations.BunpView : Prop :=
  ∀ s : State, WindowFits s →
    ((s.srcLen = 0 ∨ 7 < (s.ibufByte s.srcOff.toNat).toNat ∨ (s.srcLen = 1 ∧ s.ibufByte s.srcOff.toNat ≠ 0)) →
      ∃ t, exec .bunp s = .next t ∧ Ended s t 0x05 (some (.malformedPayload, .bunp)) ∧
        t.bitOff = 0 ∧ t.dataLen = 0 ∧ t.pad = 0 ∧
        SameInput s t ∧ SameOutput s t ∧ SameParse s t ∧ SameCount s t ∧ SameTree s t ∧ SameCodes s t ∧ SameRest s t) ∧
    (¬(s.srcLen = 0 ∨ 7 < (s.ibufByte s.srcOff.toNat).toNat ∨ (s.srcLen = 1 ∧ s.ibufByte s.srcOff.toNat ≠ 0)) →
      ∃ t, exec .bunp s = .next t ∧ Ended s t 0x05 none ∧
        t.bitOff.toNat = s.srcOff.toNat + 1 ∧ t.dataLen.toNat + 1 = s.srcLen.toNat ∧
        t.pad.toNat = (s.ibufByte s.srcOff.toNat).toNat ∧ unpack s.window = .ok t.viewBits ∧
        SameInput s t ∧ SameOutput s t ∧ SameParse s t ∧ SameCount s t ∧ SameTree s t ∧ SameCodes s t ∧ SameRest s t)

/-- 10_state.md R30, 70_reset_and_hazards.md R271: a host write to IBUF leaves the view registers and changes exactly the bits of the
byte it writes. -/
def Obligations.ViewIsReference : Prop :=
  ∀ (s t : State) (a : Word) (b : Byte), transact (.writeIbuf a b) s = .next t →
    SameView s t ∧
      ∀ i, t.viewBit i = if s.bitOff.toNat + i / 8 = a.toNat then b.getLsbD (7 - i % 8) else s.viewBit i

/-! ### TSER and TDES -/

/-- 45_tree_codec.md R165, 60_exceptions.md R238: TSER completes when the serialized tree fits, else CapacityExceeded with no
output. -/
def Obligations.TserAppends : Prop :=
  ∀ (s : State) (ot : Option HTree), HoldsTree s ot →
    (s.olen.toNat + (ser ot).length ≤ s.obufSize.toNat →
      ∃ t, exec .tser s = .next t ∧ Ended s t 0x06 none ∧ Appended s t (ser ot) ∧ SameAllButOutput s t) ∧
    (s.obufSize.toNat < s.olen.toNat + (ser ot).length →
      ∃ t, exec .tser s = .next t ∧ Ended s t 0x06 (some (.capacityExceeded, .tser)) ∧ NoOutput s t s.olen ∧
        SameAllButOutput s t)

/-- 45_tree_codec.md R160, R161 items 1 to 3, 30_encoding.md R88 to R90, R93: the bytes of a leaf and of an internal node (tag, SYM,
FREQ most significant byte first); a serialization is self-delimiting, so `Ser` is injective; its length. -/
def Obligations.SerSelfDelimiting : Prop :=
  ser none = [] ∧ (∀ t, ser (some t) = serTree t) ∧
  (∀ (sym : Byte) (f : Word), ∃ b3 b2 b1 b0 : Byte, serTree (.leaf sym f) = [0x01, sym, b3, b2, b1, b0] ∧
    b3.toNat * 2 ^ 24 + b2.toNat * 2 ^ 16 + b1.toNat * 2 ^ 8 + b0.toNat = f.toNat) ∧
  (∀ (f : Word) (l r : HTree), ∃ b3 b2 b1 b0 : Byte,
    serTree (.node f l r) = [0x06, b3, b2, b1, b0] ++ serTree l ++ serTree r ∧
    b3.toNat * 2 ^ 24 + b2.toNat * 2 ^ 16 + b1.toNat * 2 ^ 8 + b0.toNat = f.toNat) ∧
  (∀ (t t' : HTree) (x y : List Byte), serTree t ++ x = serTree t' ++ y → t = t' ∧ x = y) ∧
  (∀ ot ot', ser ot = ser ot' → ot = ot') ∧
  ∀ ot, (ser ot).length = if nodeCount ot = 0 then 0 else (11 * nodeCount ot + 1) / 2

/-- 45_tree_codec.md R163: deserializing a serialized tree of at most 511 nodes gives that tree, and whatever deserializes is the
serialization of the tree it gives. -/
def Obligations.TreeRoundTrip : Prop :=
  (∀ ot, nodeCount ot ≤ 511 → ∃ ns, des (ser ot) = .ok ns ∧ NodesHold ns ot ∧ ns.length = nodeCount ot) ∧
  ∀ r ns, des r = .ok ns → ∃ ot, NodesHold ns ot ∧ r = ser ot ∧ nodeCount ot ≤ 511

/-- 45_tree_codec.md R166, R168: TDES completes on the serialization of a tree that fits the arena: the arena holds it, root 0, ids
in pre-order (an internal node has LEFT one above its own id and RIGHT one above the last id of its left subtree, and SYM 0; a leaf
has LEFT and RIGHT 0), the entries from NNODES on left. -/
def Obligations.TdesLoads : Prop :=
  ∀ (s : State) (ot : Option HTree), WindowFits s → s.window = ser ot → nodeCount ot ≤ 511 →
    ∃ t, exec .tdes s = .next t ∧ Ended s t 0x07 none ∧ HoldsTree t ot ∧ t.nnodes.toNat = nodeCount ot ∧ t.root = 0 ∧
      (ot ≠ none → visitOf (nodeGet t.node) (nodeCount ot) 511 0 = some (List.range (nodeCount ot))) ∧
      (∀ i, i < nodeCount ot → (nodeGet t.node i).kind = true →
        (nodeGet t.node i).sym = 0 ∧ (nodeGet t.node i).left.toNat = i + 1 ∧
        ∃ ids, visitOf (nodeGet t.node) (nodeCount ot) 511 (nodeGet t.node i).left.toNat = some ids ∧
          (nodeGet t.node i).right.toNat = i + 1 + ids.length) ∧
      (∀ i, i < nodeCount ot → (nodeGet t.node i).kind = false →
        (nodeGet t.node i).left = 0 ∧ (nodeGet t.node i).right = 0) ∧
      (∀ i, nodeCount ot ≤ i → nodeGet t.node i = nodeGet s.node i) ∧
      SameInput s t ∧ SameOutput s t ∧ SameParse s t ∧ SameView s t ∧ SameCount s t ∧ SameCodes s t ∧ SameRest s t

/-- 45_tree_codec.md R167, R168, 60_exceptions.md R239, R241 item 4: every other window fails and leaves the absent tree. The error is
CapacityExceeded exactly when a 512th node is met before anything else is wrong, and MalformedTree for every other cause; so a window
of less than 512 records of 5 bytes gives MalformedTree, and the serialization of a tree of more than 511 nodes CapacityExceeded. -/
def Obligations.TdesErrors : Prop :=
  ∀ s : State, WindowFits s → (∀ ot, s.window = ser ot → 511 < nodeCount ot) →
    ∃ t e, exec .tdes s = .next t ∧ Ended s t 0x07 (some (e, .tdes)) ∧
      (Has512Nodes s.window → e = .capacityExceeded) ∧ (¬ Has512Nodes s.window → e = .malformedTree) ∧
      (s.window.length < 2560 → e = .malformedTree) ∧ ((∃ ot, s.window = ser ot) → e = .capacityExceeded) ∧
      t.nnodes = 0 ∧ t.root = 0 ∧
      SameInput s t ∧ SameOutput s t ∧ SameParse s t ∧ SameView s t ∧ SameCount s t ∧ SameCodes s t ∧ SameRest s t

/-! ### CHDR and CPAR -/

/-- 46_container_format.md R181, 60_exceptions.md R238: CHDR completes when 4 bytes fit and appends the big-endian length of the
serialized tree; else CapacityExceeded with no output. -/
def Obligations.ChdrAppends : Prop :=
  ∀ (s : State) (ot : Option HTree), HoldsTree s ot →
    (s.olen.toNat + 4 ≤ s.obufSize.toNat →
      ∃ t b0 b1 b2 b3, exec .chdr s = .next t ∧ Ended s t 0x08 none ∧ Appended s t [b0, b1, b2, b3] ∧
        b0.toNat * 2 ^ 24 + b1.toNat * 2 ^ 16 + b2.toNat * 2 ^ 8 + b3.toNat = (ser ot).length ∧ SameAllButOutput s t) ∧
    (s.obufSize.toNat < s.olen.toNat + 4 →
      ∃ t, exec .chdr s = .next t ∧ Ended s t 0x08 (some (.capacityExceeded, .cfmt)) ∧ NoOutput s t s.olen ∧
        SameAllButOutput s t)

/-- 46_container_format.md R182, R183, 60_exceptions.md R239: CPAR completes on a container and names its two regions, or fails by the
two tests and clears the four registers. -/
def Obligations.CparSplits : Prop :=
  ∀ s : State, WindowFits s →
    ((s.srcLen.toNat < 4 ∨ s.srcLen.toNat - 4 < windowN s) →
      ∃ t, exec .cpar s = .next t ∧ Ended s t 0x09 (some (.truncatedContainer, .cfmt)) ∧
        t.treeOff = 0 ∧ t.treeLen = 0 ∧ t.payOff = 0 ∧ t.payLen = 0 ∧
        SameInput s t ∧ SameOutput s t ∧ SameView s t ∧ SameCount s t ∧ SameTree s t ∧ SameCodes s t ∧ SameRest s t) ∧
    (4 ≤ s.srcLen.toNat → windowN s ≤ s.srcLen.toNat - 4 →
      ∃ t, exec .cpar s = .next t ∧ Ended s t 0x09 none ∧
        t.treeOff.toNat = s.srcOff.toNat + 4 ∧ t.treeLen.toNat = windowN s ∧
        t.payOff.toNat = s.srcOff.toNat + 4 + windowN s ∧ t.payLen.toNat = s.srcLen.toNat - 4 - windowN s ∧
        split s.window = .ok (s.ibufRange t.treeOff.toNat t.treeLen.toNat, s.ibufRange t.payOff.toNat t.payLen.toNat) ∧
        SameInput s t ∧ SameOutput s t ∧ SameView s t ∧ SameCount s t ∧ SameTree s t ∧ SameCodes s t ∧ SameRest s t)

/-- 46_container_format.md R184 items 1 and 2. -/
def Obligations.SplitFrame : Prop :=
  ∀ tr pl : List Byte, tr.length < 2 ^ 32 →
    split (frame tr pl) = .ok (tr, pl) ∧ (frame tr pl).length = 4 + tr.length + pl.length

/-! ### WALK -/

/-- 47_decode_walk.md R192: WALK completes when the walk succeeds and its symbols fit, and appends them. -/
def Obligations.WalkAppends : Prop :=
  ∀ (s : State) (ot : Option HTree) (out : List Byte), ViewInv s → HoldsTree s ot → walk ot s.viewBits = (out, none) →
    s.olen.toNat + out.length ≤ s.obufSize.toNat →
    ∃ t, exec .walk s = .next t ∧ Ended s t 0x0A none ∧ Appended s t out ∧ SameAllButOutput s t

/-- 47_decode_walk.md R192, R194, 60_exceptions.md R238: WALK's errors: CapacityExceeded if the symbols emitted before the walk ends
do not fit, else the error the walk ends with; no output. -/
def Obligations.WalkErrors : Prop :=
  ∀ (s : State) (ot : Option HTree) (out : List Byte) (e : Option ErrKind), ViewInv s → OutputInv s → HoldsTree s ot →
    walk ot s.viewBits = (out, e) →
    (s.obufSize.toNat < s.olen.toNat + out.length →
      ∃ t, exec .walk s = .next t ∧ Ended s t 0x0A (some (.capacityExceeded, .walk)) ∧ NoOutput s t s.olen ∧
        SameAllButOutput s t) ∧
    (∀ k, e = some k → s.olen.toNat + out.length ≤ s.obufSize.toNat →
      ∃ t, exec .walk s = .next t ∧ Ended s t 0x0A (some (k, .walk)) ∧ NoOutput s t s.olen ∧ SameAllButOutput s t)

/-- 47_decode_walk.md R190, R191, R193 item 3: which bit-strings each kind of tree decodes, to what, and how the others fail. -/
def Obligations.WalkDecodes : Prop :=
  (∀ bits, walk none bits = ([], if bits = [] then none else some .malformedTree)) ∧
  (∀ s f bits, walk (some (.leaf s f)) bits =
    (List.replicate (bits.idxOf true) s, if true ∈ bits then some .malformedPayload else none)) ∧
  (∀ f l r bits out, walk (some (.node f l r)) bits = (out, none) ↔
    ∃ ps : List (Byte × List Bool), (∀ p ∈ ps, p ∈ codes (some (.node f l r))) ∧ bits = ps.flatMap Prod.snd ∧
      out = ps.map Prod.fst) ∧
  ∀ f l r bits, (walk (some (.node f l r)) bits).2 = none ∨ (walk (some (.node f l r)) bits).2 = some .decodeUnderflow

/-- 47_decode_walk.md R193 item 1: the walk undoes the coding, for a tree in which no symbol occurs twice. -/
def Obligations.WalkStream : Prop :=
  ∀ (t : HTree) (B : List Byte), t.syms.Nodup → (∀ b ∈ B, b ∈ t.syms) →
    walk (some t) (stream B (codeMap (codes (some t)))) = (B, none)

/-! ### ENC and DEC -/

/-- 48_end_to_end.md R200, R201: ENC completes when the container fits; its output is `Encode(window)`, its tables are those of the
window. -/
def Obligations.EncOutput : Prop :=
  ∀ s : State, WindowFits s → (encodeBytes s.window).length ≤ s.obufSize.toNat →
    ∃ t, exec .enc s = .next t ∧ Ended s t 0x0B none ∧ OutputIs s t (encodeBytes s.window) ∧ TablesOf s.window t ∧
      SameNodesAbove s t ∧ SameInput s t ∧ SameParse s t ∧ SameView s t ∧ SameRest s t

/-- 48_end_to_end.md R202, 60_exceptions.md R238: a container that does not fit gives CapacityExceeded, from the first step whose
append does not fit; no output; the tables are those of the window. -/
def Obligations.EncCapacity : Prop :=
  ∀ s : State, WindowFits s → s.obufSize.toNat < (encodeBytes s.window).length →
    ∃ t, exec .enc s = .next t ∧
      Ended s t 0x0B (some (.capacityExceeded,
        if s.obufSize.toNat < 4 then .cfmt
        else if s.obufSize.toNat < 4 + (ser (inputTree s.window)).length then .tser else .bpck)) ∧
      t.olen = 0 ∧ TablesOf s.window t ∧ SameNodesAbove s t ∧ SameInput s t ∧ SameParse s t ∧ SameView s t ∧ SameRest s t

/-- 48_end_to_end.md R200, R204: DEC completes when the window decodes and the result fits; its output is `Decode(window)`; the
registers and the arena are those of the container. -/
def Obligations.DecOutput : Prop :=
  ∀ (s : State) (out : List Byte), WindowFits s → decodeBytes s.window = .ok out → out.length ≤ s.obufSize.toNat →
    ∃ t tr pl ot, exec .dec s = .next t ∧ Ended s t 0x0C none ∧ OutputIs s t out ∧
      split s.window = .ok (tr, pl) ∧ ParsedAs s t tr pl ∧ tr = ser ot ∧ HoldsTree t ot ∧ t.root = 0 ∧
      unpack pl = .ok t.viewBits ∧ walk ot t.viewBits = (out, none) ∧
      SameNodesAbove s t ∧ SameInput s t ∧ SameCount s t ∧ SameCodes s t ∧ SameRest s t

/-- 48_end_to_end.md R205, 60_exceptions.md R239: the errors of DEC in their order, and what each leaves; never any output. -/
def Obligations.DecErrors : Prop :=
  ∀ s : State, WindowFits s →
    (∀ e, split s.window = .error e →
      ∃ t, exec .dec s = .next t ∧ Ended s t 0x0C (some (e, .cfmt)) ∧ t.olen = 0 ∧
        t.treeOff = 0 ∧ t.treeLen = 0 ∧ t.payOff = 0 ∧ t.payLen = 0 ∧ SameTree s t ∧ SameView s t ∧
        SameInput s t ∧ SameCount s t ∧ SameCodes s t ∧ SameRest s t) ∧
    (∀ tr pl e, split s.window = .ok (tr, pl) → des tr = .error e →
      ∃ t, exec .dec s = .next t ∧ Ended s t 0x0C (some (e, .tdes)) ∧ t.olen = 0 ∧
        ParsedAs s t tr pl ∧ t.nnodes = 0 ∧ t.root = 0 ∧ SameView s t ∧
        SameInput s t ∧ SameCount s t ∧ SameCodes s t ∧ SameRest s t) ∧
    (∀ tr pl ot e, split s.window = .ok (tr, pl) → tr = ser ot → nodeCount ot ≤ 511 → unpack pl = .error e →
      ∃ t, exec .dec s = .next t ∧ Ended s t 0x0C (some (e, .bunp)) ∧ t.olen = 0 ∧
        ParsedAs s t tr pl ∧ HoldsTree t ot ∧ t.bitOff = 0 ∧ t.dataLen = 0 ∧ t.pad = 0 ∧
        SameNodesAbove s t ∧ SameInput s t ∧ SameCount s t ∧ SameCodes s t ∧ SameRest s t) ∧
    (∀ tr pl ot bits out e, split s.window = .ok (tr, pl) → tr = ser ot → nodeCount ot ≤ 511 → unpack pl = .ok bits →
      walk ot bits = (out, e) → s.obufSize.toNat < out.length ∨ e ≠ none →
      ∃ t, exec .dec s = .next t ∧
        Ended s t 0x0C (some (if s.obufSize.toNat < out.length then .capacityExceeded else e.getD .decodeUnderflow, .walk)) ∧
        t.olen = 0 ∧ ParsedAs s t tr pl ∧ HoldsTree t ot ∧ t.viewBits = bits ∧
        SameNodesAbove s t ∧ SameInput s t ∧ SameCount s t ∧ SameCodes s t ∧ SameRest s t)

/-- 48_end_to_end.md R207 item 1: `Decode(Encode(B)) = B`. -/
def Obligations.RoundTrip : Prop := ∀ B : List Byte, decodeBytes (encodeBytes B) = .ok B

/-- 48_end_to_end.md R207 item 1, for the commands: what ENC puts out, DEC turns back into the window ENC read. -/
def Obligations.CommandRoundTrip : Prop :=
  ∀ s t s2 : State, WindowFits s → exec .enc s = .next t → t.status.error = none →
    WindowFits s2 → s2.window = t.obufRange 0 t.olen.toNat → s.srcLen.toNat ≤ s2.obufSize.toNat →
    ∃ t2, exec .dec s2 = .next t2 ∧ t2.status.error = none ∧ t2.obufRange 0 t2.olen.toNat = s.window

/-- 48_end_to_end.md R208: the outcome of ENC depends on the window and the sizes alone, whatever the state before. -/
def Obligations.EncIndependent : Prop :=
  ∀ s s' : State, WindowFits s → s'.srcOff = s.srcOff → s'.srcLen = s.srcLen → s'.ibufSize = s.ibufSize →
    s'.obufSize = s.obufSize → s'.window = s.window →
    ∃ t t', exec .enc s = .next t ∧ exec .enc s' = .next t' ∧ t'.status.error = t.status.error ∧ t'.olen = t.olen ∧
      (∀ a, a < t.olen.toNat → t'.obufByte a = t.obufByte a) ∧
      t'.freq = t.freq ∧ t'.seq = t.seq ∧ t'.k = t.k ∧ t'.nnodes = t.nnodes ∧ t'.root = t.root ∧
      (∀ i, i < t.nnodes.toNat → nodeGet t'.node i = nodeGet t.node i) ∧ t'.clen = t.clen ∧ t'.cbits = t.cbits

/-- 48_end_to_end.md R208: the same for DEC; the tables and registers it writes agree when it succeeds. -/
def Obligations.DecIndependent : Prop :=
  ∀ s s' : State, WindowFits s → s'.srcOff = s.srcOff → s'.srcLen = s.srcLen → s'.ibufSize = s.ibufSize →
    s'.obufSize = s.obufSize → s'.window = s.window →
    ∃ t t', exec .dec s = .next t ∧ exec .dec s' = .next t' ∧ t'.status.error = t.status.error ∧ t'.olen = t.olen ∧
      (∀ a, a < t.olen.toNat → t'.obufByte a = t.obufByte a) ∧
      (t.status.error = none →
        SameParse t t' ∧ SameView t t' ∧ t'.nnodes = t.nnodes ∧ t'.root = t.root ∧
        ∀ i, i < t.nnodes.toNat → nodeGet t'.node i = nodeGet t.node i)

/-- 48_end_to_end.md R209: ENC and the seven unit commands leave the same state but for STATUS, when every command succeeds. -/
def Obligations.EncEqualsUnits : Prop :=
  ∀ s : State,
    (∀ t, runUnits [.oclr, .fcnt, .tbld, .cgen, .chdr, .tser, .bpck] s = some t →
      exec .enc s = .next { t with
        status := { error := none, done := true, lastop := 0x0B, faulted := s.status.faulted } }) ∧
    (∀ t, exec .enc s = .next t → t.status.error = none →
      ∃ u, runUnits [.oclr, .fcnt, .tbld, .cgen, .chdr, .tser, .bpck] s = some u ∧ u.setStatus t.status = t)

/-- 48_end_to_end.md R209: DEC and its unit commands, the host moving the window to the tree region and then to the payload region,
leave the same state but for STATUS and the window, when every command succeeds. -/
def Obligations.DecEqualsUnits : Prop :=
  (∀ s t : State, exec .dec s = .next t → t.status.error = none →
    ∃ t1 t2 t3, runUnits [.oclr, .cpar] s = some t1 ∧
      runUnits [.tdes] (t1.setWindow t1.treeOff t1.treeLen) = some t2 ∧
      runUnits [.bunp, .walk] (t2.setWindow t2.payOff t2.payLen) = some t3 ∧
      t = (t3.setWindow s.srcOff s.srcLen).setStatus t.status) ∧
  ∀ s t1 t2 t3 : State, runUnits [.oclr, .cpar] s = some t1 →
    runUnits [.tdes] (t1.setWindow t1.treeOff t1.treeLen) = some t2 →
    runUnits [.bunp, .walk] (t2.setWindow t2.payOff t2.payLen) = some t3 →
    exec .dec s = .next { t3 with
      srcOff := s.srcOff, srcLen := s.srcLen
      status := { error := none, done := true, lastop := 0x0C, faulted := s.status.faulted } }

/-! ### Reset and the invariants -/

/-- 70_reset_and_hazards.md R262: the reset state meets every invariant, for buffers of every size; and the sizes of State.reset. -/
def Obligations.ResetMeetsInv : Prop := (∀ a b : Word, Inv (State.resetWith a b)) ∧ Inv State.reset

/-- 10_state.md R43: every host transaction, and so every command, successful or failed, keeps the invariants. -/
def Obligations.StepKeepsInv : Prop := ∀ s t : State, Inv s → step s = .next t → Inv t

/-- The model's canonical form of the two buffers, a DESIGN CHOICE (notes/assumptions/4.md) and no rule of the spec, is kept by every
step, from every state that has it; the buffers are those of 10_state.md R39, R40. -/
def Obligations.StepKeepsBuffers : Prop := ∀ s t : State, BufferInv s → step s = .next t → BufferInv t

/-- 10_state.md R43 item 3, R44: under the invariant the arena holds a tree with (NNODES + 1) / 2 leaves and of depth at most 255. -/
def Obligations.ArenaHoldsTree : Prop :=
  ∀ s : State, ArenaInv s → (s.nnodes = 0 ∧ HoldsTree s none) ∨
    ∃ t, s.nnodes ≠ 0 ∧ HoldsTree s (some t) ∧ t.size = s.nnodes.toNat ∧ t.syms.length = (s.nnodes.toNat + 1) / 2 ∧
      t.depth ≤ 255

/-- 70_reset_and_hazards.md R262: what each command does as the first one after reset, for buffers of every size: STATUS, and OLEN. -/
def Obligations.FirstCommandAfterReset : Prop :=
  ∀ a b : Word, ∃ f : Instr → State, (∀ i, exec i (State.resetWith a b) = .next (f i)) ∧
    (f .nop).regRead 1 = 0x00000100 ∧ (f .fcnt).regRead 1 = 0x00010100 ∧ (f .fcnt).k = 0 ∧
    (f .tbld).regRead 1 = 0x00020100 ∧ (f .tbld).nnodes = 0 ∧ (f .cgen).regRead 1 = 0x00030100 ∧
    (f .bpck).regRead 1 = (if 1 ≤ b.toNat then 0x00040100 else 0x80040155) ∧
    (f .bpck).olen = (if 1 ≤ b.toNat then 1 else 0) ∧
    (f .bunp).regRead 1 = 0x80050161 ∧ (f .tser).regRead 1 = 0x00060100 ∧ (f .tser).olen = 0 ∧
    (f .tdes).regRead 1 = 0x00070100 ∧ (f .tdes).nnodes = 0 ∧
    (f .chdr).regRead 1 = (if 4 ≤ b.toNat then 0x00080100 else 0x80080195) ∧
    (f .chdr).olen = (if 4 ≤ b.toNat then 4 else 0) ∧
    (f .cpar).regRead 1 = 0x80090193 ∧ (f .walk).regRead 1 = 0x000A0100 ∧ (f .walk).olen = 0 ∧
    (f .enc).regRead 1 = (if 5 ≤ b.toNat then 0x000B0100 else if b.toNat < 4 then 0x800B0195 else 0x800B0155) ∧
    (f .enc).olen = (if 5 ≤ b.toNat then 5 else 0) ∧
    (f .dec).regRead 1 = 0x800C0193 ∧ (f .oclr).regRead 1 = 0x000D0100 ∧ (f .rst).regRead 1 = 0

/-- 70_reset_and_hazards.md R260: a hardware reset gives every register and table its reset value, from every state. The model's own:
both buffers' bytes are unspecified and drawn anew (notes/assumptions/4.md, 7.md), the sizes, the NODE draw and the rest of the
host's script stand, and the reply is empty (notes/assumptions/2.md, 7.md). -/
def Obligations.HostResetResets : Prop :=
  ∀ s : State, ∃ t, transact .hostReset s = .next t ∧ t.regRead 0 = 0 ∧ t.regRead 1 = 0 ∧ t.regRead 19 = 0 ∧
    t.status = { error := none, done := false, lastop := 0, faulted := false } ∧
    t.srcOff = 0 ∧ t.srcLen = 0 ∧ t.olen = 0 ∧ t.treeOff = 0 ∧ t.treeLen = 0 ∧ t.payOff = 0 ∧ t.payLen = 0 ∧
    t.bitOff = 0 ∧ t.dataLen = 0 ∧ t.pad = 0 ∧ t.k = 0 ∧ t.nnodes = 0 ∧ t.root = 0 ∧ t.tblSel = 0 ∧ t.tblIdx = 0 ∧
    (∀ sym, symGet t.freq sym = 0) ∧ (∀ i : Fin 256, t.seq[i] = 0) ∧
    (∀ i, i < 511 → nodeGet t.node i = { kind := false, sym := 0, freq := 0, left := 0, right := 0 }) ∧
    (∀ sym, symGet t.clen sym = 0) ∧ (∀ sym, symGet t.cbits sym = 0) ∧
    t.ibufSize = s.ibufSize ∧ t.obufSize = s.obufSize ∧
    (∀ a, t.ibufByte a = Config.freeIbuf (s.ibufDraw + 1) a) ∧ (∀ a, t.obufByte a = Config.freeObuf (s.obufDraw + 1) a) ∧
    t.script = s.script ∧ t.reply = .nothing ∧
    t = { State.resetWith s.ibufSize s.obufSize with
      ibufDraw := s.ibufDraw + 1, obufDraw := s.obufDraw + 1, nodeDraw := s.nodeDraw, script := s.script }

/-! ### Registers and buffers as the host sees them -/

/-- 10_state.md R23, R24, R25, R45: writing a register. The RW registers keep the low bits they use, each in its own field; a write to
any other number changes nothing; no register but the written one (and TBL_DATA, a function of the port) reads otherwise after. What
the transaction returns is the model's field (notes/assumptions/2.md). -/
def Obligations.RegisterWrites : Prop :=
  ∀ (s : State) (n : Nat) (v : Word), n ≠ 0 → ∃ t, transact (.writeReg n v) s = .next t ∧
    (n = 2 → t = { s with srcOff := v, reply := .nothing } ∧ t.regRead 2 = v) ∧
    (n = 3 → t = { s with srcLen := v, reply := .nothing } ∧ t.regRead 3 = v) ∧
    (n = 17 → t = { s with tblSel := t.tblSel, reply := .nothing } ∧ t.tblSel.toNat = v.toNat % 8 ∧
      (t.regRead 17).toNat = v.toNat % 8) ∧
    (n = 18 → t = { s with tblIdx := t.tblIdx, reply := .nothing } ∧ t.tblIdx.toNat = v.toNat % 2048 ∧
      (t.regRead 18).toNat = v.toNat % 2048) ∧
    (n ≠ 2 → n ≠ 3 → n ≠ 17 → n ≠ 18 → t = { s with reply := .nothing }) ∧
    (∀ m, m ≠ n → m ≠ 19 → t.regRead m = s.regRead m) ∧
    SameOutput s t ∧ SameCount s t ∧ SameTree s t ∧ SameCodes s t ∧ (∀ a, t.ibufByte a = s.ibufByte a)

/-- 10_state.md R23, R24, R25, R34, R45: what a register read returns. Registers 1 to 18 are the fields of the register map,
zero-extended; TBL_DATA reads the entry selected of FREQ, SEQ, NODE, CLEN or CBITS, and 0 outside the tables; CMD and unmapped
registers read 0. -/
def Obligations.TablePortReads : Prop :=
  ∀ s : State, s.regRead 0 = 0 ∧ (∀ n, 19 < n → s.regRead n = 0) ∧
    s.regRead 1 = s.status.word ∧ s.regRead 2 = s.srcOff ∧ s.regRead 3 = s.srcLen ∧ s.regRead 4 = s.olen ∧
    s.regRead 5 = s.treeOff ∧ s.regRead 6 = s.treeLen ∧ s.regRead 7 = s.payOff ∧ s.regRead 8 = s.payLen ∧
    s.regRead 9 = s.bitOff ∧ s.regRead 10 = s.dataLen ∧ (s.regRead 11).toNat = s.pad.toNat ∧
    (s.regRead 12).toNat = s.k.toNat ∧ (s.regRead 13).toNat = s.nnodes.toNat ∧ (s.regRead 14).toNat = s.root.toNat ∧
    s.regRead 15 = s.ibufSize ∧ s.regRead 16 = s.obufSize ∧ (s.regRead 17).toNat = s.tblSel.toNat ∧
    (s.regRead 18).toNat = s.tblIdx.toNat ∧
    (∀ sym : Byte, (s.setPort 0 (sym.setWidth 11)).regRead 19 = symGet s.freq sym) ∧
    (∀ i : Fin 256, (s.setPort 1 (BitVec.ofNat 11 i.val)).regRead 19 = (s.seq[i]).setWidth 32) ∧
    (∀ sym : Byte, (s.setPort 4 (sym.setWidth 11)).regRead 19 = (symGet s.clen sym).setWidth 32) ∧
    (∀ i, i < 511 → (s.setPort 3 (BitVec.ofNat 11 i)).regRead 19 = (nodeGet s.node i).freq) ∧
    (∀ i, i < 511 → ((s.setPort 2 (BitVec.ofNat 11 i)).regRead 19).toNat =
      (if (nodeGet s.node i).kind then 2 ^ 31 else 0) + (nodeGet s.node i).right.toNat * 2 ^ 17 +
        (nodeGet s.node i).left.toNat * 2 ^ 8 + (nodeGet s.node i).sym.toNat) ∧
    (∀ (sym : Byte) (j : Nat), j < 256 →
      ((s.setPort 5 (BitVec.ofNat 11 (8 * sym.toNat + j / 32))).regRead 19).getLsbD (31 - j % 32) =
        (symGet s.cbits sym).getLsbD (255 - j)) ∧
    (∀ sel idx, sel = 6 ∨ sel = 7 → (s.setPort sel idx).regRead 19 = 0) ∧
    (∀ sel idx, (sel = 0 ∨ sel = 1 ∨ sel = 4) → 256 ≤ idx.toNat → (s.setPort sel idx).regRead 19 = 0) ∧
    ∀ sel idx, (sel = 2 ∨ sel = 3) → 511 ≤ idx.toNat → (s.setPort sel idx).regRead 19 = 0

/-- 20_memory.md R62, R66, 93_implementation_defined.md U5: a byte written to IBUF reads back, every other byte of both buffers and
every register reads as before; reading changes nothing; the model refuses an address outside the buffer. -/
def Obligations.BufferTransactions : Prop :=
  ∀ (s : State) (a : Word) (b : Byte),
    (a.toNat < s.ibufSize.toNat →
      (∃ t, transact (.writeIbuf a b) s = .next t ∧ t.ibufByte a.toNat = b ∧
        (∀ x, x ≠ a.toNat → t.ibufByte x = s.ibufByte x) ∧ (∀ n, t.regRead n = s.regRead n) ∧ SameOutput s t ∧
        SameCount s t ∧ SameTree s t ∧ SameCodes s t ∧
        transact (.readIbuf a) t = .next { t with reply := .byte b }) ∧
      transact (.readIbuf a) s = .next { s with reply := .byte (s.ibufByte a.toNat) }) ∧
    (a.toNat < s.obufSize.toNat → transact (.readObuf a) s = .next { s with reply := .byte (s.obufByte a.toNat) }) ∧
    (s.ibufSize.toNat ≤ a.toNat →
      transact (.writeIbuf a b) s = .refused .ibufAddress ∧ transact (.readIbuf a) s = .refused .ibufAddress) ∧
    (s.obufSize.toNat ≤ a.toNat → transact (.readObuf a) s = .refused .obufAddress)
end

