-- ==== Sys2Proof/Laws/State.lean ====
section
/-! SUPPORT. For each update of the state, each field after it, by definition. -/

namespace Sys2Proof.Machine

variable (s : State)

/-! ### setStatus -/

section
variable (v : Status)

@[simp] theorem State.setStatus_status : (s.setStatus v).status = v := rfl
@[simp] theorem State.setStatus_srcOff : (s.setStatus v).srcOff = s.srcOff := rfl
@[simp] theorem State.setStatus_srcLen : (s.setStatus v).srcLen = s.srcLen := rfl
@[simp] theorem State.setStatus_olen : (s.setStatus v).olen = s.olen := rfl
@[simp] theorem State.setStatus_treeOff : (s.setStatus v).treeOff = s.treeOff := rfl
@[simp] theorem State.setStatus_treeLen : (s.setStatus v).treeLen = s.treeLen := rfl
@[simp] theorem State.setStatus_payOff : (s.setStatus v).payOff = s.payOff := rfl
@[simp] theorem State.setStatus_payLen : (s.setStatus v).payLen = s.payLen := rfl
@[simp] theorem State.setStatus_bitOff : (s.setStatus v).bitOff = s.bitOff := rfl
@[simp] theorem State.setStatus_dataLen : (s.setStatus v).dataLen = s.dataLen := rfl
@[simp] theorem State.setStatus_pad : (s.setStatus v).pad = s.pad := rfl
@[simp] theorem State.setStatus_k : (s.setStatus v).k = s.k := rfl
@[simp] theorem State.setStatus_nnodes : (s.setStatus v).nnodes = s.nnodes := rfl
@[simp] theorem State.setStatus_root : (s.setStatus v).root = s.root := rfl
@[simp] theorem State.setStatus_ibufSize : (s.setStatus v).ibufSize = s.ibufSize := rfl
@[simp] theorem State.setStatus_obufSize : (s.setStatus v).obufSize = s.obufSize := rfl
@[simp] theorem State.setStatus_tblSel : (s.setStatus v).tblSel = s.tblSel := rfl
@[simp] theorem State.setStatus_tblIdx : (s.setStatus v).tblIdx = s.tblIdx := rfl
@[simp] theorem State.setStatus_freq : (s.setStatus v).freq = s.freq := rfl
@[simp] theorem State.setStatus_seq : (s.setStatus v).seq = s.seq := rfl
@[simp] theorem State.setStatus_node : (s.setStatus v).node = s.node := rfl
@[simp] theorem State.setStatus_clen : (s.setStatus v).clen = s.clen := rfl
@[simp] theorem State.setStatus_cbits : (s.setStatus v).cbits = s.cbits := rfl
@[simp] theorem State.setStatus_ibuf : (s.setStatus v).ibuf = s.ibuf := rfl
@[simp] theorem State.setStatus_obuf : (s.setStatus v).obuf = s.obuf := rfl
@[simp] theorem State.setStatus_ibufDraw : (s.setStatus v).ibufDraw = s.ibufDraw := rfl
@[simp] theorem State.setStatus_obufDraw : (s.setStatus v).obufDraw = s.obufDraw := rfl
@[simp] theorem State.setStatus_nodeDraw : (s.setStatus v).nodeDraw = s.nodeDraw := rfl
@[simp] theorem State.setStatus_script : (s.setStatus v).script = s.script := rfl
@[simp] theorem State.setStatus_reply : (s.setStatus v).reply = s.reply := rfl

end

/-! ### setWindow -/

section
variable (o : Word) (n : Word)

@[simp] theorem State.setWindow_status : (s.setWindow o n).status = s.status := rfl
@[simp] theorem State.setWindow_srcOff : (s.setWindow o n).srcOff = o := rfl
@[simp] theorem State.setWindow_srcLen : (s.setWindow o n).srcLen = n := rfl
@[simp] theorem State.setWindow_olen : (s.setWindow o n).olen = s.olen := rfl
@[simp] theorem State.setWindow_treeOff : (s.setWindow o n).treeOff = s.treeOff := rfl
@[simp] theorem State.setWindow_treeLen : (s.setWindow o n).treeLen = s.treeLen := rfl
@[simp] theorem State.setWindow_payOff : (s.setWindow o n).payOff = s.payOff := rfl
@[simp] theorem State.setWindow_payLen : (s.setWindow o n).payLen = s.payLen := rfl
@[simp] theorem State.setWindow_bitOff : (s.setWindow o n).bitOff = s.bitOff := rfl
@[simp] theorem State.setWindow_dataLen : (s.setWindow o n).dataLen = s.dataLen := rfl
@[simp] theorem State.setWindow_pad : (s.setWindow o n).pad = s.pad := rfl
@[simp] theorem State.setWindow_k : (s.setWindow o n).k = s.k := rfl
@[simp] theorem State.setWindow_nnodes : (s.setWindow o n).nnodes = s.nnodes := rfl
@[simp] theorem State.setWindow_root : (s.setWindow o n).root = s.root := rfl
@[simp] theorem State.setWindow_ibufSize : (s.setWindow o n).ibufSize = s.ibufSize := rfl
@[simp] theorem State.setWindow_obufSize : (s.setWindow o n).obufSize = s.obufSize := rfl
@[simp] theorem State.setWindow_tblSel : (s.setWindow o n).tblSel = s.tblSel := rfl
@[simp] theorem State.setWindow_tblIdx : (s.setWindow o n).tblIdx = s.tblIdx := rfl
@[simp] theorem State.setWindow_freq : (s.setWindow o n).freq = s.freq := rfl
@[simp] theorem State.setWindow_seq : (s.setWindow o n).seq = s.seq := rfl
@[simp] theorem State.setWindow_node : (s.setWindow o n).node = s.node := rfl
@[simp] theorem State.setWindow_clen : (s.setWindow o n).clen = s.clen := rfl
@[simp] theorem State.setWindow_cbits : (s.setWindow o n).cbits = s.cbits := rfl
@[simp] theorem State.setWindow_ibuf : (s.setWindow o n).ibuf = s.ibuf := rfl
@[simp] theorem State.setWindow_obuf : (s.setWindow o n).obuf = s.obuf := rfl
@[simp] theorem State.setWindow_ibufDraw : (s.setWindow o n).ibufDraw = s.ibufDraw := rfl
@[simp] theorem State.setWindow_obufDraw : (s.setWindow o n).obufDraw = s.obufDraw := rfl
@[simp] theorem State.setWindow_nodeDraw : (s.setWindow o n).nodeDraw = s.nodeDraw := rfl
@[simp] theorem State.setWindow_script : (s.setWindow o n).script = s.script := rfl
@[simp] theorem State.setWindow_reply : (s.setWindow o n).reply = s.reply := rfl

end

/-! ### setOlen -/

section
variable (v : Word)

@[simp] theorem State.setOlen_status : (s.setOlen v).status = s.status := rfl
@[simp] theorem State.setOlen_srcOff : (s.setOlen v).srcOff = s.srcOff := rfl
@[simp] theorem State.setOlen_srcLen : (s.setOlen v).srcLen = s.srcLen := rfl
@[simp] theorem State.setOlen_olen : (s.setOlen v).olen = v := rfl
@[simp] theorem State.setOlen_treeOff : (s.setOlen v).treeOff = s.treeOff := rfl
@[simp] theorem State.setOlen_treeLen : (s.setOlen v).treeLen = s.treeLen := rfl
@[simp] theorem State.setOlen_payOff : (s.setOlen v).payOff = s.payOff := rfl
@[simp] theorem State.setOlen_payLen : (s.setOlen v).payLen = s.payLen := rfl
@[simp] theorem State.setOlen_bitOff : (s.setOlen v).bitOff = s.bitOff := rfl
@[simp] theorem State.setOlen_dataLen : (s.setOlen v).dataLen = s.dataLen := rfl
@[simp] theorem State.setOlen_pad : (s.setOlen v).pad = s.pad := rfl
@[simp] theorem State.setOlen_k : (s.setOlen v).k = s.k := rfl
@[simp] theorem State.setOlen_nnodes : (s.setOlen v).nnodes = s.nnodes := rfl
@[simp] theorem State.setOlen_root : (s.setOlen v).root = s.root := rfl
@[simp] theorem State.setOlen_ibufSize : (s.setOlen v).ibufSize = s.ibufSize := rfl
@[simp] theorem State.setOlen_obufSize : (s.setOlen v).obufSize = s.obufSize := rfl
@[simp] theorem State.setOlen_tblSel : (s.setOlen v).tblSel = s.tblSel := rfl
@[simp] theorem State.setOlen_tblIdx : (s.setOlen v).tblIdx = s.tblIdx := rfl
@[simp] theorem State.setOlen_freq : (s.setOlen v).freq = s.freq := rfl
@[simp] theorem State.setOlen_seq : (s.setOlen v).seq = s.seq := rfl
@[simp] theorem State.setOlen_node : (s.setOlen v).node = s.node := rfl
@[simp] theorem State.setOlen_clen : (s.setOlen v).clen = s.clen := rfl
@[simp] theorem State.setOlen_cbits : (s.setOlen v).cbits = s.cbits := rfl
@[simp] theorem State.setOlen_ibuf : (s.setOlen v).ibuf = s.ibuf := rfl
@[simp] theorem State.setOlen_obuf : (s.setOlen v).obuf = s.obuf := rfl
@[simp] theorem State.setOlen_ibufDraw : (s.setOlen v).ibufDraw = s.ibufDraw := rfl
@[simp] theorem State.setOlen_obufDraw : (s.setOlen v).obufDraw = s.obufDraw := rfl
@[simp] theorem State.setOlen_nodeDraw : (s.setOlen v).nodeDraw = s.nodeDraw := rfl
@[simp] theorem State.setOlen_script : (s.setOlen v).script = s.script := rfl
@[simp] theorem State.setOlen_reply : (s.setOlen v).reply = s.reply := rfl

end

/-! ### setParse -/

section
variable (a : Word) (b : Word) (c : Word) (d : Word)

@[simp] theorem State.setParse_status : (s.setParse a b c d).status = s.status := rfl
@[simp] theorem State.setParse_srcOff : (s.setParse a b c d).srcOff = s.srcOff := rfl
@[simp] theorem State.setParse_srcLen : (s.setParse a b c d).srcLen = s.srcLen := rfl
@[simp] theorem State.setParse_olen : (s.setParse a b c d).olen = s.olen := rfl
@[simp] theorem State.setParse_treeOff : (s.setParse a b c d).treeOff = a := rfl
@[simp] theorem State.setParse_treeLen : (s.setParse a b c d).treeLen = b := rfl
@[simp] theorem State.setParse_payOff : (s.setParse a b c d).payOff = c := rfl
@[simp] theorem State.setParse_payLen : (s.setParse a b c d).payLen = d := rfl
@[simp] theorem State.setParse_bitOff : (s.setParse a b c d).bitOff = s.bitOff := rfl
@[simp] theorem State.setParse_dataLen : (s.setParse a b c d).dataLen = s.dataLen := rfl
@[simp] theorem State.setParse_pad : (s.setParse a b c d).pad = s.pad := rfl
@[simp] theorem State.setParse_k : (s.setParse a b c d).k = s.k := rfl
@[simp] theorem State.setParse_nnodes : (s.setParse a b c d).nnodes = s.nnodes := rfl
@[simp] theorem State.setParse_root : (s.setParse a b c d).root = s.root := rfl
@[simp] theorem State.setParse_ibufSize : (s.setParse a b c d).ibufSize = s.ibufSize := rfl
@[simp] theorem State.setParse_obufSize : (s.setParse a b c d).obufSize = s.obufSize := rfl
@[simp] theorem State.setParse_tblSel : (s.setParse a b c d).tblSel = s.tblSel := rfl
@[simp] theorem State.setParse_tblIdx : (s.setParse a b c d).tblIdx = s.tblIdx := rfl
@[simp] theorem State.setParse_freq : (s.setParse a b c d).freq = s.freq := rfl
@[simp] theorem State.setParse_seq : (s.setParse a b c d).seq = s.seq := rfl
@[simp] theorem State.setParse_node : (s.setParse a b c d).node = s.node := rfl
@[simp] theorem State.setParse_clen : (s.setParse a b c d).clen = s.clen := rfl
@[simp] theorem State.setParse_cbits : (s.setParse a b c d).cbits = s.cbits := rfl
@[simp] theorem State.setParse_ibuf : (s.setParse a b c d).ibuf = s.ibuf := rfl
@[simp] theorem State.setParse_obuf : (s.setParse a b c d).obuf = s.obuf := rfl
@[simp] theorem State.setParse_ibufDraw : (s.setParse a b c d).ibufDraw = s.ibufDraw := rfl
@[simp] theorem State.setParse_obufDraw : (s.setParse a b c d).obufDraw = s.obufDraw := rfl
@[simp] theorem State.setParse_nodeDraw : (s.setParse a b c d).nodeDraw = s.nodeDraw := rfl
@[simp] theorem State.setParse_script : (s.setParse a b c d).script = s.script := rfl
@[simp] theorem State.setParse_reply : (s.setParse a b c d).reply = s.reply := rfl

end

/-! ### setView -/

section
variable (o : Word) (n : Word) (p : BitVec 3)

@[simp] theorem State.setView_status : (s.setView o n p).status = s.status := rfl
@[simp] theorem State.setView_srcOff : (s.setView o n p).srcOff = s.srcOff := rfl
@[simp] theorem State.setView_srcLen : (s.setView o n p).srcLen = s.srcLen := rfl
@[simp] theorem State.setView_olen : (s.setView o n p).olen = s.olen := rfl
@[simp] theorem State.setView_treeOff : (s.setView o n p).treeOff = s.treeOff := rfl
@[simp] theorem State.setView_treeLen : (s.setView o n p).treeLen = s.treeLen := rfl
@[simp] theorem State.setView_payOff : (s.setView o n p).payOff = s.payOff := rfl
@[simp] theorem State.setView_payLen : (s.setView o n p).payLen = s.payLen := rfl
@[simp] theorem State.setView_bitOff : (s.setView o n p).bitOff = o := rfl
@[simp] theorem State.setView_dataLen : (s.setView o n p).dataLen = n := rfl
@[simp] theorem State.setView_pad : (s.setView o n p).pad = p := rfl
@[simp] theorem State.setView_k : (s.setView o n p).k = s.k := rfl
@[simp] theorem State.setView_nnodes : (s.setView o n p).nnodes = s.nnodes := rfl
@[simp] theorem State.setView_root : (s.setView o n p).root = s.root := rfl
@[simp] theorem State.setView_ibufSize : (s.setView o n p).ibufSize = s.ibufSize := rfl
@[simp] theorem State.setView_obufSize : (s.setView o n p).obufSize = s.obufSize := rfl
@[simp] theorem State.setView_tblSel : (s.setView o n p).tblSel = s.tblSel := rfl
@[simp] theorem State.setView_tblIdx : (s.setView o n p).tblIdx = s.tblIdx := rfl
@[simp] theorem State.setView_freq : (s.setView o n p).freq = s.freq := rfl
@[simp] theorem State.setView_seq : (s.setView o n p).seq = s.seq := rfl
@[simp] theorem State.setView_node : (s.setView o n p).node = s.node := rfl
@[simp] theorem State.setView_clen : (s.setView o n p).clen = s.clen := rfl
@[simp] theorem State.setView_cbits : (s.setView o n p).cbits = s.cbits := rfl
@[simp] theorem State.setView_ibuf : (s.setView o n p).ibuf = s.ibuf := rfl
@[simp] theorem State.setView_obuf : (s.setView o n p).obuf = s.obuf := rfl
@[simp] theorem State.setView_ibufDraw : (s.setView o n p).ibufDraw = s.ibufDraw := rfl
@[simp] theorem State.setView_obufDraw : (s.setView o n p).obufDraw = s.obufDraw := rfl
@[simp] theorem State.setView_nodeDraw : (s.setView o n p).nodeDraw = s.nodeDraw := rfl
@[simp] theorem State.setView_script : (s.setView o n p).script = s.script := rfl
@[simp] theorem State.setView_reply : (s.setView o n p).reply = s.reply := rfl

end

/-! ### setCount -/

section
variable (f : Vector Word 256) (q : Vector Byte 256) (n : BitVec 9)

@[simp] theorem State.setCount_status : (s.setCount f q n).status = s.status := rfl
@[simp] theorem State.setCount_srcOff : (s.setCount f q n).srcOff = s.srcOff := rfl
@[simp] theorem State.setCount_srcLen : (s.setCount f q n).srcLen = s.srcLen := rfl
@[simp] theorem State.setCount_olen : (s.setCount f q n).olen = s.olen := rfl
@[simp] theorem State.setCount_treeOff : (s.setCount f q n).treeOff = s.treeOff := rfl
@[simp] theorem State.setCount_treeLen : (s.setCount f q n).treeLen = s.treeLen := rfl
@[simp] theorem State.setCount_payOff : (s.setCount f q n).payOff = s.payOff := rfl
@[simp] theorem State.setCount_payLen : (s.setCount f q n).payLen = s.payLen := rfl
@[simp] theorem State.setCount_bitOff : (s.setCount f q n).bitOff = s.bitOff := rfl
@[simp] theorem State.setCount_dataLen : (s.setCount f q n).dataLen = s.dataLen := rfl
@[simp] theorem State.setCount_pad : (s.setCount f q n).pad = s.pad := rfl
@[simp] theorem State.setCount_k : (s.setCount f q n).k = n := rfl
@[simp] theorem State.setCount_nnodes : (s.setCount f q n).nnodes = s.nnodes := rfl
@[simp] theorem State.setCount_root : (s.setCount f q n).root = s.root := rfl
@[simp] theorem State.setCount_ibufSize : (s.setCount f q n).ibufSize = s.ibufSize := rfl
@[simp] theorem State.setCount_obufSize : (s.setCount f q n).obufSize = s.obufSize := rfl
@[simp] theorem State.setCount_tblSel : (s.setCount f q n).tblSel = s.tblSel := rfl
@[simp] theorem State.setCount_tblIdx : (s.setCount f q n).tblIdx = s.tblIdx := rfl
@[simp] theorem State.setCount_freq : (s.setCount f q n).freq = f := rfl
@[simp] theorem State.setCount_seq : (s.setCount f q n).seq = q := rfl
@[simp] theorem State.setCount_node : (s.setCount f q n).node = s.node := rfl
@[simp] theorem State.setCount_clen : (s.setCount f q n).clen = s.clen := rfl
@[simp] theorem State.setCount_cbits : (s.setCount f q n).cbits = s.cbits := rfl
@[simp] theorem State.setCount_ibuf : (s.setCount f q n).ibuf = s.ibuf := rfl
@[simp] theorem State.setCount_obuf : (s.setCount f q n).obuf = s.obuf := rfl
@[simp] theorem State.setCount_ibufDraw : (s.setCount f q n).ibufDraw = s.ibufDraw := rfl
@[simp] theorem State.setCount_obufDraw : (s.setCount f q n).obufDraw = s.obufDraw := rfl
@[simp] theorem State.setCount_nodeDraw : (s.setCount f q n).nodeDraw = s.nodeDraw := rfl
@[simp] theorem State.setCount_script : (s.setCount f q n).script = s.script := rfl
@[simp] theorem State.setCount_reply : (s.setCount f q n).reply = s.reply := rfl

end

/-! ### setTree -/

section
variable (v : Vector Node 511) (n : BitVec 9) (r : BitVec 9)

@[simp] theorem State.setTree_status : (s.setTree v n r).status = s.status := rfl
@[simp] theorem State.setTree_srcOff : (s.setTree v n r).srcOff = s.srcOff := rfl
@[simp] theorem State.setTree_srcLen : (s.setTree v n r).srcLen = s.srcLen := rfl
@[simp] theorem State.setTree_olen : (s.setTree v n r).olen = s.olen := rfl
@[simp] theorem State.setTree_treeOff : (s.setTree v n r).treeOff = s.treeOff := rfl
@[simp] theorem State.setTree_treeLen : (s.setTree v n r).treeLen = s.treeLen := rfl
@[simp] theorem State.setTree_payOff : (s.setTree v n r).payOff = s.payOff := rfl
@[simp] theorem State.setTree_payLen : (s.setTree v n r).payLen = s.payLen := rfl
@[simp] theorem State.setTree_bitOff : (s.setTree v n r).bitOff = s.bitOff := rfl
@[simp] theorem State.setTree_dataLen : (s.setTree v n r).dataLen = s.dataLen := rfl
@[simp] theorem State.setTree_pad : (s.setTree v n r).pad = s.pad := rfl
@[simp] theorem State.setTree_k : (s.setTree v n r).k = s.k := rfl
@[simp] theorem State.setTree_nnodes : (s.setTree v n r).nnodes = n := rfl
@[simp] theorem State.setTree_root : (s.setTree v n r).root = r := rfl
@[simp] theorem State.setTree_ibufSize : (s.setTree v n r).ibufSize = s.ibufSize := rfl
@[simp] theorem State.setTree_obufSize : (s.setTree v n r).obufSize = s.obufSize := rfl
@[simp] theorem State.setTree_tblSel : (s.setTree v n r).tblSel = s.tblSel := rfl
@[simp] theorem State.setTree_tblIdx : (s.setTree v n r).tblIdx = s.tblIdx := rfl
@[simp] theorem State.setTree_freq : (s.setTree v n r).freq = s.freq := rfl
@[simp] theorem State.setTree_seq : (s.setTree v n r).seq = s.seq := rfl
@[simp] theorem State.setTree_node : (s.setTree v n r).node = v := rfl
@[simp] theorem State.setTree_clen : (s.setTree v n r).clen = s.clen := rfl
@[simp] theorem State.setTree_cbits : (s.setTree v n r).cbits = s.cbits := rfl
@[simp] theorem State.setTree_ibuf : (s.setTree v n r).ibuf = s.ibuf := rfl
@[simp] theorem State.setTree_obuf : (s.setTree v n r).obuf = s.obuf := rfl
@[simp] theorem State.setTree_ibufDraw : (s.setTree v n r).ibufDraw = s.ibufDraw := rfl
@[simp] theorem State.setTree_obufDraw : (s.setTree v n r).obufDraw = s.obufDraw := rfl
@[simp] theorem State.setTree_nodeDraw : (s.setTree v n r).nodeDraw = s.nodeDraw := rfl
@[simp] theorem State.setTree_script : (s.setTree v n r).script = s.script := rfl
@[simp] theorem State.setTree_reply : (s.setTree v n r).reply = s.reply := rfl

end

/-! ### setNodeDraw -/

section
variable (d : Nat)

@[simp] theorem State.setNodeDraw_status : (s.setNodeDraw d).status = s.status := rfl
@[simp] theorem State.setNodeDraw_srcOff : (s.setNodeDraw d).srcOff = s.srcOff := rfl
@[simp] theorem State.setNodeDraw_srcLen : (s.setNodeDraw d).srcLen = s.srcLen := rfl
@[simp] theorem State.setNodeDraw_olen : (s.setNodeDraw d).olen = s.olen := rfl
@[simp] theorem State.setNodeDraw_treeOff : (s.setNodeDraw d).treeOff = s.treeOff := rfl
@[simp] theorem State.setNodeDraw_treeLen : (s.setNodeDraw d).treeLen = s.treeLen := rfl
@[simp] theorem State.setNodeDraw_payOff : (s.setNodeDraw d).payOff = s.payOff := rfl
@[simp] theorem State.setNodeDraw_payLen : (s.setNodeDraw d).payLen = s.payLen := rfl
@[simp] theorem State.setNodeDraw_bitOff : (s.setNodeDraw d).bitOff = s.bitOff := rfl
@[simp] theorem State.setNodeDraw_dataLen : (s.setNodeDraw d).dataLen = s.dataLen := rfl
@[simp] theorem State.setNodeDraw_pad : (s.setNodeDraw d).pad = s.pad := rfl
@[simp] theorem State.setNodeDraw_k : (s.setNodeDraw d).k = s.k := rfl
@[simp] theorem State.setNodeDraw_nnodes : (s.setNodeDraw d).nnodes = s.nnodes := rfl
@[simp] theorem State.setNodeDraw_root : (s.setNodeDraw d).root = s.root := rfl
@[simp] theorem State.setNodeDraw_ibufSize : (s.setNodeDraw d).ibufSize = s.ibufSize := rfl
@[simp] theorem State.setNodeDraw_obufSize : (s.setNodeDraw d).obufSize = s.obufSize := rfl
@[simp] theorem State.setNodeDraw_tblSel : (s.setNodeDraw d).tblSel = s.tblSel := rfl
@[simp] theorem State.setNodeDraw_tblIdx : (s.setNodeDraw d).tblIdx = s.tblIdx := rfl
@[simp] theorem State.setNodeDraw_freq : (s.setNodeDraw d).freq = s.freq := rfl
@[simp] theorem State.setNodeDraw_seq : (s.setNodeDraw d).seq = s.seq := rfl
@[simp] theorem State.setNodeDraw_node : (s.setNodeDraw d).node = s.node := rfl
@[simp] theorem State.setNodeDraw_clen : (s.setNodeDraw d).clen = s.clen := rfl
@[simp] theorem State.setNodeDraw_cbits : (s.setNodeDraw d).cbits = s.cbits := rfl
@[simp] theorem State.setNodeDraw_ibuf : (s.setNodeDraw d).ibuf = s.ibuf := rfl
@[simp] theorem State.setNodeDraw_obuf : (s.setNodeDraw d).obuf = s.obuf := rfl
@[simp] theorem State.setNodeDraw_ibufDraw : (s.setNodeDraw d).ibufDraw = s.ibufDraw := rfl
@[simp] theorem State.setNodeDraw_obufDraw : (s.setNodeDraw d).obufDraw = s.obufDraw := rfl
@[simp] theorem State.setNodeDraw_nodeDraw : (s.setNodeDraw d).nodeDraw = d := rfl
@[simp] theorem State.setNodeDraw_script : (s.setNodeDraw d).script = s.script := rfl
@[simp] theorem State.setNodeDraw_reply : (s.setNodeDraw d).reply = s.reply := rfl

end

/-! ### setCodes -/

section
variable (c : Vector Byte 256) (b : Vector (BitVec 256) 256)

@[simp] theorem State.setCodes_status : (s.setCodes c b).status = s.status := rfl
@[simp] theorem State.setCodes_srcOff : (s.setCodes c b).srcOff = s.srcOff := rfl
@[simp] theorem State.setCodes_srcLen : (s.setCodes c b).srcLen = s.srcLen := rfl
@[simp] theorem State.setCodes_olen : (s.setCodes c b).olen = s.olen := rfl
@[simp] theorem State.setCodes_treeOff : (s.setCodes c b).treeOff = s.treeOff := rfl
@[simp] theorem State.setCodes_treeLen : (s.setCodes c b).treeLen = s.treeLen := rfl
@[simp] theorem State.setCodes_payOff : (s.setCodes c b).payOff = s.payOff := rfl
@[simp] theorem State.setCodes_payLen : (s.setCodes c b).payLen = s.payLen := rfl
@[simp] theorem State.setCodes_bitOff : (s.setCodes c b).bitOff = s.bitOff := rfl
@[simp] theorem State.setCodes_dataLen : (s.setCodes c b).dataLen = s.dataLen := rfl
@[simp] theorem State.setCodes_pad : (s.setCodes c b).pad = s.pad := rfl
@[simp] theorem State.setCodes_k : (s.setCodes c b).k = s.k := rfl
@[simp] theorem State.setCodes_nnodes : (s.setCodes c b).nnodes = s.nnodes := rfl
@[simp] theorem State.setCodes_root : (s.setCodes c b).root = s.root := rfl
@[simp] theorem State.setCodes_ibufSize : (s.setCodes c b).ibufSize = s.ibufSize := rfl
@[simp] theorem State.setCodes_obufSize : (s.setCodes c b).obufSize = s.obufSize := rfl
@[simp] theorem State.setCodes_tblSel : (s.setCodes c b).tblSel = s.tblSel := rfl
@[simp] theorem State.setCodes_tblIdx : (s.setCodes c b).tblIdx = s.tblIdx := rfl
@[simp] theorem State.setCodes_freq : (s.setCodes c b).freq = s.freq := rfl
@[simp] theorem State.setCodes_seq : (s.setCodes c b).seq = s.seq := rfl
@[simp] theorem State.setCodes_node : (s.setCodes c b).node = s.node := rfl
@[simp] theorem State.setCodes_clen : (s.setCodes c b).clen = c := rfl
@[simp] theorem State.setCodes_cbits : (s.setCodes c b).cbits = b := rfl
@[simp] theorem State.setCodes_ibuf : (s.setCodes c b).ibuf = s.ibuf := rfl
@[simp] theorem State.setCodes_obuf : (s.setCodes c b).obuf = s.obuf := rfl
@[simp] theorem State.setCodes_ibufDraw : (s.setCodes c b).ibufDraw = s.ibufDraw := rfl
@[simp] theorem State.setCodes_obufDraw : (s.setCodes c b).obufDraw = s.obufDraw := rfl
@[simp] theorem State.setCodes_nodeDraw : (s.setCodes c b).nodeDraw = s.nodeDraw := rfl
@[simp] theorem State.setCodes_script : (s.setCodes c b).script = s.script := rfl
@[simp] theorem State.setCodes_reply : (s.setCodes c b).reply = s.reply := rfl

end

/-! ### setPort -/

section
variable (e : BitVec 3) (x : BitVec 11)

@[simp] theorem State.setPort_status : (s.setPort e x).status = s.status := rfl
@[simp] theorem State.setPort_srcOff : (s.setPort e x).srcOff = s.srcOff := rfl
@[simp] theorem State.setPort_srcLen : (s.setPort e x).srcLen = s.srcLen := rfl
@[simp] theorem State.setPort_olen : (s.setPort e x).olen = s.olen := rfl
@[simp] theorem State.setPort_treeOff : (s.setPort e x).treeOff = s.treeOff := rfl
@[simp] theorem State.setPort_treeLen : (s.setPort e x).treeLen = s.treeLen := rfl
@[simp] theorem State.setPort_payOff : (s.setPort e x).payOff = s.payOff := rfl
@[simp] theorem State.setPort_payLen : (s.setPort e x).payLen = s.payLen := rfl
@[simp] theorem State.setPort_bitOff : (s.setPort e x).bitOff = s.bitOff := rfl
@[simp] theorem State.setPort_dataLen : (s.setPort e x).dataLen = s.dataLen := rfl
@[simp] theorem State.setPort_pad : (s.setPort e x).pad = s.pad := rfl
@[simp] theorem State.setPort_k : (s.setPort e x).k = s.k := rfl
@[simp] theorem State.setPort_nnodes : (s.setPort e x).nnodes = s.nnodes := rfl
@[simp] theorem State.setPort_root : (s.setPort e x).root = s.root := rfl
@[simp] theorem State.setPort_ibufSize : (s.setPort e x).ibufSize = s.ibufSize := rfl
@[simp] theorem State.setPort_obufSize : (s.setPort e x).obufSize = s.obufSize := rfl
@[simp] theorem State.setPort_tblSel : (s.setPort e x).tblSel = e := rfl
@[simp] theorem State.setPort_tblIdx : (s.setPort e x).tblIdx = x := rfl
@[simp] theorem State.setPort_freq : (s.setPort e x).freq = s.freq := rfl
@[simp] theorem State.setPort_seq : (s.setPort e x).seq = s.seq := rfl
@[simp] theorem State.setPort_node : (s.setPort e x).node = s.node := rfl
@[simp] theorem State.setPort_clen : (s.setPort e x).clen = s.clen := rfl
@[simp] theorem State.setPort_cbits : (s.setPort e x).cbits = s.cbits := rfl
@[simp] theorem State.setPort_ibuf : (s.setPort e x).ibuf = s.ibuf := rfl
@[simp] theorem State.setPort_obuf : (s.setPort e x).obuf = s.obuf := rfl
@[simp] theorem State.setPort_ibufDraw : (s.setPort e x).ibufDraw = s.ibufDraw := rfl
@[simp] theorem State.setPort_obufDraw : (s.setPort e x).obufDraw = s.obufDraw := rfl
@[simp] theorem State.setPort_nodeDraw : (s.setPort e x).nodeDraw = s.nodeDraw := rfl
@[simp] theorem State.setPort_script : (s.setPort e x).script = s.script := rfl
@[simp] theorem State.setPort_reply : (s.setPort e x).reply = s.reply := rfl

end

/-! ### setIbuf -/

section
variable (m : List Host.Cell)

@[simp] theorem State.setIbuf_status : (s.setIbuf m).status = s.status := rfl
@[simp] theorem State.setIbuf_srcOff : (s.setIbuf m).srcOff = s.srcOff := rfl
@[simp] theorem State.setIbuf_srcLen : (s.setIbuf m).srcLen = s.srcLen := rfl
@[simp] theorem State.setIbuf_olen : (s.setIbuf m).olen = s.olen := rfl
@[simp] theorem State.setIbuf_treeOff : (s.setIbuf m).treeOff = s.treeOff := rfl
@[simp] theorem State.setIbuf_treeLen : (s.setIbuf m).treeLen = s.treeLen := rfl
@[simp] theorem State.setIbuf_payOff : (s.setIbuf m).payOff = s.payOff := rfl
@[simp] theorem State.setIbuf_payLen : (s.setIbuf m).payLen = s.payLen := rfl
@[simp] theorem State.setIbuf_bitOff : (s.setIbuf m).bitOff = s.bitOff := rfl
@[simp] theorem State.setIbuf_dataLen : (s.setIbuf m).dataLen = s.dataLen := rfl
@[simp] theorem State.setIbuf_pad : (s.setIbuf m).pad = s.pad := rfl
@[simp] theorem State.setIbuf_k : (s.setIbuf m).k = s.k := rfl
@[simp] theorem State.setIbuf_nnodes : (s.setIbuf m).nnodes = s.nnodes := rfl
@[simp] theorem State.setIbuf_root : (s.setIbuf m).root = s.root := rfl
@[simp] theorem State.setIbuf_ibufSize : (s.setIbuf m).ibufSize = s.ibufSize := rfl
@[simp] theorem State.setIbuf_obufSize : (s.setIbuf m).obufSize = s.obufSize := rfl
@[simp] theorem State.setIbuf_tblSel : (s.setIbuf m).tblSel = s.tblSel := rfl
@[simp] theorem State.setIbuf_tblIdx : (s.setIbuf m).tblIdx = s.tblIdx := rfl
@[simp] theorem State.setIbuf_freq : (s.setIbuf m).freq = s.freq := rfl
@[simp] theorem State.setIbuf_seq : (s.setIbuf m).seq = s.seq := rfl
@[simp] theorem State.setIbuf_node : (s.setIbuf m).node = s.node := rfl
@[simp] theorem State.setIbuf_clen : (s.setIbuf m).clen = s.clen := rfl
@[simp] theorem State.setIbuf_cbits : (s.setIbuf m).cbits = s.cbits := rfl
@[simp] theorem State.setIbuf_ibuf : (s.setIbuf m).ibuf = m := rfl
@[simp] theorem State.setIbuf_obuf : (s.setIbuf m).obuf = s.obuf := rfl
@[simp] theorem State.setIbuf_ibufDraw : (s.setIbuf m).ibufDraw = s.ibufDraw := rfl
@[simp] theorem State.setIbuf_obufDraw : (s.setIbuf m).obufDraw = s.obufDraw := rfl
@[simp] theorem State.setIbuf_nodeDraw : (s.setIbuf m).nodeDraw = s.nodeDraw := rfl
@[simp] theorem State.setIbuf_script : (s.setIbuf m).script = s.script := rfl
@[simp] theorem State.setIbuf_reply : (s.setIbuf m).reply = s.reply := rfl

end

/-! ### setObuf -/

section
variable (m : List Host.Cell) (d : Nat)

@[simp] theorem State.setObuf_status : (s.setObuf m d).status = s.status := rfl
@[simp] theorem State.setObuf_srcOff : (s.setObuf m d).srcOff = s.srcOff := rfl
@[simp] theorem State.setObuf_srcLen : (s.setObuf m d).srcLen = s.srcLen := rfl
@[simp] theorem State.setObuf_olen : (s.setObuf m d).olen = s.olen := rfl
@[simp] theorem State.setObuf_treeOff : (s.setObuf m d).treeOff = s.treeOff := rfl
@[simp] theorem State.setObuf_treeLen : (s.setObuf m d).treeLen = s.treeLen := rfl
@[simp] theorem State.setObuf_payOff : (s.setObuf m d).payOff = s.payOff := rfl
@[simp] theorem State.setObuf_payLen : (s.setObuf m d).payLen = s.payLen := rfl
@[simp] theorem State.setObuf_bitOff : (s.setObuf m d).bitOff = s.bitOff := rfl
@[simp] theorem State.setObuf_dataLen : (s.setObuf m d).dataLen = s.dataLen := rfl
@[simp] theorem State.setObuf_pad : (s.setObuf m d).pad = s.pad := rfl
@[simp] theorem State.setObuf_k : (s.setObuf m d).k = s.k := rfl
@[simp] theorem State.setObuf_nnodes : (s.setObuf m d).nnodes = s.nnodes := rfl
@[simp] theorem State.setObuf_root : (s.setObuf m d).root = s.root := rfl
@[simp] theorem State.setObuf_ibufSize : (s.setObuf m d).ibufSize = s.ibufSize := rfl
@[simp] theorem State.setObuf_obufSize : (s.setObuf m d).obufSize = s.obufSize := rfl
@[simp] theorem State.setObuf_tblSel : (s.setObuf m d).tblSel = s.tblSel := rfl
@[simp] theorem State.setObuf_tblIdx : (s.setObuf m d).tblIdx = s.tblIdx := rfl
@[simp] theorem State.setObuf_freq : (s.setObuf m d).freq = s.freq := rfl
@[simp] theorem State.setObuf_seq : (s.setObuf m d).seq = s.seq := rfl
@[simp] theorem State.setObuf_node : (s.setObuf m d).node = s.node := rfl
@[simp] theorem State.setObuf_clen : (s.setObuf m d).clen = s.clen := rfl
@[simp] theorem State.setObuf_cbits : (s.setObuf m d).cbits = s.cbits := rfl
@[simp] theorem State.setObuf_ibuf : (s.setObuf m d).ibuf = s.ibuf := rfl
@[simp] theorem State.setObuf_obuf : (s.setObuf m d).obuf = m := rfl
@[simp] theorem State.setObuf_ibufDraw : (s.setObuf m d).ibufDraw = s.ibufDraw := rfl
@[simp] theorem State.setObuf_obufDraw : (s.setObuf m d).obufDraw = d := rfl
@[simp] theorem State.setObuf_nodeDraw : (s.setObuf m d).nodeDraw = s.nodeDraw := rfl
@[simp] theorem State.setObuf_script : (s.setObuf m d).script = s.script := rfl
@[simp] theorem State.setObuf_reply : (s.setObuf m d).reply = s.reply := rfl

end

/-! ### setScript -/

section
variable (ts : List HostTxn)

@[simp] theorem State.setScript_status : (s.setScript ts).status = s.status := rfl
@[simp] theorem State.setScript_srcOff : (s.setScript ts).srcOff = s.srcOff := rfl
@[simp] theorem State.setScript_srcLen : (s.setScript ts).srcLen = s.srcLen := rfl
@[simp] theorem State.setScript_olen : (s.setScript ts).olen = s.olen := rfl
@[simp] theorem State.setScript_treeOff : (s.setScript ts).treeOff = s.treeOff := rfl
@[simp] theorem State.setScript_treeLen : (s.setScript ts).treeLen = s.treeLen := rfl
@[simp] theorem State.setScript_payOff : (s.setScript ts).payOff = s.payOff := rfl
@[simp] theorem State.setScript_payLen : (s.setScript ts).payLen = s.payLen := rfl
@[simp] theorem State.setScript_bitOff : (s.setScript ts).bitOff = s.bitOff := rfl
@[simp] theorem State.setScript_dataLen : (s.setScript ts).dataLen = s.dataLen := rfl
@[simp] theorem State.setScript_pad : (s.setScript ts).pad = s.pad := rfl
@[simp] theorem State.setScript_k : (s.setScript ts).k = s.k := rfl
@[simp] theorem State.setScript_nnodes : (s.setScript ts).nnodes = s.nnodes := rfl
@[simp] theorem State.setScript_root : (s.setScript ts).root = s.root := rfl
@[simp] theorem State.setScript_ibufSize : (s.setScript ts).ibufSize = s.ibufSize := rfl
@[simp] theorem State.setScript_obufSize : (s.setScript ts).obufSize = s.obufSize := rfl
@[simp] theorem State.setScript_tblSel : (s.setScript ts).tblSel = s.tblSel := rfl
@[simp] theorem State.setScript_tblIdx : (s.setScript ts).tblIdx = s.tblIdx := rfl
@[simp] theorem State.setScript_freq : (s.setScript ts).freq = s.freq := rfl
@[simp] theorem State.setScript_seq : (s.setScript ts).seq = s.seq := rfl
@[simp] theorem State.setScript_node : (s.setScript ts).node = s.node := rfl
@[simp] theorem State.setScript_clen : (s.setScript ts).clen = s.clen := rfl
@[simp] theorem State.setScript_cbits : (s.setScript ts).cbits = s.cbits := rfl
@[simp] theorem State.setScript_ibuf : (s.setScript ts).ibuf = s.ibuf := rfl
@[simp] theorem State.setScript_obuf : (s.setScript ts).obuf = s.obuf := rfl
@[simp] theorem State.setScript_ibufDraw : (s.setScript ts).ibufDraw = s.ibufDraw := rfl
@[simp] theorem State.setScript_obufDraw : (s.setScript ts).obufDraw = s.obufDraw := rfl
@[simp] theorem State.setScript_nodeDraw : (s.setScript ts).nodeDraw = s.nodeDraw := rfl
@[simp] theorem State.setScript_script : (s.setScript ts).script = ts := rfl
@[simp] theorem State.setScript_reply : (s.setScript ts).reply = s.reply := rfl

end

/-! ### setReply -/

section
variable (r : HostReply)

@[simp] theorem State.setReply_status : (s.setReply r).status = s.status := rfl
@[simp] theorem State.setReply_srcOff : (s.setReply r).srcOff = s.srcOff := rfl
@[simp] theorem State.setReply_srcLen : (s.setReply r).srcLen = s.srcLen := rfl
@[simp] theorem State.setReply_olen : (s.setReply r).olen = s.olen := rfl
@[simp] theorem State.setReply_treeOff : (s.setReply r).treeOff = s.treeOff := rfl
@[simp] theorem State.setReply_treeLen : (s.setReply r).treeLen = s.treeLen := rfl
@[simp] theorem State.setReply_payOff : (s.setReply r).payOff = s.payOff := rfl
@[simp] theorem State.setReply_payLen : (s.setReply r).payLen = s.payLen := rfl
@[simp] theorem State.setReply_bitOff : (s.setReply r).bitOff = s.bitOff := rfl
@[simp] theorem State.setReply_dataLen : (s.setReply r).dataLen = s.dataLen := rfl
@[simp] theorem State.setReply_pad : (s.setReply r).pad = s.pad := rfl
@[simp] theorem State.setReply_k : (s.setReply r).k = s.k := rfl
@[simp] theorem State.setReply_nnodes : (s.setReply r).nnodes = s.nnodes := rfl
@[simp] theorem State.setReply_root : (s.setReply r).root = s.root := rfl
@[simp] theorem State.setReply_ibufSize : (s.setReply r).ibufSize = s.ibufSize := rfl
@[simp] theorem State.setReply_obufSize : (s.setReply r).obufSize = s.obufSize := rfl
@[simp] theorem State.setReply_tblSel : (s.setReply r).tblSel = s.tblSel := rfl
@[simp] theorem State.setReply_tblIdx : (s.setReply r).tblIdx = s.tblIdx := rfl
@[simp] theorem State.setReply_freq : (s.setReply r).freq = s.freq := rfl
@[simp] theorem State.setReply_seq : (s.setReply r).seq = s.seq := rfl
@[simp] theorem State.setReply_node : (s.setReply r).node = s.node := rfl
@[simp] theorem State.setReply_clen : (s.setReply r).clen = s.clen := rfl
@[simp] theorem State.setReply_cbits : (s.setReply r).cbits = s.cbits := rfl
@[simp] theorem State.setReply_ibuf : (s.setReply r).ibuf = s.ibuf := rfl
@[simp] theorem State.setReply_obuf : (s.setReply r).obuf = s.obuf := rfl
@[simp] theorem State.setReply_ibufDraw : (s.setReply r).ibufDraw = s.ibufDraw := rfl
@[simp] theorem State.setReply_obufDraw : (s.setReply r).obufDraw = s.obufDraw := rfl
@[simp] theorem State.setReply_nodeDraw : (s.setReply r).nodeDraw = s.nodeDraw := rfl
@[simp] theorem State.setReply_script : (s.setReply r).script = s.script := rfl
@[simp] theorem State.setReply_reply : (s.setReply r).reply = r := rfl

end

/-! ### finish -/

section
variable (e : Option (ErrKind × BlockUnit)) (op : Byte)

@[simp] theorem State.finish_status : (s.finish e op).status = s.status.finish e op := rfl
@[simp] theorem State.finish_srcOff : (s.finish e op).srcOff = s.srcOff := rfl
@[simp] theorem State.finish_srcLen : (s.finish e op).srcLen = s.srcLen := rfl
@[simp] theorem State.finish_olen : (s.finish e op).olen = s.olen := rfl
@[simp] theorem State.finish_treeOff : (s.finish e op).treeOff = s.treeOff := rfl
@[simp] theorem State.finish_treeLen : (s.finish e op).treeLen = s.treeLen := rfl
@[simp] theorem State.finish_payOff : (s.finish e op).payOff = s.payOff := rfl
@[simp] theorem State.finish_payLen : (s.finish e op).payLen = s.payLen := rfl
@[simp] theorem State.finish_bitOff : (s.finish e op).bitOff = s.bitOff := rfl
@[simp] theorem State.finish_dataLen : (s.finish e op).dataLen = s.dataLen := rfl
@[simp] theorem State.finish_pad : (s.finish e op).pad = s.pad := rfl
@[simp] theorem State.finish_k : (s.finish e op).k = s.k := rfl
@[simp] theorem State.finish_nnodes : (s.finish e op).nnodes = s.nnodes := rfl
@[simp] theorem State.finish_root : (s.finish e op).root = s.root := rfl
@[simp] theorem State.finish_ibufSize : (s.finish e op).ibufSize = s.ibufSize := rfl
@[simp] theorem State.finish_obufSize : (s.finish e op).obufSize = s.obufSize := rfl
@[simp] theorem State.finish_tblSel : (s.finish e op).tblSel = s.tblSel := rfl
@[simp] theorem State.finish_tblIdx : (s.finish e op).tblIdx = s.tblIdx := rfl
@[simp] theorem State.finish_freq : (s.finish e op).freq = s.freq := rfl
@[simp] theorem State.finish_seq : (s.finish e op).seq = s.seq := rfl
@[simp] theorem State.finish_node : (s.finish e op).node = s.node := rfl
@[simp] theorem State.finish_clen : (s.finish e op).clen = s.clen := rfl
@[simp] theorem State.finish_cbits : (s.finish e op).cbits = s.cbits := rfl
@[simp] theorem State.finish_ibuf : (s.finish e op).ibuf = s.ibuf := rfl
@[simp] theorem State.finish_obuf : (s.finish e op).obuf = s.obuf := rfl
@[simp] theorem State.finish_ibufDraw : (s.finish e op).ibufDraw = s.ibufDraw := rfl
@[simp] theorem State.finish_obufDraw : (s.finish e op).obufDraw = s.obufDraw := rfl
@[simp] theorem State.finish_nodeDraw : (s.finish e op).nodeDraw = s.nodeDraw := rfl
@[simp] theorem State.finish_script : (s.finish e op).script = s.script := rfl
@[simp] theorem State.finish_reply : (s.finish e op).reply = s.reply := rfl

end

end Sys2Proof.Machine
end

