-- ==== Sys2Proof/Laws/Memory.lean ====
section
/-! SUPPORT. What the buffer operations do: a read after a write, and that every operation keeps the canonical form. -/

namespace Sys2Proof.Machine

theorem memGet_memSet (m : List Host.Cell) (a : Nat) (b : Byte) (x : Nat) :
    memGet (memSet m a b) x = if a = x then some b else memGet m x := by
  induction m with
  | nil => simp [memSet, memGet]
  | cons c m ih =>
    obtain ⟨a', b'⟩ := c
    simp only [memSet]
    split
    · simp [memGet]
    · split
      · next h => subst h; simp only [memGet]; split <;> rfl
      · simp only [memGet, ih]
        split <;> split <;> simp_all

/-- After writing `bs` from `a` on: the written bytes read back, every other address is as it was. -/
theorem memGet_memWrite (bs : List Byte) : ∀ (m : List Host.Cell) (a x : Nat),
    memGet (memWrite m a bs) x = if h : a ≤ x ∧ x < a + bs.length then some bs[x - a] else memGet m x := by
  induction bs with
  | nil => intro m a x; rw [dif_neg (by simp only [List.length_nil]; omega)]; rfl
  | cons b bs ih =>
    intro m a x
    simp only [memWrite, ih, memGet_memSet, List.length_cons]
    by_cases h1 : a = x
    · subst h1
      rw [dif_neg (by omega), dif_pos (by omega)]
      simp
    · by_cases h2 : a + 1 ≤ x ∧ x < a + 1 + bs.length
      · rw [dif_pos h2, dif_pos (by omega)]
        obtain ⟨d, rfl⟩ : ∃ d, x = a + 1 + d := ⟨x - (a + 1), by omega⟩
        have e1 : a + 1 + d - (a + 1) = d := by omega
        have e2 : a + 1 + d - a = d + 1 := by omega
        simp [e1, e2]
      · rw [dif_neg h2, dif_neg (by omega), if_neg h1]

theorem memWf_cons_cons (c c' : Host.Cell) (m : List Host.Cell) :
    memWf (c :: c' :: m) = true ↔ c.1 < c'.1 ∧ memWf (c' :: m) = true := by
  simp [memWf]

/-- The first address of what `memSet` gives: the written one or the first there was. -/
theorem memSet_head (m : List Host.Cell) (a : Nat) (b : Byte) :
    ∃ c m', memSet m a b = c :: m' ∧ (c.1 = a ∨ ∃ c', m.head? = some c' ∧ c.1 = c'.1) := by
  cases m with
  | nil => exact ⟨(a, b), [], rfl, .inl rfl⟩
  | cons c m =>
    obtain ⟨a', b'⟩ := c
    simp only [memSet]
    split
    · exact ⟨_, _, rfl, .inl rfl⟩
    · split
      · exact ⟨_, _, rfl, .inl rfl⟩
      · exact ⟨_, _, rfl, .inr ⟨_, rfl, rfl⟩⟩

theorem memWf_memSet (m : List Host.Cell) (a : Nat) (b : Byte) (h : memWf m = true) : memWf (memSet m a b) = true := by
  induction m with
  | nil => rfl
  | cons c m ih =>
    obtain ⟨a', b'⟩ := c
    simp only [memSet]
    split
    · next hlt => exact (memWf_cons_cons _ _ _).2 ⟨hlt, h⟩
    · split
      · next heq =>
        subst heq
        cases m with
        | nil => rfl
        | cons c' m => exact (memWf_cons_cons _ _ _).2 ((memWf_cons_cons _ _ _).1 h)
      · next h1 h2 =>
        have hm : memWf m = true := by
          cases m with
          | nil => rfl
          | cons c' m => exact ((memWf_cons_cons _ _ _).1 h).2
        obtain ⟨c, m', e, hc⟩ := memSet_head m a b
        have hw := ih hm
        rw [e] at hw ⊢
        refine (memWf_cons_cons _ _ _).2 ⟨?_, hw⟩
        rcases hc with hc | ⟨c', hc', e'⟩
        · simp only; omega
        · cases m with
          | nil => simp at hc'
          | cons d m =>
            simp only [List.head?_cons, Option.some.injEq] at hc'
            subst hc'
            have := ((memWf_cons_cons _ _ _).1 h).1
            simp only at *; omega

theorem memWf_memWrite (bs : List Byte) : ∀ (m : List Host.Cell) (a : Nat), memWf m = true → memWf (memWrite m a bs) = true := by
  induction bs with
  | nil => intro m a h; exact h
  | cons b bs ih => intro m a h; exact ih _ _ (memWf_memSet m a b h)

/-- Writing one list after another is writing their concatenation. -/
theorem memWrite_append (bs cs : List Byte) : ∀ (m : List Host.Cell) (a : Nat),
    memWrite m a (bs ++ cs) = memWrite (memWrite m a bs) (a + bs.length) cs := by
  induction bs with
  | nil => intro m a; rfl
  | cons b bs ih =>
    intro m a
    simp only [List.cons_append, memWrite, ih, List.length_cons]
    congr 1; omega

theorem memWf_rangeCells (f : Nat → Byte) (n : Nat) :
    ∀ k, memWf ((List.range' k n).map fun a => (a, f a)) = true := by
  induction n with
  | zero => intro k; rfl
  | succ n ih =>
    intro k
    have := ih (k + 1)
    cases n with
    | zero => rfl
    | succ n =>
      simp only [List.range'_succ, List.map_cons] at this ⊢
      exact (memWf_cons_cons _ _ _).2 ⟨by simp, this⟩

theorem memGet_rangeCells (f : Nat → Byte) (x : Nat) (n : Nat) :
    ∀ k, memGet ((List.range' k n).map fun a => (a, f a)) x = if k ≤ x ∧ x < k + n then some (f x) else none := by
  induction n with
  | zero => intro k; simp [memGet]
  | succ n ih =>
    intro k
    simp only [List.range'_succ, List.map_cons, memGet, ih]
    by_cases h : k = x
    · subst h; simp
    · rw [if_neg h]
      by_cases h2 : k + 1 ≤ x ∧ x < k + 1 + n
      · rw [if_pos h2, if_pos (by omega)]
      · rw [if_neg h2, if_neg (by omega)]

/-- `scrubOutput` keeps every byte below `n` (60_exceptions.md R238). -/
theorem State.scrubOutput_obufByte (s : State) (n a : Nat) (h : a < n) : (s.scrubOutput n).obufByte a = s.obufByte a := by
  simp only [State.obufByte, State.scrubOutput, State.setObuf_obuf, State.setObuf_obufDraw, List.range_eq_range',
    memGet_rangeCells]
  rw [if_pos (by omega)]; rfl

theorem State.scrubOutput_wf (s : State) (n : Nat) : memWf (s.scrubOutput n).obuf = true := by
  simp only [State.scrubOutput, State.setObuf_obuf, List.range_eq_range']
  exact memWf_rangeCells _ _ _

/-- `MemWrite` to OBUF: the written bytes, and every other byte as it was. -/
theorem State.setObuf_memWrite_obufByte (s : State) (a : Nat) (bs : List Byte) (x : Nat) :
    (s.setObuf (memWrite s.obuf a bs) s.obufDraw).obufByte x =
      if h : a ≤ x ∧ x < a + bs.length then bs[x - a] else s.obufByte x := by
  simp only [State.obufByte, State.setObuf_obuf, State.setObuf_obufDraw, memGet_memWrite]
  split <;> rfl

end Sys2Proof.Machine
end

