-- ==== Sys2Proof/Laws/Ops.lean ====
section
/-! SUPPORT. What the shared operations do: appending, taking an error, the wrapper. -/

namespace Sys2Proof.Machine

open Sys2Proof.Safety

/-! ### Appending (20_memory.md R68) -/

/-- The state after an append that fits. -/
def afterAppend (s : State) (bs : List Byte) : State :=
  (s.setObuf (memWrite s.obuf s.olen.toNat bs) s.obufDraw).setOlen (s.olen + BitVec.ofNat 32 bs.length)

theorem appendBytes_of_fits (u : BlockUnit) (bs : List Byte) (s : State)
    (h : s.olen.toNat + bs.length ≤ s.obufSize.toNat) : appendBytes u bs s = .done (afterAppend s bs) := by
  rw [appendBytes, if_neg (by omega)]; rfl

theorem appendBytes_of_full (u : BlockUnit) (bs : List Byte) (s : State)
    (h : s.obufSize.toNat < s.olen.toNat + bs.length) : appendBytes u bs s = .raised .capacityExceeded u s := by
  rw [appendBytes, if_pos (by omega)]

/-- An append completes with the appended state, or raises CapacityExceeded with nothing changed. -/
theorem appendBytes_cases (u : BlockUnit) (bs : List Byte) (s : State) :
    (s.olen.toNat + bs.length ≤ s.obufSize.toNat ∧ appendBytes u bs s = .done (afterAppend s bs)) ∨
      (s.obufSize.toNat < s.olen.toNat + bs.length ∧ appendBytes u bs s = .raised .capacityExceeded u s) := by
  rcases Nat.lt_or_ge s.obufSize.toNat (s.olen.toNat + bs.length) with h | h
  · exact .inr ⟨h, appendBytes_of_full u bs s h⟩
  · exact .inl ⟨h, appendBytes_of_fits u bs s h⟩

theorem afterAppend_olen (s : State) (bs : List Byte) (h : s.olen.toNat + bs.length ≤ s.obufSize.toNat) :
    (afterAppend s bs).olen.toNat = s.olen.toNat + bs.length := by
  have := s.obufSize.isLt
  simp only [afterAppend, State.setOlen_olen, BitVec.toNat_add, BitVec.toNat_ofNat]
  omega

theorem afterAppend_obufByte (s : State) (bs : List Byte) (x : Nat) :
    (afterAppend s bs).obufByte x =
      if h : s.olen.toNat ≤ x ∧ x < s.olen.toNat + bs.length then bs[x - s.olen.toNat] else s.obufByte x :=
  State.setObuf_memWrite_obufByte s _ _ _

theorem afterAppend_appended (s : State) (bs : List Byte) (h : s.olen.toNat + bs.length ≤ s.obufSize.toNat) :
    Appended s (afterAppend s bs) bs := by
  refine ⟨afterAppend_olen s bs h, ?_, ?_⟩
  · apply List.ext_getElem (by simp [State.obufRange])
    intro i h1 h2
    simp only [State.obufRange, List.getElem_map, List.getElem_range, afterAppend_obufByte]
    rw [dif_pos (by omega)]
    congr 1; omega
  · intro a ha
    rw [afterAppend_obufByte, dif_neg (by omega)]

theorem afterAppend_same (s : State) (bs : List Byte) : SameAllButOutput s (afterAppend s bs) := by
  refine ⟨⟨rfl, rfl, fun _ => rfl⟩, ⟨rfl, rfl, rfl, rfl⟩, ⟨rfl, rfl, rfl⟩, ⟨rfl, rfl, rfl⟩, ⟨rfl, rfl, rfl⟩, ⟨rfl, rfl⟩,
    ⟨rfl, rfl, rfl, rfl, rfl, rfl⟩⟩

/-- The fields an append leaves, one by one. -/
theorem afterAppend_frame (s : State) (bs : List Byte) :
    afterAppend s bs = { s with obuf := (afterAppend s bs).obuf, olen := (afterAppend s bs).olen } := rfl

theorem afterAppend_nil (s : State) : afterAppend s [] = s := by
  simp [afterAppend, memWrite, State.setOlen, State.setObuf]

theorem afterAppend_append (s : State) (bs cs : List Byte) (h : s.olen.toNat + bs.length ≤ s.obufSize.toNat) :
    afterAppend (afterAppend s bs) cs = afterAppend s (bs ++ cs) := by
  have e := afterAppend_olen s bs h
  simp only [afterAppend, State.setObuf, State.setOlen] at e ⊢
  rw [e, ← memWrite_append]
  simp [BitVec.ofNat_add, BitVec.add_assoc]

/-- Appending byte by byte is appending the whole, when it fits. -/
theorem appendEach_of_fits (u : BlockUnit) (bs : List Byte) : ∀ s : State,
    s.olen.toNat + bs.length ≤ s.obufSize.toNat → appendEach u bs s = .done (afterAppend s bs) := by
  induction bs with
  | nil => intro s _; rw [afterAppend_nil]; rfl
  | cons b bs ih =>
    intro s h
    simp only [List.length_cons] at h
    have h1 : s.olen.toNat + [b].length ≤ s.obufSize.toNat := by simp; omega
    rw [appendEach, appendBytes_of_fits u [b] s h1]
    have := afterAppend_olen s [b] h1
    simp only [BodyResult.andThen]
    rw [ih _ (by rw [this]; simp only [List.length_cons, List.length_nil]; show _ ≤ s.obufSize.toNat; omega),
      afterAppend_append s [b] bs h1]
    rfl

/-- Appending byte by byte what does not fit raises CapacityExceeded after a prefix that does. -/
theorem appendEach_of_full (u : BlockUnit) (bs : List Byte) : ∀ s : State, s.olen.toNat ≤ s.obufSize.toNat →
    s.obufSize.toNat < s.olen.toNat + bs.length →
    ∃ cs, s.olen.toNat + cs.length ≤ s.obufSize.toNat ∧
      appendEach u bs s = .raised .capacityExceeded u (afterAppend s cs) := by
  induction bs with
  | nil => intro s h0 h; simp only [List.length_nil] at h; omega
  | cons b bs ih =>
    intro s h0 h
    simp only [List.length_cons] at h
    rcases appendBytes_cases u [b] s with ⟨h1, e⟩ | ⟨h1, e⟩
    · have e1 := afterAppend_olen s [b] h1
      simp only [List.length_cons, List.length_nil] at e1 h1
      obtain ⟨cs, hc, ec⟩ := ih (afterAppend s [b]) (by rw [e1]; exact h1)
        (by rw [e1]; show s.obufSize.toNat < _; omega)
      refine ⟨[b] ++ cs, ?_, ?_⟩
      · rw [e1] at hc
        have hc' : s.olen.toNat + 1 + cs.length ≤ s.obufSize.toNat := hc
        simp only [List.length_append, List.length_cons, List.length_nil]; omega
      · rw [appendEach, e]
        simp only [BodyResult.andThen]
        rw [ec, afterAppend_append s [b] cs h1]
    · exact ⟨[], by simpa using h0, by rw [appendEach, e, afterAppend_nil]; rfl⟩

/-! ### Taking an error (60_exceptions.md R236 to R239) -/

/-- The error taken by a command that does not append and does not clear OLEN: STATUS, and OLEN as given. -/
theorem takeError_plain (op : Byte) (w : Bool) (o : Word) (e : ErrKind) (u : BlockUnit) (s : State) :
    takeError { op := op, window := w, appends := false, clears := false } o e u s =
      (s.setOlen o).finish (some (e, u)) op := rfl

/-- The error taken by an appending command: OLEN back to `o`, every byte below `o` as it was. -/
theorem takeError_noOutput (c : CommandForm) (hc : c.appends = true) (o : Word) (e : ErrKind) (u : BlockUnit) (s : State) :
    NoOutput s (takeError c o e u s) (if c.clears then 0 else o) := by
  refine ⟨rfl, fun a ha => ?_⟩
  simp only [takeError, hc, if_true]
  exact State.scrubOutput_obufByte s _ a ha

/-- What taking an error leaves: everything but STATUS, OLEN and OBUF. -/
theorem takeError_same (c : CommandForm) (o : Word) (e : ErrKind) (u : BlockUnit) (s : State) :
    SameAllButOutput s (takeError c o e u s) := by
  unfold takeError
  cases c.appends <;>
  exact ⟨⟨rfl, rfl, fun _ => rfl⟩, ⟨rfl, rfl, rfl, rfl⟩, ⟨rfl, rfl, rfl⟩, ⟨rfl, rfl, rfl⟩, ⟨rfl, rfl, rfl⟩, ⟨rfl, rfl⟩,
    ⟨rfl, rfl, rfl, rfl, rfl, rfl⟩⟩

theorem takeError_status (c : CommandForm) (o : Word) (e : ErrKind) (u : BlockUnit) (s : State) :
    (takeError c o e u s).status = s.status.finish (some (e, u)) c.op := by
  unfold takeError
  cases c.appends <;> rfl

/-! ### The wrapper (49_control.md R220) -/

theorem windowOk_iff (s : State) : s.windowOk = true ↔ s.srcOff.toNat + s.srcLen.toNat ≤ s.ibufSize.toNat := by
  simp [State.windowOk]

/-- All that the wrapper can answer: BadWindow, success, an error taken, or a fault of the body. -/
theorem runCommand_cases (c : CommandForm) (body : State → BodyResult) (s : State) :
    (c.window = true ∧ s.windowOk = false ∧ runCommand c body s = .next (s.finish (some (.badWindow, .ctrl)) c.op)) ∨
    ((c.window = false ∨ s.windowOk = true) ∧
      ((∃ t, body s = .done t ∧ runCommand c body s = .next (t.finish none c.op)) ∨
       (∃ e u t, body s = .raised e u t ∧ runCommand c body s = .next (takeError c s.olen e u t)) ∨
       (∃ f, body s = .stuck f ∧ runCommand c body s = .fault f))) := by
  by_cases h : (c.window && !s.windowOk) = true
  · left
    simp only [Bool.and_eq_true, Bool.not_eq_true'] at h
    exact ⟨h.1, h.2, by simp [runCommand, h.1, h.2]⟩
  · right
    refine ⟨by revert h; cases c.window <;> cases s.windowOk <;> simp, ?_⟩
    simp only [runCommand, if_neg h]
    cases hb : body s with
    | done t => exact .inl ⟨t, rfl, rfl⟩
    | raised e u t => exact .inr (.inl ⟨e, u, t, rfl, rfl⟩)
    | stuck f => exact .inr (.inr ⟨f, rfl, rfl⟩)

theorem runCommand_done (c : CommandForm) (body : State → BodyResult) (s t : State)
    (hw : c.window = true → s.srcOff.toNat + s.srcLen.toNat ≤ s.ibufSize.toNat) (h : body s = .done t) :
    runCommand c body s = .next (t.finish none c.op) := by
  have hn : ¬(c.window && !s.windowOk) = true := by
    simp only [Bool.and_eq_true, Bool.not_eq_true', not_and, Bool.not_eq_false, windowOk_iff]; exact hw
  simp only [runCommand, if_neg hn, h]

theorem runCommand_raised (c : CommandForm) (body : State → BodyResult) (s t : State) (e : ErrKind) (u : BlockUnit)
    (hw : c.window = true → s.srcOff.toNat + s.srcLen.toNat ≤ s.ibufSize.toNat) (h : body s = .raised e u t) :
    runCommand c body s = .next (takeError c s.olen e u t) := by
  have hn : ¬(c.window && !s.windowOk) = true := by
    simp only [Bool.and_eq_true, Bool.not_eq_true', not_and, Bool.not_eq_false, windowOk_iff]; exact hw
  simp only [runCommand, if_neg hn, h]

theorem runCommand_badWindow (c : CommandForm) (body : State → BodyResult) (s : State) (hc : c.window = true)
    (hw : s.ibufSize.toNat < s.srcOff.toNat + s.srcLen.toNat) :
    runCommand c body s = .next (s.finish (some (.badWindow, .ctrl)) c.op) := by
  have hn : (c.window && !s.windowOk) = true := by simp [hc, State.windowOk]; omega
  simp only [runCommand, if_pos hn]

end Sys2Proof.Machine
end

