-- ==== Sys2Proof/Laws/Bits.lean ====
section
/-! SUPPORT. Bits: shifting a bit-string into a word, bytes and their bits, packing and unpacking (43_bit_packer.md R141, R142;
44_bit_unpacker.md R150). -/

namespace Sys2Proof.Machine

/-- A bit-string shifted into a word, first bit first: bit `i` from below is bit `i` of the string from its end. -/
theorem getLsbD_shiftIn {w : Nat} (c : List Bool) : ∀ (acc : BitVec w) (i : Nat), i < w →
    (c.foldl (fun acc b => acc.shiftConcat b) acc).getLsbD i =
      if i < c.length then c.getD (c.length - 1 - i) false else acc.getLsbD (i - c.length) := by
  induction c with
  | nil => intro acc i _; simp
  | cons b c ih =>
    intro acc i hi
    rw [List.foldl_cons, ih _ i hi]
    simp only [List.length_cons]
    by_cases h : i < c.length
    · rw [if_pos h, if_pos (by omega)]
      have e : c.length + 1 - 1 - i = (c.length - 1 - i) + 1 := by omega
      rw [e, List.getD_cons_succ]
    · rw [if_neg h, BitVec.getLsbD_shiftConcat]
      have hw : i - c.length < w := by omega
      by_cases h2 : i = c.length
      · subst h2
        have : 0 < w := by omega
        simp [this]
      · rw [if_neg (by omega), if_neg (by omega)]
        have e : i - c.length - 1 = i - (c.length + 1) := by omega
        simp [hw, e]

/-- Bit `255 - j` of a left-aligned code is its bit `j`, or 0 past its end (10_state.md R38). -/
theorem getLsbD_leftAlign (c : List Bool) (h : c.length ≤ 256) (j : Nat) (hj : j ≤ 255) :
    (leftAlign c).getLsbD (255 - j) = c.getD j false := by
  simp only [leftAlign, BitVec.getLsbD_shiftLeft]
  by_cases h1 : j < c.length
  · have a : 255 - j < 256 := by omega
    have b : ¬ 255 - j < 256 - c.length := by omega
    rw [getLsbD_shiftIn c _ _ (by omega), if_pos (by omega)]
    have e : c.length - 1 - (255 - j - (256 - c.length)) = j := by omega
    simp [a, b, e]
  · have b : 255 - j < 256 - c.length := by omega
    have e : c.getD j false = false := by simp [List.getD_eq_getElem?_getD, List.getElem?_eq_none (by omega : c.length ≤ j)]
    rw [e]; simp [b]

theorem byteBits_length (b : Byte) : (byteBits b).length = 8 := by simp [byteBits]

theorem byteBits_bitsByte (c : List Bool) (h : c.length = 8) : byteBits (bitsByte c) = c := by
  apply List.ext_getElem (by simp [byteBits, h])
  intro i h1 h2
  have hi : i < 8 := by rw [← h]; exact h2
  simp only [byteBits, List.getElem_map, List.getElem_range, bitsByte]
  rw [getLsbD_shiftIn c _ _ (by omega), if_pos (by omega)]
  have e : c.length - 1 - (7 - i) = i := by omega
  rw [e]
  simp [List.getD_eq_getElem?_getD, h2]

/-- A bit-string of a multiple of 8 bits, in bytes: how many, and its bits again. -/
theorem groupBits_spec : ∀ (n : Nat) (c : List Bool), c.length = 8 * n →
    (groupBits c).length = n ∧ (groupBits c).flatMap byteBits = c := by
  intro n
  induction n with
  | zero => intro c h; have := List.eq_nil_of_length_eq_zero (by omega : c.length = 0); subst this; simp [groupBits]
  | succ n ih =>
    intro c h
    match c, h with
    | b0 :: b1 :: b2 :: b3 :: b4 :: b5 :: b6 :: b7 :: rest, h =>
      obtain ⟨h1, h2⟩ := ih rest (by simp only [List.length_cons] at h; omega)
      simp only [groupBits, List.length_cons, h1, List.flatMap_cons, h2, true_and]
      rw [byteBits_bitsByte _ rfl]; rfl

theorem padCount_spec (t : Nat) : padCount t ≤ 7 ∧ t + padCount t = 8 * ((t + 7) / 8) := by
  unfold padCount; omega

/-- `Pack`: the padding count, then the data bytes, whose bits are the bit-string and its padding (43_bit_packer.md R141). -/
theorem pack_spec (bits : List Bool) : ∃ pad data, pack bits = pad :: data ∧ pad.toNat = padCount bits.length ∧
    data.length = (bits.length + 7) / 8 ∧
    data.flatMap byteBits = bits ++ List.replicate (padCount bits.length) false := by
  obtain ⟨hp, hl⟩ := padCount_spec bits.length
  obtain ⟨h1, h2⟩ := groupBits_spec ((bits.length + 7) / 8) (bits ++ List.replicate (padCount bits.length) false)
    (by simp [hl])
  refine ⟨_, _, rfl, ?_, h1, h2⟩
  simp only [BitVec.toNat_ofNat]; omega

theorem pack_length (bits : List Bool) : (pack bits).length = 1 + (bits.length + 7) / 8 := by
  obtain ⟨pad, data, e, -, h, -⟩ := pack_spec bits
  rw [e, List.length_cons, h]; omega

end Sys2Proof.Machine
end

