-- ==== Sys2Proof/Laws/Tree.lean ====
section
/-! SUPPORT. The arena as a tree: a relation without fuel, and what it says of `treeOf`, `visitOf` and `currentTree`. -/

namespace Sys2Proof.Machine

open Sys2Proof.Safety

/-- Node `i` of the arena `look` is the root of the tree `t`, whose nodes are `ids`, in pre-order (10_state.md R44). -/
inductive Holds (look : Nat → Node) : Nat → HTree → List Nat → Prop
  | leaf (i : Nat) (h : (look i).kind = false) : Holds look i (.leaf (look i).sym (look i).freq) [i]
  | node (i : Nat) (l r : HTree) (li ri : List Nat) (h : (look i).kind = true)
      (hl : Holds look (look i).left.toNat l li) (hr : Holds look (look i).right.toNat r ri) :
      Holds look i (.node (look i).freq l r) (i :: (li ++ ri))

variable {look : Nat → Node}

theorem Holds.length {i : Nat} {t : HTree} {ids : List Nat} (h : Holds look i t ids) : ids.length = t.size := by
  induction h with
  | leaf => rfl
  | node _ _ _ _ _ _ _ _ ihl ihr => simp [HTree.size, ihl, ihr]; omega

theorem Holds.head_mem {i : Nat} {t : HTree} {ids : List Nat} (h : Holds look i t ids) : i ∈ ids := by
  cases h <;> simp

theorem HTree.size_pos (t : HTree) : 1 ≤ t.size := by cases t <;> simp only [HTree.size] <;> omega

/-- A tree of depth `d` in which every internal node has two children has at least `2 d + 1` nodes. -/
theorem HTree.two_depth_lt_size (t : HTree) : 2 * t.depth + 1 ≤ t.size := by
  induction t with
  | leaf => simp [HTree.depth, HTree.size]
  | node f l r ihl ihr =>
    have := l.size_pos
    have := r.size_pos
    simp only [HTree.depth, HTree.size]; omega

/-- The number of leaves and of nodes (10_state.md R43). -/
theorem HTree.size_eq_leaves (t : HTree) : t.size + 1 = 2 * t.syms.length := by
  induction t with
  | leaf => simp [HTree.size, HTree.syms]
  | node f l r ihl ihr => simp [HTree.size, HTree.syms]; omega

theorem Holds.treeOf {n i : Nat} {t : HTree} {ids : List Nat} (h : Holds look i t ids) :
    ∀ fuel, t.depth < fuel → (∀ x ∈ ids, x < n) → treeOf look n fuel i = some t ∧ visitOf look n fuel i = some ids := by
  induction h with
  | leaf i hk =>
    intro fuel hf hn
    obtain ⟨fuel, rfl⟩ : ∃ m, fuel = m + 1 := ⟨fuel - 1, by omega⟩
    have : i < n := hn i (by simp)
    simp [Machine.treeOf, visitOf, hk, this]
  | node i l r li ri hk hl hr ihl ihr =>
    intro fuel hf hn
    simp only [HTree.depth] at hf
    obtain ⟨fuel, rfl⟩ : ∃ m, fuel = m + 1 := ⟨fuel - 1, by omega⟩
    have hi : i < n := hn i (by simp)
    obtain ⟨l1, l2⟩ := ihl fuel (by omega) (fun x hx => hn x (by simp [hx]))
    obtain ⟨r1, r2⟩ := ihr fuel (by omega) (fun x hx => hn x (by simp [hx]))
    simp [Machine.treeOf, visitOf, hk, hi, l1, l2, r1, r2]

/-- What `treeOf` and `visitOf` find is a tree of the arena. -/
theorem holds_of_visitOf {n : Nat} : ∀ (fuel i : Nat) (ids : List Nat), visitOf look n fuel i = some ids →
    ∃ t, Holds look i t ids ∧ treeOf look n fuel i = some t ∧ ∀ x ∈ ids, x < n := by
  intro fuel
  induction fuel with
  | zero => intro i ids h; simp [visitOf] at h
  | succ fuel ih =>
    intro i ids h
    simp only [visitOf] at h
    split at h
    · next hi =>
      split at h
      · next hk =>
        split at h
        · next l r hl hr =>
          obtain ⟨tl, h1, h2, h3⟩ := ih _ _ hl
          obtain ⟨tr, h4, h5, h6⟩ := ih _ _ hr
          simp only [Option.some.injEq] at h
          subst h
          refine ⟨_, .node i tl tr l r hk h1 h4, by simp [treeOf, hi, hk, h2, h5], ?_⟩
          intro x hx
          simp only [List.mem_cons, List.mem_append] at hx
          rcases hx with rfl | hx | hx
          · exact hi
          · exact h3 x hx
          · exact h6 x hx
        · simp at h
      · next hk =>
        simp only [Option.some.injEq] at h
        subst h
        simp only [Bool.not_eq_true] at hk
        exact ⟨_, .leaf i hk, by simp [treeOf, hi, hk], by simpa using hi⟩
    · simp at h

theorem holds_of_treeOf {n : Nat} : ∀ (fuel i : Nat) (t : HTree), treeOf look n fuel i = some t →
    ∃ ids, Holds look i t ids ∧ ∀ x ∈ ids, x < n := by
  intro fuel
  induction fuel with
  | zero => intro i ids h; simp [treeOf] at h
  | succ fuel ih =>
    intro i t h
    simp only [treeOf] at h
    split at h
    · next hi =>
      split at h
      · next hk =>
        split at h
        · next l r hl hr =>
          obtain ⟨il, h1, h3⟩ := ih _ _ hl
          obtain ⟨ir, h4, h6⟩ := ih _ _ hr
          simp only [Option.some.injEq] at h
          subst h
          refine ⟨_, .node i l r il ir hk h1 h4, ?_⟩
          intro x hx
          simp only [List.mem_cons, List.mem_append] at hx
          rcases hx with rfl | hx | hx
          · exact hi
          · exact h3 x hx
          · exact h6 x hx
        · simp at h
      · next hk =>
        simp only [Option.some.injEq] at h
        subst h
        simp only [Bool.not_eq_true] at hk
        exact ⟨_, .leaf i hk, by simpa using hi⟩
    · simp at h

/-- Only the entries of its own nodes matter to a tree of the arena. -/
theorem Holds.congr {look' : Nat → Node} {i : Nat} {t : HTree} {ids : List Nat} (h : Holds look i t ids)
    (e : ∀ x ∈ ids, look' x = look x) : Holds look' i t ids := by
  induction h with
  | leaf i hk =>
    have := e i (by simp)
    rw [← this] at hk ⊢
    exact .leaf i hk
  | node i l r li ri hk hl hr ihl ihr =>
    have hi := e i (by simp)
    rw [← hi] at hk ⊢
    refine .node i l r li ri hk ?_ ?_
    · rw [hi]; exact ihl fun x hx => e x (by simp [hx])
    · rw [hi]; exact ihr fun x hx => e x (by simp [hx])

theorem Holds.unique {i : Nat} {t t' : HTree} {ids ids' : List Nat} (h : Holds look i t ids) (h' : Holds look i t' ids') :
    t = t' ∧ ids = ids' := by
  induction h generalizing t' ids' with
  | leaf i hk =>
    cases h' with
    | leaf => exact ⟨rfl, rfl⟩
    | node _ _ _ _ _ hk' => rw [hk] at hk'; cases hk'
  | node i l r li ri hk hl hr ihl ihr =>
    cases h' with
    | leaf _ hk' => rw [hk] at hk'; cases hk'
    | node _ _ _ _ _ _ hl' hr' =>
      obtain ⟨rfl, rfl⟩ := ihl hl'
      obtain ⟨rfl, rfl⟩ := ihr hr'
      exact ⟨rfl, rfl⟩

/-- A tree of the arena that uses every id below NNODES is the state's CurrentTree. -/
theorem currentTree_of_holds (s : State) (t : HTree) (ids : List Nat) (h0 : s.nnodes ≠ 0)
    (h : Holds (nodeGet s.node) s.root.toNat t ids) (hp : ids.Perm (List.range s.nnodes.toNat)) :
    s.currentTree = .tree t := by
  have hl : t.size = s.nnodes.toNat := by rw [← h.length, hp.length_eq, List.length_range]
  have hn : s.nnodes.toNat < 2 ^ 9 := s.nnodes.isLt
  have hd := t.two_depth_lt_size
  have hm : ∀ x ∈ ids, x < s.nnodes.toNat := fun x hx => List.mem_range.1 ((hp.mem_iff).1 hx)
  have := (h.treeOf (n := s.nnodes.toNat) Config.nnodeMax (by simp only [Config.nnodeMax]; omega) hm).1
  rw [State.currentTree, if_neg h0, this]
  simp [hl]

theorem arenaInv_of_holds (s : State) (t : HTree) (ids : List Nat)
    (h : Holds (nodeGet s.node) s.root.toNat t ids) (hp : ids.Perm (List.range s.nnodes.toNat)) : ArenaInv s := by
  right
  have hl : t.size = s.nnodes.toNat := by rw [← h.length, hp.length_eq, List.length_range]
  have hn : s.nnodes.toNat < 2 ^ 9 := s.nnodes.isLt
  have hd := t.two_depth_lt_size
  have hs := t.size_eq_leaves
  have hm : ∀ x ∈ ids, x < s.nnodes.toNat := fun x hx => List.mem_range.1 ((hp.mem_iff).1 hx)
  exact ⟨by omega, hm _ h.head_mem, ids,
    (h.treeOf (n := s.nnodes.toNat) Config.nnodeMax (by simp only [Config.nnodeMax]; omega) hm).2, hp⟩

/-- Under invariant 3 the arena holds a tree, or is absent. -/
theorem holds_of_arenaInv (s : State) (h : ArenaInv s) :
    (s.nnodes = 0 ∧ s.root = 0 ∧ s.currentTree = .absent) ∨
      ∃ t ids, s.nnodes ≠ 0 ∧ s.currentTree = .tree t ∧ t.size = s.nnodes.toNat ∧
        Holds (nodeGet s.node) s.root.toNat t ids ∧ ids.Perm (List.range s.nnodes.toNat) := by
  rcases h with ⟨h0, hr⟩ | ⟨ho, hr, ids, hv, hp⟩
  · exact .inl ⟨h0, hr, by simp [State.currentTree, h0]⟩
  · obtain ⟨t, ht, -, -⟩ := holds_of_visitOf _ _ _ hv
    have h0 : s.nnodes ≠ 0 := by
      intro e; rw [e] at ho; simp at ho
    exact .inr ⟨t, ids, h0, currentTree_of_holds s t ids h0 ht hp, by rw [← ht.length, hp.length_eq, List.length_range], ht, hp⟩

end Sys2Proof.Machine
end

