-- ==== Sys2Proof/Laws/Build.lean ====
section
/-! SUPPORT. The Huffman tree builder: what one round does, and that the arena it leaves is one tree over the counted symbols
(41_tree_builder.md R120 to R123). -/

namespace Sys2Proof.Machine

open Sys2Proof.Safety

/-- `takeMin` takes one live node out, and no other has a smaller key. -/
theorem takeMin_spec (xs : List Live) : ∀ x : Live,
    ((takeMin x xs).1 :: (takeMin x xs).2).Perm (x :: xs) ∧
      (∀ y ∈ (takeMin x xs).2, keyLt y (takeMin x xs).1 = false) ∧ keyLt x (takeMin x xs).1 = false := by
  induction xs with
  | nil => intro x; simp [takeMin, keyLt]
  | cons y ys ih =>
    intro x
    simp only [takeMin]
    split
    · next h =>
      obtain ⟨p, q, r⟩ := ih y
      have hx : keyLt x (takeMin y ys).1 = false := by
        simp only [keyLt, Bool.or_eq_true, Bool.and_eq_true, decide_eq_true_eq, Bool.or_eq_false_iff,
          Bool.and_eq_false_iff, decide_eq_false_iff_not] at h r ⊢
        omega
      refine ⟨(List.Perm.swap _ _ _).trans (p.cons x), ?_, hx⟩
      intro z hz
      rcases List.mem_cons.1 hz with rfl | hz
      · exact hx
      · exact q z hz
    · next h =>
      obtain ⟨p, q, r⟩ := ih x
      have hy : keyLt y (takeMin x ys).1 = false := by
        simp only [keyLt, Bool.not_eq_true, Bool.or_eq_false_iff,
          Bool.and_eq_false_iff, decide_eq_false_iff_not] at h r ⊢
        omega
      refine ⟨((List.Perm.swap _ _ _).trans (p.cons y)).trans (List.Perm.swap _ _ _), ?_, r⟩
      intro z hz
      rcases List.mem_cons.1 hz with rfl | hz
      · exact hy
      · exact q z hz

/-- One round: the two live nodes with the least keys become the children of a new node (41_tree_builder.md R120 to R122). -/
theorem buildRounds_succ (rounds : Nat) (live : List Live) (arena : List Node) (h : 2 ≤ live.length) :
    ∃ a b rest, (a :: b :: rest).Perm live ∧ (∀ y ∈ b :: rest, keyLt y a = false) ∧ (∀ y ∈ rest, keyLt y b = false) ∧
      buildRounds (rounds + 1) live arena =
        buildRounds rounds ({ freq := a.freq + b.freq, id := arena.length } :: rest)
          (arena ++ [innerNode (BitVec.ofNat 32 (a.freq + b.freq)) a.id b.id]) := by
  obtain ⟨x, xs, rfl⟩ : ∃ x xs, live = x :: xs := by
    cases live with
    | nil => simp at h
    | cons x xs => exact ⟨x, xs, rfl⟩
  obtain ⟨p, q, -⟩ := takeMin_spec xs x
  have hl : (takeMin x xs).2.length = xs.length := by have := p.length_eq; simpa using this
  obtain ⟨y, ys, e⟩ : ∃ y ys, (takeMin x xs).2 = y :: ys := by
    cases e : (takeMin x xs).2 with
    | nil => rw [e] at hl; simp at h hl; omega
    | cons y ys => exact ⟨y, ys, rfl⟩
  obtain ⟨p', q', -⟩ := takeMin_spec ys y
  refine ⟨(takeMin x xs).1, (takeMin y ys).1, (takeMin y ys).2, (p'.cons _).trans (e ▸ p), ?_, q', ?_⟩
  · intro z hz
    exact q z (e ▸ p'.mem_iff.1 hz)
  · simp only [buildRounds, e]

/-- An arena given as a list, as a lookup by id. -/
def lookNodes (ns : List Node) (i : Nat) : Node := (ns[i]?).getD Node.zero

/-- The live nodes are the roots of disjoint trees that use up the arena, and whose leaves are the symbols `S`. -/
structure Forest (S : List Byte) (live : List Live) (arena : List Node) (g : Nat → HTree × List Nat) : Prop where
  holds : ∀ x ∈ live, Holds (lookNodes arena) x.id (g x.id).1 (g x.id).2
  ids : (live.flatMap fun x => (g x.id).2).Perm (List.range arena.length)
  syms : (live.flatMap fun x => (g x.id).1.syms).Perm S

theorem Forest.perm {S : List Byte} {live live' : List Live} {arena : List Node} {g : Nat → HTree × List Nat}
    (h : Forest S live arena g) (p : live'.Perm live) : Forest S live' arena g where
  holds x hx := h.holds x (p.mem_iff.1 hx)
  ids := (p.flatMap_right _).trans h.ids
  syms := (p.flatMap_right _).trans h.syms

theorem Forest.mem_lt {S : List Byte} {live : List Live} {arena : List Node} {g : Nat → HTree × List Nat}
    (h : Forest S live arena g) {x : Live} (hx : x ∈ live) : ∀ i ∈ (g x.id).2, i < arena.length := fun _ hi =>
  List.mem_range.1 (h.ids.mem_iff.1 (List.mem_flatMap.2 ⟨x, hx, hi⟩))

/-- Joining two trees of the forest under a new node. -/
theorem Forest.join {S : List Byte} {a b : Live} {rest : List Live} {arena : List Node} {g : Nat → HTree × List Nat}
    (h : Forest S (a :: b :: rest) arena g) (hn : arena.length ≤ 511) (f : Nat) :
    ∃ g', Forest S ({ freq := f, id := arena.length } :: rest)
      (arena ++ [innerNode (BitVec.ofNat 32 f) a.id b.id]) g' := by
  let A' := arena ++ [innerNode (BitVec.ofNat 32 f) a.id b.id]
  have hold : ∀ i, i < arena.length → lookNodes A' i = lookNodes arena i := by
    intro i hi; simp [lookNodes, A', List.getElem?_append_left hi]
  have hnew : lookNodes A' arena.length = innerNode (BitVec.ofNat 32 f) a.id b.id := by simp [lookNodes, A']
  have ha := h.holds a (by simp)
  have hb := h.holds b (by simp)
  have la := h.mem_lt (x := a) (by simp)
  have lb := h.mem_lt (x := b) (by simp)
  have ea : (BitVec.ofNat 9 a.id).toNat = a.id := by
    have := la _ ha.head_mem; simp; omega
  have eb : (BitVec.ofNat 9 b.id).toNat = b.id := by
    have := lb _ hb.head_mem; simp; omega
  have hj : Holds (lookNodes A') arena.length (.node (BitVec.ofNat 32 f) (g a.id).1 (g b.id).1)
      (arena.length :: ((g a.id).2 ++ (g b.id).2)) := by
    have := Holds.node (look := lookNodes A') arena.length (g a.id).1 (g b.id).1 (g a.id).2 (g b.id).2
      (by rw [hnew]; rfl)
      (by rw [hnew]; show Holds _ (BitVec.ofNat 9 a.id).toNat _ _; rw [ea]; exact ha.congr fun x hx => hold x (la x hx))
      (by rw [hnew]; show Holds _ (BitVec.ofNat 9 b.id).toNat _ _; rw [eb]; exact hb.congr fun x hx => hold x (lb x hx))
    rw [hnew] at this
    exact this
  have hne : ∀ x ∈ rest, x.id ≠ arena.length := by
    intro x hx
    have := h.mem_lt (x := x) (by simp [hx]) _ (h.holds x (by simp [hx])).head_mem
    omega
  let g' := fun i => if i = arena.length then
    (HTree.node (BitVec.ofNat 32 f) (g a.id).1 (g b.id).1, arena.length :: ((g a.id).2 ++ (g b.id).2)) else g i
  have hg : ∀ x ∈ rest, g' x.id = g x.id := fun x hx => by simp [g', hne x hx]
  have hi : (rest.flatMap fun x => (g' x.id).2) = rest.flatMap fun x => (g x.id).2 :=
    List.flatMap_congr fun x hx => by rw [hg x hx]
  have hs : (rest.flatMap fun x => (g' x.id).1.syms) = rest.flatMap fun x => (g x.id).1.syms :=
    List.flatMap_congr fun x hx => by rw [hg x hx]
  refine ⟨g', ?_, ?_, ?_⟩
  · intro x hx
    rcases List.mem_cons.1 hx with rfl | hx
    · simpa [g'] using hj
    · rw [hg x hx]
      have := h.mem_lt (x := x) (by simp [hx])
      exact (h.holds x (by simp [hx])).congr fun y hy => hold y (this y hy)
  · have h1 := h.ids
    simp only [List.flatMap_cons, hi, List.length_append, List.length_cons, List.length_nil, List.range_succ] at h1 ⊢
    simp only [g', if_true]
    refine List.Perm.trans ?_ (List.perm_append_singleton arena.length (List.range arena.length)).symm
    refine List.Perm.cons arena.length ?_
    simpa [List.append_assoc] using h1
  · have h1 := h.syms
    simp only [List.flatMap_cons, hs] at h1 ⊢
    simpa [g', HTree.syms, List.append_assoc] using h1

/-- All rounds: the arena grows by one node a round, keeps what it had, and ends as one tree with the last node as its root. -/
theorem buildRounds_tree (S : List Byte) (rounds : Nat) : ∀ (live : List Live) (arena : List Node) (g : Nat → HTree × List Nat),
    live.length = rounds + 1 → arena.length + rounds ≤ 511 → Forest S live arena g →
    (rounds = 0 → ∀ x ∈ live, x.id + 1 = arena.length) →
    ∃ t ids, (buildRounds rounds live arena).length = arena.length + rounds ∧
      arena <+: buildRounds rounds live arena ∧
      Holds (lookNodes (buildRounds rounds live arena)) (arena.length + rounds - 1) t ids ∧
      ids.Perm (List.range (arena.length + rounds)) ∧ t.syms.Perm S := by
  induction rounds with
  | zero =>
    intro live arena g hl hn hf h0
    obtain ⟨x, rfl⟩ := List.length_eq_one_iff.1 hl
    have hx := h0 rfl x (by simp)
    have h1 := hf.holds x (by simp)
    refine ⟨(g x.id).1, (g x.id).2, rfl, List.prefix_rfl, ?_, by simpa using hf.ids, by simpa using hf.syms⟩
    have e : arena.length + 0 - 1 = x.id := by omega
    rw [e]
    exact h1
  | succ rounds ih =>
    intro live arena g hl hn hf _
    obtain ⟨a, b, rest, p, -, -, e⟩ := buildRounds_succ rounds live arena (by omega)
    obtain ⟨g', hf'⟩ := (hf.perm p).join (by omega) (a.freq + b.freq)
    have hr : rest.length + 2 = live.length := by have := p.length_eq; simpa using this
    obtain ⟨t, ids, h1, h2, h3, h4, h5⟩ := ih _ _ g' (by simp; omega) (by simp; omega) hf' (by
      intro h0 x hx
      have : rest = [] := by
        apply List.eq_nil_of_length_eq_zero; omega
      subst this
      simp only [List.mem_singleton] at hx
      subst hx
      simp)
    simp only [List.length_append, List.length_cons, List.length_nil] at h1 h3 h4
    have hlen : arena.length + (0 + 1) + rounds = arena.length + (rounds + 1) := by omega
    rw [hlen] at h1 h3 h4
    rw [e]
    exact ⟨t, ids, h1, (List.prefix_append _ _).trans h2, h3, h4, h5⟩

theorem forest_leaves (F : Byte → Nat) (S : List Byte) :
    Forest S (S.zipIdx.map fun p => { freq := F p.1, id := p.2 }) (S.map fun sym => leafNode sym (BitVec.ofNat 32 (F sym)))
      (fun i => (HTree.leaf (S.getD i 0) (BitVec.ofNat 32 (F (S.getD i 0))), [i])) where
  holds x hx := by
    obtain ⟨p, hp, rfl⟩ := List.mem_map.1 hx
    obtain ⟨sym, i⟩ := p
    have hi := List.mem_zipIdx hp
    obtain ⟨-, h2, h3⟩ := hi
    simp only [Nat.zero_add, Nat.sub_zero] at h2 h3
    have hlook : lookNodes (S.map fun sym => leafNode sym (BitVec.ofNat 32 (F sym))) i =
        leafNode (S.getD i 0) (BitVec.ofNat 32 (F (S.getD i 0))) := by
      simp [lookNodes, List.getElem?_map, List.getD_eq_getElem?_getD, List.getElem?_eq_getElem h2]
    have := Holds.leaf (look := lookNodes (S.map fun sym => leafNode sym (BitVec.ofNat 32 (F sym)))) i (by rw [hlook]; rfl)
    rw [hlook] at this
    exact this
  ids := by
    simp only [List.length_map, List.flatMap_map]
    have : (S.zipIdx.flatMap fun p => [p.2]) = S.zipIdx.map Prod.snd := by
      rw [← List.flatMap_singleton' (S.zipIdx.map Prod.snd), List.flatMap_map]
    rw [this, List.zipIdx_map_snd]
    simp [List.range_eq_range']
  syms := by
    simp only [List.flatMap_map, HTree.syms]
    have : (S.zipIdx.flatMap fun p => [S.getD p.2 0]) = S.zipIdx.flatMap fun p => [p.1] := by
      refine List.flatMap_congr fun p hp => ?_
      obtain ⟨-, h2, h3⟩ := List.mem_zipIdx (x := p.1) (i := p.2) hp
      simp only [Nat.zero_add, Nat.sub_zero] at h2 h3
      simp [List.getD_eq_getElem?_getD, List.getElem?_eq_getElem h2, h3]
    rw [this]
    have : (S.zipIdx.flatMap fun p => [p.1]) = S.zipIdx.map Prod.fst := by
      rw [← List.flatMap_singleton' (S.zipIdx.map Prod.fst), List.flatMap_map]
    rw [this, List.zipIdx_map_fst]

/-- `Build` (41_tree_builder.md R123 items 1 and 4): `2k - 1` nodes, the leaves first, one tree with root `2k - 2`, whose leaves
are the counted symbols. -/
theorem build_tree (F : Byte → Nat) (S : List Byte) (h0 : S ≠ []) (h : S.length ≤ 256) :
    ∃ t ids, (build F S).length = 2 * S.length - 1 ∧
      (S.map fun sym => leafNode sym (BitVec.ofNat 32 (F sym))) <+: build F S ∧
      Holds (lookNodes (build F S)) (2 * S.length - 2) t ids ∧ ids.Perm (List.range (2 * S.length - 1)) ∧ t.syms.Perm S := by
  have hp : 0 < S.length := List.length_pos_iff.2 h0
  have := buildRounds_tree S (S.length - 1) _ _ _ (by simp; omega) (by simp; omega) (forest_leaves F S) (by
    intro hk x hx
    obtain ⟨p, hp', rfl⟩ := List.mem_map.1 hx
    obtain ⟨-, h2, -⟩ := List.mem_zipIdx (x := p.1) (i := p.2) hp'
    simp only [List.length_map]; omega)
  have e : S.length + (S.length - 1) = 2 * S.length - 1 := by omega
  have e2 : 2 * S.length - 1 - 1 = 2 * S.length - 2 := by omega
  simpa only [List.length_map, e, e2, build] using this

end Sys2Proof.Machine
end

