-- ==== Sys2Proof/Laws/Codes.lean ====
section
/-! SUPPORT. Codes: the paths of a tree, and the table that CGEN writes from them (42_code_table_generator.md R130 to R134). -/

namespace Sys2Proof.Machine

open Sys2Proof.Safety

/-- The paths below a prefix are the paths from the root, prefixed. -/
theorem paths_eq_map (t : HTree) : ∀ p, paths t p = (paths t []).map fun q => (q.1, p ++ q.2) := by
  induction t with
  | leaf s f => intro p; simp [paths]
  | node f l r ihl ihr =>
    intro p
    simp only [paths, List.nil_append]
    rw [ihl (p ++ [false]), ihr (p ++ [true]), ihl [false], ihr [true]]
    simp [Function.comp_def]

theorem paths_node (f : Word) (l r : HTree) : paths (.node f l r) [] =
    ((paths l []).map fun q => (q.1, false :: q.2)) ++ (paths r []).map fun q => (q.1, true :: q.2) := by
  simp only [paths, List.nil_append]
  rw [paths_eq_map l [false], paths_eq_map r [true]]; rfl

theorem paths_syms (t : HTree) : (paths t []).map Prod.fst = t.syms := by
  induction t with
  | leaf => rfl
  | node f l r ihl ihr => rw [paths_node]; simp [HTree.syms, ← ihl, ← ihr, Function.comp_def]

theorem paths_length_le (t : HTree) : ∀ p ∈ paths t [], p.2.length ≤ t.depth := by
  induction t with
  | leaf => simp [paths]
  | node f l r ihl ihr =>
    rw [paths_node]
    intro p hp
    simp only [List.mem_append, List.mem_map] at hp
    rcases hp with ⟨q, hq, rfl⟩ | ⟨q, hq, rfl⟩
    · have := ihl q hq; simp only [HTree.depth, List.length_cons]; omega
    · have := ihr q hq; simp only [HTree.depth, List.length_cons]; omega

/-- A code of a tree that fits the arena has 1 to 255 bits (42_code_table_generator.md R131). -/
theorem codes_length (t : HTree) (h : t.size ≤ 511) : ∀ p ∈ codes (some t), 1 ≤ p.2.length ∧ p.2.length ≤ 255 := by
  have hd := t.two_depth_lt_size
  cases t with
  | leaf s f => simp [codes]
  | node f l r =>
    intro p hp
    have h2 := paths_length_le _ p hp
    refine ⟨?_, by omega⟩
    simp only [codes] at hp
    rw [paths_node] at hp
    simp only [List.mem_append, List.mem_map] at hp
    rcases hp with ⟨q, _, rfl⟩ | ⟨q, _, rfl⟩ <;> simp

theorem codes_length_option (ot : Option HTree) (h : nodeCount ot ≤ 511) :
    ∀ p ∈ codes ot, 1 ≤ p.2.length ∧ p.2.length ≤ 255 := by
  cases ot with
  | none => simp [codes]
  | some t => exact codes_length t h

theorem codes_syms (t : HTree) : (codes (some t)).map Prod.fst = t.syms := by
  cases t with
  | leaf => rfl
  | node f l r => exact paths_syms _

theorem symGet_symSet {α : Type} (v : Vector α 256) (s x : Byte) (a : α) :
    symGet (symSet v s a) x = if s = x then a else symGet v x := by
  simp only [symGet, symSet, Vector.getElem_set]
  by_cases h : s = x
  · subst h; simp
  · rw [if_neg h, if_neg fun e => h (BitVec.eq_of_toNat_eq e)]

theorem symGet_replicate {α : Type} (a : α) (x : Byte) : symGet (Vector.replicate 256 a) x = a := by
  simp [symGet]

/-- A table written in list order holds, for a symbol, the last entry of the list. -/
theorem symGet_writeAll {α β : Type} (g : β → α) (cs : List (Byte × β)) (x : Byte) : ∀ v : Vector α 256,
    symGet (cs.foldl (fun v p => symSet v p.1 (g p.2)) v) x =
      match cs.reverse.lookup x with
      | some c => g c
      | none => symGet v x := by
  induction cs with
  | nil => intro v; rfl
  | cons p cs ih =>
    intro v
    rw [List.foldl_cons, ih, List.reverse_cons, List.lookup_append]
    cases h : cs.reverse.lookup x with
    | some c => rfl
    | none =>
      simp only [Option.none_or]
      by_cases e : p.1 = x
      · simp [symGet_symSet, e, List.lookup]
      · have : (x == p.1) = false := by simp [Ne.symm e]
        simp [symGet_symSet, e, List.lookup, this]

theorem mem_of_lookup {β : Type} (cs : List (Byte × β)) (x : Byte) (c : β) (h : cs.lookup x = some c) : (x, c) ∈ cs := by
  induction cs with
  | nil => simp at h
  | cons p cs ih =>
    simp only [List.lookup] at h
    split at h
    · next e =>
      simp only [beq_iff_eq] at e
      cases h; simp [e]
    · exact List.mem_cons_of_mem _ (ih h)

theorem lookup_none {β : Type} (cs : List (Byte × β)) (x : Byte) : cs.lookup x = none ↔ x ∉ cs.map Prod.fst := by
  induction cs with
  | nil => simp
  | cons p cs ih =>
    simp only [List.lookup, List.map_cons, List.mem_cons, not_or]
    split
    · next e => simp only [beq_iff_eq] at e; simp [e]
    · next e => simp only [beq_eq_false_iff_ne] at e; simp [ih, e]

/-- What the table that CGEN writes says of a symbol: its length and its code (42_code_table_generator.md R133). -/
theorem tables_spec (cs : List (Byte × List Bool)) (hlen : ∀ p ∈ cs, 1 ≤ p.2.length ∧ p.2.length ≤ 255) (x : Byte) :
    (symGet (clenTable cs) x).toNat = (codeMap cs x).length ∧ (codeMap cs x).length ≤ 255 ∧
      (∀ j, j ≤ 255 → (symGet (cbitsTable cs) x).getLsbD (255 - j) = (codeMap cs x).getD j false) ∧
      (x ∉ cs.map Prod.fst → symGet (clenTable cs) x = 0 ∧ symGet (cbitsTable cs) x = 0) ∧
      (x ∈ cs.map Prod.fst → symGet (clenTable cs) x ≠ 0) := by
  have h1 := symGet_writeAll (fun c : List Bool => BitVec.ofNat 8 c.length) cs x (Vector.replicate 256 0)
  have h2 := symGet_writeAll leftAlign cs x (Vector.replicate 256 0)
  change symGet (clenTable cs) x = _ at h1
  change symGet (cbitsTable cs) x = _ at h2
  have hm : x ∈ cs.map Prod.fst ↔ x ∈ cs.reverse.map Prod.fst := by simp
  rw [h1, h2, codeMap, hm]
  cases h : cs.reverse.lookup x with
  | none =>
    refine ⟨by simp [symGet_replicate], by simp, fun j _ => by simp [symGet_replicate], fun _ => ?_, fun hx => ?_⟩
    · simp [symGet_replicate]
    · exact absurd hx ((lookup_none _ _).1 h)
  | some c =>
    have hc := mem_of_lookup _ _ _ h
    obtain ⟨ha, hb⟩ := hlen _ (List.mem_reverse.1 hc)
    simp only at ha hb
    refine ⟨?_, hb, fun j hj => getLsbD_leftAlign c (by omega) j hj, fun hx => ?_, fun _ e => ?_⟩
    · simp only [BitVec.toNat_ofNat, Option.getD_some]; omega
    · exact absurd (List.mem_map.2 ⟨_, hc, rfl⟩) hx
    · have := congrArg BitVec.toNat e
      simp only [BitVec.toNat_ofNat] at this
      have e0 : (0 : BitVec 8).toNat = 0 := rfl
      omega

/-- The code table as `Code(s)` reads it back (10_state.md R38). -/
theorem code_setCodes (s : State) (cs : List (Byte × List Bool)) (hlen : ∀ p ∈ cs, 1 ≤ p.2.length ∧ p.2.length ≤ 255)
    (x : Byte) : (s.setCodes (clenTable cs) (cbitsTable cs)).code x = codeMap cs x := by
  obtain ⟨h1, h2, h3, -, -⟩ := tables_spec cs hlen x
  simp only [State.code, State.setCodes_clen, State.setCodes_cbits, h1]
  apply List.ext_getElem (by simp)
  intro i ha hb
  simp only [List.getElem_map, List.getElem_range]
  rw [h3 i (by omega)]
  simp [List.getD_eq_getElem?_getD, hb]

/-- Invariant 4 of 10_state.md R43 after CGEN. -/
theorem codeInv_setCodes (s : State) (cs : List (Byte × List Bool)) (hlen : ∀ p ∈ cs, 1 ≤ p.2.length ∧ p.2.length ≤ 255) :
    CodeInv (s.setCodes (clenTable cs) (cbitsTable cs)) := by
  intro x j h1 h2
  obtain ⟨a, -, c, -, -⟩ := tables_spec cs hlen x
  simp only [State.setCodes_clen, State.setCodes_cbits] at h1 ⊢
  rw [c j h2]
  rw [a] at h1
  simp [List.getD_eq_getElem?_getD, List.getElem?_eq_none h1]

end Sys2Proof.Machine
end

