-- ==== Sys2Proof/Laws/Count.lean ====
section
/-! SUPPORT. The frequency counter: what its two tables hold (40_frequency_counter.md R110 to R112). -/

namespace Sys2Proof.Machine

open Sys2Proof.Safety

theorem mem_countSeq (B : List Byte) (x : Byte) : x ∈ countSeq B ↔ x ∈ B := by
  induction B with
  | nil => simp [countSeq]
  | cons b bs ih =>
    simp only [countSeq, List.mem_cons, List.mem_filter, ih, bne_iff_ne]
    by_cases h : x = b <;> simp [h]

theorem countSeq_nodup (B : List Byte) : (countSeq B).Nodup := by
  induction B with
  | nil => simp [countSeq]
  | cons b bs ih =>
    simp only [countSeq, List.nodup_cons, List.mem_filter, bne_self_eq_false, Bool.false_eq_true, and_false,
      not_false_eq_true, true_and]
    exact ih.filter _

theorem countSeq_eq_nil (B : List Byte) : countSeq B = [] ↔ B = [] := by
  cases B <;> simp [countSeq]

/-- There are at most 256 distinct symbols. -/
theorem nodup_length_le (S : List Byte) (h : S.Nodup) : S.length ≤ 256 := by
  have h2 : (S.map BitVec.toNat).Nodup := h.map fun x y e => BitVec.eq_of_toNat_eq e
  have := (h2.subperm (l₂ := List.range 256) fun x hx => by
    obtain ⟨b, -, rfl⟩ := List.mem_map.1 hx
    exact List.mem_range.2 b.isLt).length_le
  simpa using this

theorem countSeq_firstAppearance (B : List Byte) : FirstAppearance B (countSeq B) := by
  refine ⟨countSeq_nodup B, mem_countSeq B, ?_⟩
  induction B with
  | nil => simp [countSeq]
  | cons b bs ih =>
    simp only [countSeq, List.pairwise_cons]
    refine ⟨fun y hy => ?_, ?_⟩
    · have : y ≠ b := by simpa using (List.mem_filter.1 hy).2
      simp [List.idxOf_cons_ne _ (Ne.symm this)]
    · refine List.Pairwise.imp_of_mem ?_ (ih.filter _)
      intro x y hx hy h
      have hx : x ≠ b := by simpa using (List.mem_filter.1 hx).2
      have hy : y ≠ b := by simpa using (List.mem_filter.1 hy).2
      rw [List.idxOf_cons_ne _ (Ne.symm hx), List.idxOf_cons_ne _ (Ne.symm hy)]
      omega

/-- FREQ after a count, for a sequence that a 32-bit length can name. -/
theorem symGet_freqTable (B : List Byte) (sym : Byte) (h : B.length < 2 ^ 32) :
    (symGet (freqTable B) sym).toNat = B.count sym := by
  have := List.count_le_length (a := sym) (l := B)
  simp only [symGet, freqTable, Vector.getElem_ofFn, countFreq, BitVec.ofNat_toNat, BitVec.toNat_ofNat,
    BitVec.setWidth_eq]
  omega

/-- The first entries of SEQ after a count are the distinct symbols. -/
theorem seqTable_take (B : List Byte) : (seqTable B).toList.take (countSeq B).length = countSeq B := by
  have hl := nodup_length_le _ (countSeq_nodup B)
  apply List.ext_getElem
  · simp; omega
  · intro i h1 h2
    simp [seqTable, List.getD_eq_getElem?_getD, h2]

theorem seqTable_rest (B : List Byte) (i : Fin 256) (h : (countSeq B).length ≤ i.val) : (seqTable B)[i] = 0 := by
  simp [seqTable, List.getD_eq_getElem?_getD, h]

theorem window_length (s : State) : s.window.length = s.srcLen.toNat := by
  simp [State.window, State.ibufRange]

/-- K, SEQ and FREQ after FCNT. -/
theorem fcntBody_counts (s : State) : ∃ t, fcntBody s = .done t ∧
    t = s.setCount t.freq t.seq t.k ∧
    (∀ sym, (symGet t.freq sym).toNat = s.window.count sym) ∧ t.seqList = countSeq s.window ∧
    t.k.toNat = (countSeq s.window).length ∧ ∀ i : Fin 256, t.k.toNat ≤ i.val → t.seq[i] = 0 := by
  have hl := nodup_length_le _ (countSeq_nodup s.window)
  have hk : (BitVec.ofNat 9 (countSeq s.window).length).toNat = (countSeq s.window).length := by
    simp only [BitVec.toNat_ofNat]; omega
  refine ⟨_, rfl, rfl, ?_, ?_, hk, ?_⟩
  · intro sym
    refine symGet_freqTable s.window sym ?_
    rw [window_length]; exact s.srcLen.isLt
  · show List.take (BitVec.ofNat 9 (countSeq s.window).length).toNat (seqTable s.window).toList = _
    rw [hk, seqTable_take]
  · intro i hi
    refine seqTable_rest s.window i ?_
    rw [← hk]; exact hi

end Sys2Proof.Machine
end

