-- ==== Sys2Proof/Laws/TreeCodec.lean ====
section
/-! SUPPORT. The big-endian fields, and what the deserializer accepts: exactly the serialized trees that fit the arena, laid out in
pre-order (45_tree_codec.md R160 to R167). -/

namespace Sys2Proof.Machine

open Sys2Proof.Safety

theorem unBE32_be32 (v : Word) :
    unBE32 (v.extractLsb' 24 8) (v.extractLsb' 16 8) (v.extractLsb' 8 8) (v.extractLsb' 0 8) = v := by
  apply BitVec.eq_of_getLsbD_eq
  intro i hi
  simp only [unBE32, BitVec.getLsbD_append, BitVec.getLsbD_extractLsb']
  by_cases h1 : i < 8
  · simp [h1]
  · by_cases h2 : i < 16
    · have : i - 8 < 8 := by omega
      have e : 8 + (i - 8) = i := by omega
      simp [h1, this, e]
    · by_cases h3 : i < 24
      · have a : ¬ i - 8 < 8 := by omega
        have b : i - 8 - 8 < 8 := by omega
        have e : 16 + (i - 8 - 8) = i := by omega
        simp [h1, a, b, e]
      · have a : ¬ i - 8 < 8 := by omega
        have b : ¬ i - 8 - 8 < 8 := by omega
        have c : i - 8 - 8 - 8 < 8 := by omega
        have e : 24 + (i - 8 - 8 - 8) = i := by omega
        simp [h1, a, b, c, e]

theorem be32_unBE32 (b0 b1 b2 b3 : Byte) : be32 (unBE32 b0 b1 b2 b3) = [b0, b1, b2, b3] := by
  have key : ∀ (x : Byte) (k : Nat) (v : Word), (∀ i, i < 8 → v.getLsbD (k + i) = x.getLsbD i) → v.extractLsb' k 8 = x := by
    intro x k v h
    apply BitVec.eq_of_getLsbD_eq
    intro i hi
    simp [hi, h i hi]
  unfold be32
  rw [key b0 24, key b1 16, key b2 8, key b3 0]
  all_goals intro i hi
  all_goals simp only [unBE32, BitVec.getLsbD_append]
  · simp [hi]
  · have a : ¬ 8 + i < 8 := by omega
    have e : 8 + i - 8 = i := by omega
    simp [a, hi, e]
  · have a : ¬ 16 + i < 8 := by omega
    have b : ¬ 16 + i - 8 < 8 := by omega
    have e : 16 + i - 8 - 8 = i := by omega
    simp [a, b, hi, e]
  · have a : ¬ 24 + i < 8 := by omega
    have b : ¬ 24 + i - 8 < 8 := by omega
    have c : ¬ 24 + i - 8 - 8 < 8 := by omega
    have e : 24 + i - 8 - 8 - 8 = i := by omega
    simp [a, b, c, e]

theorem be32_length (v : Word) : (be32 v).length = 4 := rfl

/-- The nodes of a tree in pre-order, the first with id `n` (45_tree_codec.md R166: LEFT = i + 1, RIGHT after the left subtree). -/
def preNodes : Nat → HTree → List Node
  | _, .leaf s f => [leafNode s f]
  | n, .node f l r => innerNode f (n + 1) (n + 1 + l.size) :: (preNodes (n + 1) l ++ preNodes (n + 1 + l.size) r)

theorem preNodes_length (t : HTree) : ∀ n, (preNodes n t).length = t.size := by
  induction t with
  | leaf => intro n; rfl
  | node f l r ihl ihr => intro n; simp [preNodes, HTree.size, ihl, ihr]; omega

/-- A serialized tree that fits the arena parses, to its nodes in pre-order. -/
theorem parse_serTree (t : HTree) : ∀ (fuel n : Nat) (rest : List Byte), t.depth < fuel → n + t.size ≤ 511 →
    parse fuel n (serTree t ++ rest) = .ok (preNodes n t, rest) := by
  induction t with
  | leaf s f =>
    intro fuel n rest hf hn
    obtain ⟨fuel, rfl⟩ : ∃ m, fuel = m + 1 := ⟨fuel - 1, by omega⟩
    have : n ≠ 511 := by simp only [HTree.size] at hn; omega
    simp [serTree, be32, parse, Config.nnodeMax, this, unBE32_be32, preNodes]
  | node f l r ihl ihr =>
    intro fuel n rest hf hn
    simp only [HTree.depth] at hf
    obtain ⟨fuel, rfl⟩ : ∃ m, fuel = m + 1 := ⟨fuel - 1, by omega⟩
    have hl := l.size_pos
    simp only [HTree.size] at hn
    have h1 : n ≠ 511 := by omega
    have e1 := ihl fuel (n + 1) (serTree r ++ rest) (by omega) (by omega)
    have e2 := ihr fuel (n + 1 + l.size) rest (by omega) (by omega)
    simp [serTree, be32, parse, Config.nnodeMax, h1, e1, preNodes_length, e2, unBE32_be32, preNodes]

/-- Whatever parses is a serialized tree that fits the arena, followed by what is left. -/
theorem parse_ok : ∀ (fuel n : Nat) (r : List Byte) (ns : List Node) (rest : List Byte),
    parse fuel n r = .ok (ns, rest) →
    ∃ t : HTree, ns = preNodes n t ∧ r = serTree t ++ rest ∧ (n ≤ 511 → n + t.size ≤ 511) := by
  intro fuel
  induction fuel with
  | zero => intro n r ns rest h; simp [parse] at h
  | succ fuel ih =>
    intro n r ns rest h
    cases r with
    | nil => simp [parse] at h
    | cons tag body =>
      simp only [parse] at h
      split at h
      · next ht =>
        subst ht
        split at h
        · next sym f3 f2 f1 f0 rest' =>
          split at h
          · simp at h
          · next hn =>
            simp only [Except.ok.injEq, Prod.mk.injEq] at h
            obtain ⟨rfl, rfl⟩ := h
            refine ⟨.leaf sym (unBE32 f3 f2 f1 f0), rfl, by simp [serTree, be32_unBE32], ?_⟩
            intro hle
            simp only [Config.nnodeMax] at hn
            simp only [HTree.size]; omega
        · simp at h
      · split at h
        · next ht =>
          subst ht
          split at h
          · next f3 f2 f1 f0 rest' =>
            split at h
            · simp at h
            · next hn =>
              split at h
              · simp at h
              · next ls rest1 h1 =>
                split at h
                · simp at h
                · next rs rest2 h2 =>
                  simp only [Except.ok.injEq, Prod.mk.injEq] at h
                  obtain ⟨rfl, rfl⟩ := h
                  obtain ⟨l, rfl, rfl, hl⟩ := ih _ _ _ _ h1
                  rw [preNodes_length] at h2
                  obtain ⟨t, rfl, rfl, ht⟩ := ih _ _ _ _ h2
                  refine ⟨.node (unBE32 f3 f2 f1 f0) l t, by simp [preNodes, preNodes_length],
                    by simp [serTree, be32_unBE32], ?_⟩
                  intro hle
                  simp only [Config.nnodeMax] at hn
                  have := hl (by omega)
                  have := ht (by omega)
                  simp only [HTree.size]; omega
          · simp at h
        · simp at h

/-- The arena look-up `look` holds the nodes of `t` in pre-order from id `n` on. -/
def StandsAt (look : Nat → Node) (n : Nat) (t : HTree) : Prop :=
  ∀ j, j < t.size → look (n + j) = (preNodes n t).getD j Node.zero

theorem StandsAt.node {look : Nat → Node} {n : Nat} {f : Word} {l r : HTree} (h : StandsAt look n (.node f l r)) :
    look n = innerNode f (n + 1) (n + 1 + l.size) ∧ StandsAt look (n + 1) l ∧ StandsAt look (n + 1 + l.size) r := by
  have hl := l.size_pos
  simp only [StandsAt, HTree.size] at h
  refine ⟨by simpa [preNodes] using h 0 (by omega), fun j hj => ?_, fun j hj => ?_⟩
  · have := h (1 + j) (by omega)
    rw [← Nat.add_assoc] at this
    rw [this]
    simp only [preNodes, List.getD_eq_getElem?_getD]
    rw [Nat.add_comm 1 j, List.getElem?_cons_succ, List.getElem?_append_left (by rw [preNodes_length]; exact hj)]
  · have := h (1 + l.size + j) (by omega)
    have e : n + (1 + l.size + j) = n + 1 + l.size + j := by omega
    rw [e] at this
    rw [this]
    simp only [preNodes, List.getD_eq_getElem?_getD]
    have e2 : 1 + l.size + j = (l.size + j) + 1 := by omega
    rw [e2, List.getElem?_cons_succ, List.getElem?_append_right (by rw [preNodes_length]; omega), preNodes_length]
    congr 3; omega

/-- The nodes of a tree in pre-order hold that tree, in any arena in which they stand from id `n` on. -/
theorem holds_preNodes (t : HTree) : ∀ (n : Nat) (look : Nat → Node), n + t.size ≤ 511 → StandsAt look n t →
    Holds look n t (List.range' n t.size) := by
  induction t with
  | leaf s f =>
    intro n look hn h
    have h0 : look n = leafNode s f := by simpa [preNodes] using h 0 (by simp [HTree.size])
    have := Holds.leaf (look := look) n (by rw [h0]; rfl)
    rw [h0] at this
    exact this
  | node f l r ihl ihr =>
    intro n look hn h
    obtain ⟨h0, hl, hr⟩ := h.node
    simp only [HTree.size] at hn
    have hL := ihl (n + 1) look (by omega) hl
    have hR := ihr (n + 1 + l.size) look (by omega) hr
    have el : (innerNode f (n + 1) (n + 1 + l.size)).left.toNat = n + 1 := by
      have := r.size_pos; simp [innerNode]; omega
    have er : (innerNode f (n + 1) (n + 1 + l.size)).right.toNat = n + 1 + l.size := by
      have := r.size_pos; simp [innerNode]; omega
    have := Holds.node (look := look) n l r _ _ (by rw [h0]; rfl) (by rw [h0, el]; exact hL) (by rw [h0, er]; exact hR)
    rw [h0] at this
    have e3 : List.range' n (1 + l.size + r.size) =
        n :: (List.range' (n + 1) l.size ++ List.range' (n + 1 + l.size) r.size) := by
      rw [Nat.add_assoc, Nat.add_comm 1, List.range'_succ, ← List.range'_append_1]
    simp only [HTree.size, e3]
    exact this

/-- What each node of a tree in pre-order names: a leaf nothing, an internal node the id after its own and the id after its left
subtree (45_tree_codec.md R166). -/
theorem StandsAt.children {look : Nat → Node} (t : HTree) : ∀ (n N : Nat), n + t.size ≤ N → N ≤ 511 → StandsAt look n t →
    ∀ i, n ≤ i → i < n + t.size →
      ((look i).kind = false → (look i).left = 0 ∧ (look i).right = 0) ∧
      ((look i).kind = true → (look i).sym = 0 ∧ (look i).left.toNat = i + 1 ∧
        ∃ ids, visitOf look N 511 (look i).left.toNat = some ids ∧ (look i).right.toNat = i + 1 + ids.length) := by
  induction t with
  | leaf s f =>
    intro n N _ _ h i h1 h2
    have h0 : look n = leafNode s f := by simpa [preNodes] using h 0 (by simp [HTree.size])
    simp only [HTree.size] at h2
    have : i = n := by omega
    subst this
    rw [h0]
    exact ⟨fun _ => ⟨rfl, rfl⟩, fun hk => by cases hk⟩
  | node f l r ihl ihr =>
    intro n N hN h511 h i h1 h2
    obtain ⟨h0, hl, hr⟩ := h.node
    simp only [HTree.size] at hN h2
    by_cases e : i = n
    · subst e
      have el : (innerNode f (i + 1) (i + 1 + l.size)).left.toNat = i + 1 := by simp [innerNode]; omega
      have er : (innerNode f (i + 1) (i + 1 + l.size)).right.toNat = i + 1 + l.size := by simp [innerNode]; omega
      rw [h0, el, er]
      refine ⟨fun hk => (by cases hk), fun _ => ⟨rfl, rfl, List.range' (i + 1) l.size, ?_, by simp⟩⟩
      have hd := l.two_depth_lt_size
      exact ((holds_preNodes l (i + 1) look (by omega) hl).treeOf (n := N) 511 (by omega)
        (fun x hx => by have := List.mem_range'_1.1 hx; omega)).2
    · by_cases e2 : i < n + 1 + l.size
      · exact ihl (n + 1) N (by omega) h511 hl i (by omega) e2
      · exact ihr (n + 1 + l.size) N (by omega) h511 hr i (by omega) (by omega)

/-- `Des` of a region: the absent tree for the empty one, else exactly the serialized trees of at most 511 nodes. -/
theorem des_ok (r : List Byte) (ns : List Node) (h : des r = .ok ns) :
    (r = [] ∧ ns = []) ∨ ∃ t : HTree, ns = preNodes 0 t ∧ r = serTree t ∧ t.size ≤ 511 := by
  simp only [des] at h
  split at h
  · next h0 => exact .inl ⟨h0, by simpa using h.symm⟩
  · split at h
    · simp at h
    · next ns' rest hp =>
      split at h
      · next hr =>
        simp only [Except.ok.injEq] at h
        subst h hr
        obtain ⟨t, h1, h2, h3⟩ := parse_ok _ _ _ _ _ hp
        exact .inr ⟨t, h1, by simpa using h2, by simpa using h3 (by omega)⟩
      · simp at h

theorem serTree_ne_nil (t : HTree) : serTree t ≠ [] := by cases t <;> simp [serTree]

theorem des_serTree (t : HTree) (h : t.size ≤ 511) : des (serTree t) = .ok (preNodes 0 t) := by
  have hd := t.two_depth_lt_size
  have := parse_serTree t 512 0 [] (by omega) (by omega)
  simp only [List.append_nil] at this
  simp [des, serTree_ne_nil, this]

/-- Loading a list of nodes: the listed entries, then the old ones. -/
theorem nodeGet_loadNodes (v : Vector Node 511) (ns : List Node) (i : Nat) (h : i < 511) :
    nodeGet (loadNodes v ns) i = (ns[i]?).getD (nodeGet v i) := by
  simp [nodeGet, loadNodes, h]

/-- The entries from the number of loaded nodes on are as they were (10_state.md R37). -/
theorem loadNodes_above (v : Vector Node 511) (ns : List Node) (i : Nat) (h : ns.length ≤ i) :
    nodeGet (loadNodes v ns) i = nodeGet v i := by
  by_cases hi : i < 511
  · rw [nodeGet_loadNodes _ _ _ hi, List.getElem?_eq_none h]
    simp [nodeGet, hi]
  · simp [nodeGet, hi]

theorem standsAt_loadNodes (v : Vector Node 511) (t : HTree) (h : t.size ≤ 511) :
    StandsAt (nodeGet (loadNodes v (preNodes 0 t))) 0 t := by
  intro j hj
  have hl : j < (preNodes 0 t).length := by rw [preNodes_length]; exact hj
  rw [Nat.zero_add, nodeGet_loadNodes _ _ _ (by omega), List.getD_eq_getElem?_getD]
  simp [List.getElem?_eq_getElem hl]
/-- A state whose arena was loaded with the nodes of a tree in pre-order holds that tree. -/
theorem holds_loadNodes_preNodes (v : Vector Node 511) (t : HTree) (h : t.size ≤ 511) :
    Holds (nodeGet (loadNodes v (preNodes 0 t))) 0 t (List.range t.size) := by
  rw [List.range_eq_range']
  exact holds_preNodes t 0 _ (by omega) (standsAt_loadNodes v t h)

end Sys2Proof.Machine
end

