-- ==== Sys2Proof/Laws/Bodies.lean ====
section
/-! SUPPORT. What the body of each command can do, once: the callers, in the unit commands and in ENC and DEC, cite these. -/

namespace Sys2Proof.Machine

open Sys2Proof.Safety

/-! ### Ranges of IBUF -/

theorem ibufRange_length (s : State) (a n : Nat) : (s.ibufRange a n).length = n := by simp [State.ibufRange]

theorem ibufRange_add (s : State) (a m n : Nat) : s.ibufRange a (m + n) = s.ibufRange a m ++ s.ibufRange (a + m) n := by
  simp only [State.ibufRange, List.range_add, List.map_append, List.map_map]
  congr 1
  apply List.map_congr_left
  intro x _
  simp [Nat.add_assoc]

theorem ibufRange_succ (s : State) (a n : Nat) : s.ibufRange a (n + 1) = s.ibufByte a :: s.ibufRange (a + 1) n := by
  rw [Nat.add_comm n 1, ibufRange_add]; rfl

theorem ibufRange_congr {s t : State} (h : ∀ a, t.ibufByte a = s.ibufByte a) (a n : Nat) :
    t.ibufRange a n = s.ibufRange a n := by simp [State.ibufRange, h]

theorem toNat_append_eq {m n : Nat} (x : BitVec m) (y : BitVec n) : (x ++ y).toNat = x.toNat * 2 ^ n + y.toNat := by
  rw [BitVec.toNat_append, ← Nat.shiftLeft_add_eq_or_of_lt y.isLt, Nat.shiftLeft_eq]

/-- The number that four bytes name, most significant first (00_scope.md R10). -/
theorem unBE32_toNat (b0 b1 b2 b3 : Byte) :
    (unBE32 b0 b1 b2 b3).toNat = b0.toNat * 2 ^ 24 + b1.toNat * 2 ^ 16 + b2.toNat * 2 ^ 8 + b3.toNat := by
  simp only [unBE32, toNat_append_eq]
  omega

/-! ### The bit view -/

theorem flatMap_byteBits_range (f : Nat → Byte) (n : Nat) :
    ((List.range n).map f).flatMap byteBits = (List.range (8 * n)).map fun i => (f (i / 8)).getLsbD (7 - i % 8) := by
  induction n with
  | zero => rfl
  | succ n ih =>
    rw [List.range_succ, List.map_append, List.flatMap_append, ih, Nat.mul_succ, List.range_add, List.map_append]
    congr 1
    simp only [List.map_cons, List.map_nil, List.flatMap_cons, List.flatMap_nil, List.append_nil, byteBits, List.map_map]
    apply List.map_congr_left
    intro i hi
    have hi := List.mem_range.1 hi
    have e1 : (8 * n + i) / 8 = n := by omega
    have e2 : (8 * n + i) % 8 = i := by omega
    simp [e1, e2]

/-- The bits of the view are those of its bytes, without the padding at the end (10_state.md R30, 44_bit_unpacker.md R150). -/
theorem viewBits_eq (s : State) :
    s.viewBits = ((s.ibufRange s.bitOff.toNat s.dataLen.toNat).flatMap byteBits).take s.bitLen := by
  simp only [State.ibufRange, flatMap_byteBits_range, ← List.map_take, List.take_range]
  have : min s.bitLen (8 * s.dataLen.toNat) = s.bitLen := by simp only [State.bitLen]; omega
  rw [this]; rfl

theorem viewOk_iff (s : State) : s.viewOk = true ↔ ViewInv s := by
  simp only [State.viewOk, ViewInv, Bool.and_eq_true, decide_eq_true_eq, Bool.or_eq_true, bne_iff_ne, beq_iff_eq]
  have e1 : s.dataLen.toNat = 0 ↔ s.dataLen = 0 := by
    constructor
    · intro h; exact BitVec.eq_of_toNat_eq h
    · rintro h; rw [h]; rfl
  have e2 : s.pad.toNat = 0 ↔ s.pad = 0 := by
    constructor
    · intro h; exact BitVec.eq_of_toNat_eq h
    · rintro h; rw [h]; rfl
  rw [e2, ne_eq, e1]
  tauto

/-! ### BUNP -/

/-- The three tests of 44_bit_unpacker.md R151 on the window `(off, len)`. -/
def bunpFails (s : State) (off len : Word) : Prop :=
  len = 0 ∨ 7 < (s.ibufByte off.toNat).toNat ∨ (len = 1 ∧ s.ibufByte off.toNat ≠ 0)

theorem unpack_fails (s : State) (off len : Word) (h : bunpFails s off len) :
    unpack (s.ibufRange off.toNat len.toNat) = .error .malformedPayload := by
  by_cases h0 : len = 0
  · subst h0; rfl
  · have hl : len.toNat ≠ 0 := fun e => h0 (BitVec.eq_of_toNat_eq e)
    obtain ⟨n, hn⟩ : ∃ n, len.toNat = n + 1 := ⟨len.toNat - 1, by omega⟩
    rw [hn, ibufRange_succ, unpack]
    rcases h with h | h | ⟨h1, h2⟩
    · exact absurd h h0
    · rw [if_pos h]
    · have : n = 0 := by rw [h1] at hn; simp at hn; omega
      subst this
      split
      · rfl
      · rw [if_pos ⟨rfl, h2⟩]

theorem bunpBody_fails (s : State) (off len : Word) (h : bunpFails s off len) :
    bunpBody off len s = .raised .malformedPayload .bunp (s.setView 0 0 0) ∧
      unpack (s.ibufRange off.toNat len.toNat) = .error .malformedPayload := by
  have hu := unpack_fails s off len h
  exact ⟨by rw [bunpBody, hu], hu⟩

theorem bunpBody_done (s : State) (off len : Word) (h : ¬ bunpFails s off len) (hw : off.toNat + len.toNat < 2 ^ 32) :
    ∃ t, bunpBody off len s = .done t ∧ t = s.setView t.bitOff t.dataLen t.pad ∧ t.bitOff.toNat = off.toNat + 1 ∧
      t.dataLen.toNat + 1 = len.toNat ∧ t.pad.toNat = (s.ibufByte off.toNat).toNat ∧ (t.dataLen = 0 → t.pad = 0) ∧
      unpack (s.ibufRange off.toNat len.toNat) = .ok t.viewBits := by
  simp only [bunpFails, not_or, not_and, not_lt, ne_eq, not_not] at h
  obtain ⟨h0, h1, h2⟩ := h
  have hl : len.toNat ≠ 0 := fun e => h0 (BitVec.eq_of_toNat_eq e)
  obtain ⟨n, hn⟩ : ∃ n, len.toNat = n + 1 := ⟨len.toNat - 1, by omega⟩
  have eb : (off + 1).toNat = off.toNat + 1 := by
    rw [BitVec.toNat_add]; show (off.toNat + 1) % 2 ^ 32 = _; omega
  have ed : (len - 1).toNat = n := by
    rw [BitVec.toNat_sub]; show (2 ^ 32 - 1 + len.toNat) % 2 ^ 32 = n; omega
  have ep : ((s.ibufByte off.toNat).setWidth 3).toNat = (s.ibufByte off.toNat).toNat := by
    rw [BitVec.toNat_setWidth]; omega
  have hu : unpack (s.ibufRange off.toNat len.toNat) =
      .ok (s.setView (off + 1) (len - 1) ((s.ibufByte off.toNat).setWidth 3)).viewBits := by
    rw [hn, ibufRange_succ, unpack, if_neg (by omega)]
    have : ¬ (s.ibufRange (off.toNat + 1) n = [] ∧ s.ibufByte off.toNat ≠ 0) := by
      rintro ⟨a, b⟩
      have : n = 0 := by have := congrArg List.length a; simpa [ibufRange_length] using this
      subst this
      exact b (h2 (BitVec.eq_of_toNat_eq hn))
    rw [if_neg this, viewBits_eq, ibufRange_length]
    simp only [State.bitLen, State.setView_bitOff, State.setView_dataLen, State.setView_pad, eb, ed, ep]
    rfl
  refine ⟨s.setView (off + 1) (len - 1) ((s.ibufByte off.toNat).setWidth 3), by rw [bunpBody, hu], rfl, eb, ?_, ep, ?_, hu⟩
  · show (len - 1).toNat + 1 = _; omega
  · intro hd
    have hd : len - 1 = 0 := hd
    have : n = 0 := by rw [← ed, hd]; rfl
    subst this
    have h3 := h2 (BitVec.eq_of_toNat_eq hn)
    show (s.ibufByte off.toNat).setWidth 3 = 0
    rw [h3]; rfl

/-! ### CPAR -/

/-- `MemRead32(IBUF, a)` (00_scope.md R11): the length field that `Split` reads of a window at `a`. -/
def State.ibufWord (s : State) (a : Nat) : Word :=
  unBE32 (s.ibufByte a) (s.ibufByte (a + 1)) (s.ibufByte (a + 2)) (s.ibufByte (a + 3))

theorem ibufWord_toNat (s : State) (a : Nat) : (s.ibufWord a).toNat =
    (s.ibufByte a).toNat * 2 ^ 24 + (s.ibufByte (a + 1)).toNat * 2 ^ 16 + (s.ibufByte (a + 2)).toNat * 2 ^ 8 +
      (s.ibufByte (a + 3)).toNat := unBE32_toNat _ _ _ _

/-- The two tests of 46_container_format.md R182 on the window `(off, len)`. -/
def cparFails (s : State) (off len : Word) : Prop :=
  len.toNat < 4 ∨ len.toNat - 4 < (s.ibufWord off.toNat).toNat

theorem split_fails (s : State) (off len : Word) (h : cparFails s off len) :
    split (s.ibufRange off.toNat len.toNat) = .error .truncatedContainer := by
  by_cases h4 : len.toNat < 4
  · have hl := ibufRange_length s off.toNat len.toNat
    unfold split
    split
    · next heq => rw [heq] at hl; simp at hl; omega
    · rfl
  · have h := h.resolve_left h4
    obtain ⟨n, hn⟩ : ∃ n, len.toNat = n + 1 + 1 + 1 + 1 := ⟨len.toNat - 4, by omega⟩
    have hn4 : n = len.toNat - 4 := by omega
    rw [hn]
    simp only [ibufRange_succ, split]
    rw [if_pos]
    rw [ibufRange_length, hn4]
    exact h

/-- The two regions of a window that splits. -/
theorem split_done (s : State) (off len : Word) (h : ¬ cparFails s off len) :
    split (s.ibufRange off.toNat len.toNat) =
      .ok (s.ibufRange (off.toNat + 4) (s.ibufWord off.toNat).toNat,
        s.ibufRange (off.toNat + 4 + (s.ibufWord off.toNat).toNat) (len.toNat - 4 - (s.ibufWord off.toNat).toNat)) := by
  simp only [cparFails, not_or, not_lt] at h
  obtain ⟨h4, hN⟩ := h
  generalize hw : s.ibufWord off.toNat = N at hN ⊢
  obtain ⟨m, hm⟩ : ∃ m, len.toNat = (N.toNat + m) + 1 + 1 + 1 + 1 := ⟨len.toNat - 4 - N.toNat, by omega⟩
  rw [hm]
  simp only [ibufRange_succ, split]
  have hu : unBE32 (s.ibufByte off.toNat) (s.ibufByte (off.toNat + 1)) (s.ibufByte (off.toNat + 1 + 1))
      (s.ibufByte (off.toNat + 1 + 1 + 1)) = N := hw
  rw [hu, if_neg (by rw [ibufRange_length]; omega), ibufRange_add]
  have el : (s.ibufRange (off.toNat + 1 + 1 + 1 + 1) N.toNat).length = N.toNat := ibufRange_length _ _ _
  have em : N.toNat + m + 1 + 1 + 1 + 1 - 4 - N.toNat = m := by omega
  rw [List.take_left' el, List.drop_left' el, em]

theorem cparBody_fails (s : State) (off len : Word) (h : cparFails s off len) :
    cparBody off len s = .raised .truncatedContainer .cfmt (s.setParse 0 0 0 0) ∧
      split (s.ibufRange off.toNat len.toNat) = .error .truncatedContainer := by
  have hs := split_fails s off len h
  exact ⟨by rw [cparBody, hs], hs⟩

theorem cparBody_done (s : State) (off len : Word) (h : ¬ cparFails s off len) (hw : off.toNat + len.toNat < 2 ^ 32) :
    ∃ t, cparBody off len s = .done t ∧ t = s.setParse t.treeOff t.treeLen t.payOff t.payLen ∧
      t.treeOff.toNat = off.toNat + 4 ∧ t.treeLen = s.ibufWord off.toNat ∧
      t.payOff.toNat = t.treeOff.toNat + t.treeLen.toNat ∧ t.payOff.toNat + t.payLen.toNat = off.toNat + len.toNat ∧
      split (s.ibufRange off.toNat len.toNat) =
        .ok (s.ibufRange t.treeOff.toNat t.treeLen.toNat, s.ibufRange t.payOff.toNat t.payLen.toNat) := by
  have hs := split_done s off len h
  simp only [cparFails, not_or, not_lt] at h
  obtain ⟨h4, hN⟩ := h
  generalize hN' : s.ibufWord off.toNat = N at hN hs ⊢
  have hlt := len.isLt
  have e1 : (off + 4).toNat = off.toNat + 4 := by rw [BitVec.toNat_add]; show (off.toNat + 4) % 2 ^ 32 = _; omega
  have e2 : (off + 4 + N).toNat = off.toNat + 4 + N.toNat := by rw [BitVec.toNat_add, e1]; omega
  have e4 : (BitVec.ofNat 32 (len.toNat - 4 - N.toNat)).toNat = len.toNat - 4 - N.toNat := by
    rw [BitVec.toNat_ofNat]; omega
  refine ⟨s.setParse (off + 4) N (off + 4 + N) (BitVec.ofNat 32 (len.toNat - 4 - N.toNat)), ?_, rfl, e1, rfl, ?_, ?_, ?_⟩
  · simp only [cparBody, hs, ibufRange_length, BitVec.ofNat_toNat, BitVec.setWidth_eq]
  · show (off + 4 + N).toNat = (off + 4).toNat + N.toNat; omega
  · simp only [State.setParse_payOff, State.setParse_payLen, e2, e4]; omega
  · simp only [State.setParse_treeOff, State.setParse_treeLen, State.setParse_payOff, State.setParse_payLen, e1, e2, e4, hs]

/-! ### TDES -/

theorem tdesBody_done (s : State) (off len : Word) (ns : List Node) (h : des (s.ibufRange off.toNat len.toNat) = .ok ns) :
    tdesBody off len s = .done (s.setTree (loadNodes s.node ns) (BitVec.ofNat 9 ns.length) 0) := by
  simp [tdesBody, h]

theorem tdesBody_fails (s : State) (off len : Word) (e : ErrKind) (h : des (s.ibufRange off.toNat len.toNat) = .error e) :
    tdesBody off len s = .raised e .tdes s.dropTree := by
  simp [tdesBody, h]

theorem holdsTree_of_holds (t : State) (tr : HTree) (ids : List Nat) (h0 : t.nnodes ≠ 0)
    (h : Holds (nodeGet t.node) t.root.toNat tr ids) (hp : ids.Perm (List.range t.nnodes.toNat)) :
    HoldsTree t (some tr) := currentTree_of_holds t tr ids h0 h hp

theorem holdsTree_absent (t : State) (h : t.nnodes = 0) : HoldsTree t none := by
  show t.currentTree = .absent
  rw [State.currentTree, if_pos h]

/-- The arena that a successful `Des` leaves: exactly one tree, or none. -/
theorem loadNodes_des (s : State) (r : List Byte) (ns : List Node) (h : des r = .ok ns) :
    ∃ ot, r = ser ot ∧ nodeCount ot ≤ 511 ∧ ns.length = nodeCount ot ∧
      HoldsTree (s.setTree (loadNodes s.node ns) (BitVec.ofNat 9 ns.length) 0) ot ∧
      SameNodesAbove s (s.setTree (loadNodes s.node ns) (BitVec.ofNat 9 ns.length) 0) ∧
      ArenaInv (s.setTree (loadNodes s.node ns) (BitVec.ofNat 9 ns.length) 0) := by
  have above : ns.length ≤ 511 → SameNodesAbove s (s.setTree (loadNodes s.node ns) (BitVec.ofNat 9 ns.length) 0) := by
    intro hl i hi
    have e : (BitVec.ofNat 9 ns.length).toNat = ns.length := by rw [BitVec.toNat_ofNat]; omega
    exact loadNodes_above _ _ _ (e ▸ hi)
  rcases des_ok r ns h with ⟨rfl, rfl⟩ | ⟨t, rfl, rfl, ht⟩
  · refine ⟨none, rfl, by simp [nodeCount], rfl, holdsTree_absent _ rfl, above (by simp), .inl ⟨rfl, rfl⟩⟩
  · have hh := holds_loadNodes_preNodes s.node t ht
    have hn : (BitVec.ofNat 9 (preNodes 0 t).length).toNat = t.size := by
      rw [preNodes_length, BitVec.toNat_ofNat]; omega
    have hp : (List.range t.size).Perm
        (List.range (s.setTree (loadNodes s.node (preNodes 0 t)) (BitVec.ofNat 9 (preNodes 0 t).length) 0).nnodes.toNat) := by
      rw [State.setTree_nnodes, hn]
    have h0 : BitVec.ofNat 9 (preNodes 0 t).length ≠ 0 := by
      intro e
      have := congrArg BitVec.toNat e
      rw [hn] at this
      have := t.size_pos
      simp at *; omega
    exact ⟨some t, rfl, ht, preNodes_length t 0, holdsTree_of_holds _ t _ h0 hh hp,
      above (by rw [preNodes_length]; exact ht), arenaInv_of_holds _ t _ hh hp⟩

/-! ### TBLD -/

theorem nodeGet_lookNodes (v : Vector Node 511) (ns : List Node) (i : Nat) (h : i < ns.length) (hn : ns.length ≤ 511) :
    nodeGet (loadNodes v ns) i = lookNodes ns i := by
  rw [nodeGet_loadNodes _ _ _ (by omega), lookNodes]
  simp [List.getElem?_eq_getElem h]

theorem seqList_length (s : State) (h : s.k.toNat ≤ 256) : s.seqList.length = s.k.toNat := by
  simp [State.seqList]; omega

/-- TBLD for a count of 1 to 256 symbols: the arena holds the tree of `Build`, and no other node (41_tree_builder.md R124). -/
theorem tbldBody_build (s : State) (h0 : s.k ≠ 0) (hk : s.k.toNat ≤ 256) :
    ∃ t tr, tbldBody s = .done t ∧ t = s.setTree t.node t.nnodes t.root ∧
      t.node = loadNodes s.node (build (fun sym => (symGet s.freq sym).toNat) s.seqList) ∧
      t.nnodes.toNat = 2 * s.k.toNat - 1 ∧ t.root.toNat = 2 * s.k.toNat - 2 ∧
      treeOfNodes (build (fun sym => (symGet s.freq sym).toNat) s.seqList) (2 * s.k.toNat - 2) = some tr ∧
      HoldsTree t (some tr) ∧ SameNodesAbove s t ∧ ArenaInv t ∧ tr.size = 2 * s.k.toNat - 1 ∧ tr.syms.Perm s.seqList := by
  have hk0 : s.k.toNat ≠ 0 := fun e => h0 (BitVec.eq_of_toNat_eq e)
  have hl := seqList_length s hk
  obtain ⟨tr, ids, h1, h2, h3, h4, h5⟩ := build_tree (fun sym => (symGet s.freq sym).toNat) s.seqList
    (by intro e; rw [e] at hl; simp at hl; omega) (by omega)
  rw [hl] at h1 h3 h4
  have hn : (BitVec.ofNat 9 (2 * s.k.toNat - 1)).toNat = 2 * s.k.toNat - 1 := by rw [BitVec.toNat_ofNat]; omega
  have hr : (BitVec.ofNat 9 (2 * s.k.toNat - 2)).toNat = 2 * s.k.toNat - 2 := by rw [BitVec.toNat_ofNat]; omega
  let A := build (fun sym => (symGet s.freq sym).toNat) s.seqList
  let t := s.setTree (loadNodes s.node A) (BitVec.ofNat 9 (2 * s.k.toNat - 1)) (BitVec.ofNat 9 (2 * s.k.toNat - 2))
  have hlt : ∀ x ∈ ids, x < A.length := fun x hx => by rw [h1]; exact List.mem_range.1 (h4.mem_iff.1 hx)
  have hh : Holds (nodeGet t.node) t.root.toNat tr ids := by
    show Holds (nodeGet (loadNodes s.node A)) (BitVec.ofNat 9 (2 * s.k.toNat - 2)).toNat tr ids
    rw [hr]
    exact h3.congr fun x hx => nodeGet_lookNodes _ _ _ (hlt x hx) (by rw [h1]; omega)
  have hp : ids.Perm (List.range t.nnodes.toNat) := by
    show ids.Perm (List.range (BitVec.ofNat 9 (2 * s.k.toNat - 1)).toNat)
    rw [hn]; exact h4
  have hnn : t.nnodes ≠ 0 := by
    intro e
    have e : BitVec.ofNat 9 (2 * s.k.toNat - 1) = 0 := e
    have := congrArg BitVec.toNat e
    rw [hn] at this
    simp at this; omega
  have hsz : tr.size = 2 * s.k.toNat - 1 := by rw [← h3.length, h4.length_eq, List.length_range]
  refine ⟨t, tr, ?_, rfl, rfl, hn, hr, ?_, holdsTree_of_holds t tr ids hnn hh hp, fun i hi => loadNodes_above _ _ _ ?_,
    arenaInv_of_holds t tr ids hh hp, hsz, h5⟩
  · simp only [tbldBody]
    rw [if_neg (by omega), if_neg h0]
  · have hd := tr.two_depth_lt_size
    exact (h3.treeOf (n := A.length) A.length (by rw [h1]; omega) hlt).1
  · rw [h1]; exact hn ▸ hi

theorem tbldBody_zero (s : State) (h0 : s.k = 0) : tbldBody s = .done (s.setTree s.node 0 0) := by
  simp only [tbldBody]
  rw [if_neg (by rw [h0]; decide), if_pos h0]

/-! ### CGEN, TSER and WALK: bodies on CurrentTree -/

theorem withTree_of_holds (s : State) (ot : Option HTree) (h : HoldsTree s ot) (f : Option HTree → BodyResult) :
    withTree s f = f ot := by
  cases ot with
  | none => simp only [HoldsTree] at h; simp [withTree, h]
  | some t => simp only [HoldsTree] at h; simp [withTree, h]

/-- A tree in the arena has NNODES nodes, at most 511. -/
theorem holdsTree_size (s : State) (ot : Option HTree) (h : HoldsTree s ot) : nodeCount ot = s.nnodes.toNat := by
  cases ot with
  | none =>
    simp only [HoldsTree, State.currentTree] at h
    split at h
    · next h0 => simp [nodeCount, h0]
    · split at h
      · split at h <;> cases h
      · cases h
  | some t =>
    simp only [HoldsTree, State.currentTree] at h
    split at h
    · cases h
    · split at h
      · split at h
        · next hs => cases h; exact hs
        · cases h
      · cases h

theorem holdsTree_size_le (s : State) (ot : Option HTree) (h : HoldsTree s ot) : nodeCount ot ≤ 511 := by
  rw [holdsTree_size s ot h]; have := s.nnodes.isLt; omega

/-- Under invariant 3 the state has a CurrentTree (10_state.md R44). -/
theorem holdsTree_of_arenaInv (s : State) (h : ArenaInv s) : ∃ ot, HoldsTree s ot := by
  rcases holds_of_arenaInv s h with ⟨-, -, h⟩ | ⟨t, _, -, h, -⟩
  · exact ⟨none, h⟩
  · exact ⟨some t, h⟩

theorem cgenBody_of_holds (s : State) (ot : Option HTree) (h : HoldsTree s ot) :
    cgenBody s = .done (s.setCodes (clenTable (codes ot)) (cbitsTable (codes ot))) := withTree_of_holds s ot h _

theorem tserBody_of_holds (s : State) (ot : Option HTree) (h : HoldsTree s ot) :
    tserBody s = appendBytes .tser (ser ot) s := withTree_of_holds s ot h _

theorem serTree_length (t : HTree) : (serTree t).length = (11 * t.size + 1) / 2 := by
  have key : 2 * (serTree t).length = 11 * t.size + 1 := by
    induction t with
    | leaf => rfl
    | node f l r ihl ihr => simp [serTree, be32_length, HTree.size]; omega
  omega

theorem ser_length (ot : Option HTree) : (ser ot).length = serLen (nodeCount ot) := by
  cases ot with
  | none => rfl
  | some t =>
    have h : t.size ≠ 0 := by have := t.size_pos; omega
    rw [show nodeCount (some t) = t.size from rfl, serLen, if_neg h]
    exact serTree_length t

theorem chdrBody_of_holds (s : State) (ot : Option HTree) (h : HoldsTree s ot) :
    chdrBody s = appendBytes .cfmt (be32 (BitVec.ofNat 32 (ser ot).length)) s := by
  rw [chdrBody, ser_length, holdsTree_size s ot h]

/-! ### BPCK -/

theorem stream_length (B : List Byte) (code : Byte → List Bool) :
    (stream B code).length = (B.map fun b => (code b).length).sum := by
  simp [stream, List.length_flatMap]

theorem code_length (s : State) (x : Byte) : (s.code x).length = (symGet s.clen x).toNat := by simp [State.code]

theorem bpckBody_missing (s : State) (h : ∃ b ∈ s.window, symGet s.clen b = 0) :
    bpckBody s = .raised .missingCode .bpck s := by
  have : (s.window.any fun b => symGet s.clen b == 0) = true := by
    obtain ⟨b, h1, h2⟩ := h
    exact List.any_eq_true.2 ⟨b, h1, by simp [h2]⟩
  simp only [bpckBody, this, if_true]

theorem bpckBody_coded (s : State) (h : ∀ b ∈ s.window, symGet s.clen b ≠ 0) :
    bpckBody s = appendBytes .bpck (pack (s.window.flatMap s.code)) s := by
  have : ¬ (s.window.any fun b => symGet s.clen b == 0) = true := by
    intro e
    obtain ⟨b, h1, h2⟩ := List.any_eq_true.1 e
    exact h b h1 (by simpa using h2)
  simp only [bpckBody, if_neg this]
  rfl

/-! ### WALK -/

/-- WALK completes when the walk succeeds and its symbols fit (47_decode_walk.md R192). -/
theorem walkBody_done (s : State) (ot : Option HTree) (out : List Byte) (hv : ViewInv s) (h : HoldsTree s ot)
    (hw : walk ot s.viewBits = (out, none)) (hf : s.olen.toNat + out.length ≤ s.obufSize.toNat) :
    walkBody s = .done (afterAppend s out) := by
  rw [walkBody, if_pos ((viewOk_iff s).2 hv), withTree_of_holds s ot h]
  simp only [hw, appendEach_of_fits _ _ _ hf, BodyResult.andThen]

/-- WALK raises the error the walk ends with, after the symbols before it, when those fit (47_decode_walk.md R194). -/
theorem walkBody_fails (s : State) (ot : Option HTree) (out : List Byte) (e : ErrKind) (hv : ViewInv s) (h : HoldsTree s ot)
    (hw : walk ot s.viewBits = (out, some e)) (hf : s.olen.toNat + out.length ≤ s.obufSize.toNat) :
    walkBody s = .raised e .walk (afterAppend s out) := by
  rw [walkBody, if_pos ((viewOk_iff s).2 hv), withTree_of_holds s ot h]
  simp only [hw, appendEach_of_fits _ _ _ hf, BodyResult.andThen]

/-- WALK raises CapacityExceeded when the symbols emitted do not fit, whatever follows (47_decode_walk.md R194). -/
theorem walkBody_full (s : State) (ot : Option HTree) (out : List Byte) (e : Option ErrKind) (hv : ViewInv s)
    (ho : OutputInv s) (h : HoldsTree s ot) (hw : walk ot s.viewBits = (out, e))
    (hf : s.obufSize.toNat < s.olen.toNat + out.length) :
    ∃ cs, s.olen.toNat + cs.length ≤ s.obufSize.toNat ∧
      walkBody s = .raised .capacityExceeded .walk (afterAppend s cs) := by
  rw [walkBody, if_pos ((viewOk_iff s).2 hv), withTree_of_holds s ot h]
  obtain ⟨cs, h1, h2⟩ := appendEach_of_full .walk out s ho hf
  exact ⟨cs, h1, by simp only [hw, h2, BodyResult.andThen]⟩

end Sys2Proof.Machine
end

