-- ==== Sys2Proof/Laws/Commands.lean ====
section
/-! SUPPORT. Every command but RST as the wrapper around its body, so that a proof over all commands goes through the wrapper once. -/

namespace Sys2Proof.Machine

open Sys2Proof.Safety

/-- The form of each command in the wrapper (30_encoding.md R82); RST does not run in it. -/
def commandForm : Instr → CommandForm
  | .nop => { op := 0x00, window := false, appends := false, clears := false }
  | .fcnt => { op := 0x01, window := true, appends := false, clears := false }
  | .tbld => { op := 0x02, window := false, appends := false, clears := false }
  | .cgen => { op := 0x03, window := false, appends := false, clears := false }
  | .bpck => { op := 0x04, window := true, appends := true, clears := false }
  | .bunp => { op := 0x05, window := true, appends := false, clears := false }
  | .tser => { op := 0x06, window := false, appends := true, clears := false }
  | .tdes => { op := 0x07, window := true, appends := false, clears := false }
  | .chdr => { op := 0x08, window := false, appends := true, clears := false }
  | .cpar => { op := 0x09, window := true, appends := false, clears := false }
  | .walk => { op := 0x0A, window := false, appends := true, clears := false }
  | .enc => { op := 0x0B, window := true, appends := true, clears := true }
  | .dec => { op := 0x0C, window := true, appends := true, clears := true }
  | .oclr => { op := 0x0D, window := false, appends := false, clears := false }
  | .rst => { op := 0x0E, window := false, appends := false, clears := false }

/-- The body of each command (40_ to 49_); RST has none in the wrapper. -/
def commandBody : Instr → State → BodyResult
  | .nop, s => .done s
  | .fcnt, s => fcntBody s
  | .tbld, s => tbldBody s
  | .cgen, s => cgenBody s
  | .bpck, s => bpckBody s
  | .bunp, s => bunpBody s.srcOff s.srcLen s
  | .tser, s => tserBody s
  | .tdes, s => tdesBody s.srcOff s.srcLen s
  | .chdr, s => chdrBody s
  | .cpar, s => cparBody s.srcOff s.srcLen s
  | .walk, s => walkBody s
  | .enc, s => encBody s
  | .dec, s => decBody s
  | .oclr, s => oclrBody s
  | .rst, s => .done s

/-- Every command but RST is its body in the wrapper (49_control.md R220). -/
theorem exec_eq_runCommand (i : Instr) (s : State) (h : i ≠ .rst) :
    exec i s = runCommand (commandForm i) (commandBody i) s := by
  cases i <;> first | rfl | exact absurd rfl h

theorem exec_rst (s : State) : exec .rst s = .next s.softReset := rfl

theorem commandForm_op (i : Instr) : (commandForm i).op = opcode i := by cases i <;> rfl

theorem commandForm_window (i : Instr) : (commandForm i).window = true ↔ i ∈ windowCommands := by
  cases i <;> decide

/-- All that a command other than RST can answer with a next state. -/
theorem exec_next_cases (i : Instr) (s t : State) (h : i ≠ .rst) (he : exec i s = .next t) :
    (i ∈ windowCommands ∧ s.windowOk = false ∧ t = s.finish (some (.badWindow, .ctrl)) (opcode i)) ∨
    (∃ u, commandBody i s = .done u ∧ t = u.finish none (opcode i)) ∨
    (∃ e b u, commandBody i s = .raised e b u ∧ t = takeError (commandForm i) s.olen e b u) := by
  rw [exec_eq_runCommand i s h] at he
  rcases runCommand_cases (commandForm i) (commandBody i) s with ⟨h1, h2, h3⟩ | ⟨-, ⟨u, h2, h3⟩ | ⟨e, b, u, h2, h3⟩ | ⟨f, h2, h3⟩⟩
  all_goals rw [h3] at he
  all_goals cases he
  · exact .inl ⟨(commandForm_window i).1 h1, h2, by rw [commandForm_op]⟩
  · exact .inr (.inl ⟨u, h2, by rw [commandForm_op]⟩)
  · exact .inr (.inr ⟨e, b, u, h2, rfl⟩)

end Sys2Proof.Machine
end

