-- ==== Sys2Proof/Laws/EndToEnd.lean ====
section
/-! SUPPORT. The sequences of ENC and DEC, step by step (48_end_to_end.md R201, R204). -/

namespace Sys2Proof.Machine

open Sys2Proof.Safety

theorem andThen_assoc (r : BodyResult) (f g : State → BodyResult) :
    (r.andThen f).andThen g = r.andThen fun s => (f s).andThen g := by cases r <;> rfl

/-- The tree of an input: absent for the empty one, else a tree whose leaves are its distinct symbols. -/
theorem inputTree_cases (B : List Byte) :
    (B = [] ∧ inputTree B = none) ∨
      ∃ tr, B ≠ [] ∧ inputTree B = some tr ∧ tr.syms.Perm (countSeq B) ∧ tr.size = 2 * (countSeq B).length - 1 ∧
        tr.size ≤ 511 := by
  by_cases h : B = []
  · subst h; exact .inl ⟨rfl, rfl⟩
  · right
    have hs : countSeq B ≠ [] := fun e => h ((countSeq_eq_nil B).1 e)
    have hl := nodup_length_le _ (countSeq_nodup B)
    obtain ⟨tr, ids, h1, -, h3, h4, h5⟩ := build_tree (countFreq B) (countSeq B) hs hl
    have hsz : tr.size = 2 * (countSeq B).length - 1 := by rw [← h3.length, h4.length_eq, List.length_range]
    have hd := tr.two_depth_lt_size
    have ht := (h3.treeOf (n := (build (countFreq B) (countSeq B)).length) (build (countFreq B) (countSeq B)).length
      (by rw [h1]; omega) (fun x hx => by rw [h1]; exact List.mem_range.1 (h4.mem_iff.1 hx))).1
    exact ⟨tr, h, by rw [inputTree, if_neg hs]; exact ht, h5, hsz, by omega⟩

theorem nodeCount_inputTree (B : List Byte) : nodeCount (inputTree B) ≤ 511 := by
  rcases inputTree_cases B with ⟨-, h⟩ | ⟨tr, -, h, -, -, hs⟩
  · rw [h]; simp [nodeCount]
  · rw [h]; exact hs

theorem mem_codes_inputTree (B : List Byte) (b : Byte) : b ∈ (codes (inputTree B)).map Prod.fst ↔ b ∈ B := by
  rcases inputTree_cases B with ⟨h0, h⟩ | ⟨tr, -, h, hp, -, -⟩
  · subst h0; rw [h]; simp [codes]
  · rw [h, codes_syms, hp.mem_iff, mem_countSeq]

/-- What the steps OCLR, FCNT, TBLD, CGEN of ENC do: the tables are those of the window, nothing else but OLEN changes. -/
theorem encTables (s : State) : ∃ t,
    (((oclrBody s).andThen fcntBody).andThen tbldBody).andThen cgenBody = .done t ∧
      t = (((s.setOlen 0).setCount t.freq t.seq t.k).setTree t.node t.nnodes t.root).setCodes t.clen t.cbits ∧
      TablesOf s.window t ∧ (∀ b ∈ s.window, symGet t.clen b ≠ 0) ∧ t.seqList = countSeq s.window ∧
      SameNodesAbove s t ∧ CountInv t ∧ ArenaInv t ∧ CodeInv t := by
  have hcl := codes_length_option _ (nodeCount_inputTree s.window)
  obtain ⟨c, hc1, hc2, hc3, hc4, hc5, hc6⟩ := fcntBody_counts (s.setOlen 0)
  have hw : (s.setOlen 0).window = s.window := rfl
  rw [hw] at hc3 hc4 hc5
  have hl := nodup_length_le _ (countSeq_nodup s.window)
  have hF : (fun sym => (symGet c.freq sym).toNat) = countFreq s.window := funext hc3
  have tree : ∃ t, tbldBody c = .done t ∧ t = c.setTree t.node t.nnodes t.root ∧ HoldsTree t (inputTree s.window) ∧
      SameNodesAbove c t ∧ ArenaInv t := by
    by_cases h0 : c.k = 0
    · have hk0 : (countSeq s.window).length = 0 := by rw [← hc5, h0]; rfl
      have hn : s.window = [] := (countSeq_eq_nil _).1 (List.eq_nil_of_length_eq_zero hk0)
      refine ⟨_, tbldBody_zero c h0, rfl, ?_, fun _ _ => rfl, .inl ⟨rfl, rfl⟩⟩
      rw [hn]
      exact holdsTree_absent _ rfl
    · obtain ⟨t, tr, h1, h2, -, -, -, h6, h7, h7', h8, -, -⟩ := tbldBody_build c h0 (by omega)
      refine ⟨t, h1, h2, ?_, h7', h8⟩
      have hs : countSeq s.window ≠ [] := by
        intro e
        rw [e] at hc5
        exact h0 (BitVec.eq_of_toNat_eq hc5)
      rw [hF, hc4, hc5] at h6
      rw [inputTree, if_neg hs, h6]
      exact h7
  obtain ⟨t, ht1, ht2, ht3, ht3', ht4⟩ := tree
  have hcn : c.node = s.node := by rw [hc2]; rfl
  let u := t.setCodes (clenTable (codes (inputTree s.window))) (cbitsTable (codes (inputTree s.window)))
  have hfreq : u.freq = c.freq := by show t.freq = _; rw [ht2]; rfl
  have hseq : u.seq = c.seq := by show t.seq = _; rw [ht2]; rfl
  have hk : u.k = c.k := by show t.k = _; rw [ht2]; rfl
  have hsl : u.seqList = countSeq s.window := by
    rw [← hc4]; simp only [State.seqList, hseq, hk]
  have hcount : ∀ sym, (symGet u.freq sym).toNat = s.window.count sym := by rw [hfreq]; exact hc3
  have hklen : u.k.toNat = u.seqList.length := by rw [hsl, hk, hc5]
  refine ⟨u, ?_, ?_, ⟨hcount, ?_, hklen, ht3, ?_⟩, ?_, hsl,
    fun i hi => by rw [← hcn]; exact ht3' i hi, ⟨?_, ?_, ?_, ?_⟩, ht4, codeInv_setCodes t _ hcl⟩
  · simp only [oclrBody, BodyResult.andThen, hc1, ht1, cgenBody_of_holds t _ ht3, u]
  · have e1 : u.node = t.node := rfl
    have e2 : u.nnodes = t.nnodes := rfl
    have e3 : u.root = t.root := rfl
    rw [hfreq, hseq, hk, e1, e2, e3, ← hc2, ← ht2]; rfl
  · rw [hsl]; exact countSeq_firstAppearance _
  · intro sym; exact code_setCodes t _ hcl sym
  · intro b hb
    exact (tables_spec _ hcl b).2.2.2.2 ((mem_codes_inputTree _ _).2 hb)
  · rw [hklen, hsl]; exact hl
  · rw [hsl]; exact countSeq_nodup _
  · intro sym
    rw [hsl, mem_countSeq, hcount sym]
    exact List.one_le_count_iff
  · intro i hi
    have : u.seq[i] = c.seq[i] := by simp only [hseq]
    rw [this]; exact hc6 i (by rw [← hk]; exact hi)

/-- ENC after its table steps: three appends. -/
theorem encBody_appends (s t : State)
    (h : (((oclrBody s).andThen fcntBody).andThen tbldBody).andThen cgenBody = .done t)
    (ht : HoldsTree t (inputTree s.window)) (hw : t.window = s.window) (hc : ∀ b ∈ s.window, symGet t.clen b ≠ 0)
    (hcode : ∀ sym, t.code sym = codeMap (codes (inputTree s.window)) sym) :
    encBody s = ((appendBytes .cfmt (be32 (BitVec.ofNat 32 (ser (inputTree s.window)).length)) t).andThen
      (appendBytes .tser (ser (inputTree s.window)))).andThen
      (appendBytes .bpck (pack (stream s.window (codeMap (codes (inputTree s.window)))))) := by
  have e : encBody s = ((((oclrBody s).andThen fcntBody).andThen tbldBody).andThen cgenBody).andThen fun s4 =>
      (chdrBody s4).andThen fun s5 => (tserBody s5).andThen bpckBody := by
    simp only [encBody, andThen_assoc]
  rw [e, h]
  simp only [BodyResult.andThen]
  rw [chdrBody_of_holds t _ ht]
  have hcode' : t.code = codeMap (codes (inputTree s.window)) := funext hcode
  rcases appendBytes_cases .cfmt (be32 (BitVec.ofNat 32 (ser (inputTree s.window)).length)) t with ⟨-, e1⟩ | ⟨-, e1⟩
  · rw [e1]
    simp only
    have h5 : HoldsTree (afterAppend t (be32 (BitVec.ofNat 32 (ser (inputTree s.window)).length))) (inputTree s.window) := ht
    rw [tserBody_of_holds _ _ h5]
    rcases appendBytes_cases .tser (ser (inputTree s.window))
      (afterAppend t (be32 (BitVec.ofNat 32 (ser (inputTree s.window)).length))) with ⟨-, e2⟩ | ⟨-, e2⟩
    · rw [e2]
      show bpckBody _ = _
      rw [bpckBody_coded _ (by
        intro b hb
        have hb : b ∈ t.window := hb
        rw [hw] at hb
        exact hc b hb)]
      show appendBytes .bpck (pack (t.window.flatMap t.code)) _ = _
      rw [hw, hcode']
      rfl
    · rw [e2]
  · rw [e1]

/-- Three appends that fit are one. -/
theorem append3_of_fits (u v w : BlockUnit) (a b c : List Byte) (t : State)
    (h : t.olen.toNat + (a ++ b ++ c).length ≤ t.obufSize.toNat) :
    ((appendBytes u a t).andThen (appendBytes v b)).andThen (appendBytes w c) = .done (afterAppend t (a ++ b ++ c)) := by
  simp only [List.length_append] at h
  have ha : t.olen.toNat + a.length ≤ t.obufSize.toNat := by omega
  have hab : t.olen.toNat + (a ++ b).length ≤ t.obufSize.toNat := by simp only [List.length_append]; omega
  rw [appendBytes_of_fits u a t ha]
  simp only [BodyResult.andThen]
  have e1 := afterAppend_olen t a ha
  rw [appendBytes_of_fits v b _ (by rw [e1]; show _ ≤ t.obufSize.toNat; omega), afterAppend_append t a b ha]
  simp only
  have e2 := afterAppend_olen t (a ++ b) hab
  simp only [List.length_append] at e2
  rw [appendBytes_of_fits w c _ (by rw [e2]; show _ ≤ t.obufSize.toNat; omega), afterAppend_append t (a ++ b) c hab]

/-- Three appends that do not fit raise CapacityExceeded at the first that does not (48_end_to_end.md R202). -/
theorem append3_of_full (u v w : BlockUnit) (a b c : List Byte) (t : State)
    (h : t.obufSize.toNat < t.olen.toNat + (a ++ b ++ c).length) :
    ∃ cs, ((appendBytes u a t).andThen (appendBytes v b)).andThen (appendBytes w c) =
      .raised .capacityExceeded
        (if t.obufSize.toNat < t.olen.toNat + a.length then u
          else if t.obufSize.toNat < t.olen.toNat + a.length + b.length then v else w) (afterAppend t cs) := by
  simp only [List.length_append] at h
  by_cases ha : t.obufSize.toNat < t.olen.toNat + a.length
  · exact ⟨[], by rw [appendBytes_of_full u a t ha, if_pos ha, afterAppend_nil]; rfl⟩
  · have ha' : t.olen.toNat + a.length ≤ t.obufSize.toNat := by omega
    have e1 := afterAppend_olen t a ha'
    rw [if_neg ha, appendBytes_of_fits u a t ha']
    by_cases hb : t.obufSize.toNat < t.olen.toNat + a.length + b.length
    · refine ⟨a, ?_⟩
      rw [if_pos hb]
      simp only [BodyResult.andThen]
      rw [appendBytes_of_full v b _ (by rw [e1]; exact hb)]
    · have hab : t.olen.toNat + (a ++ b).length ≤ t.obufSize.toNat := by simp only [List.length_append]; omega
      have e2 := afterAppend_olen t (a ++ b) hab
      refine ⟨a ++ b, ?_⟩
      rw [if_neg hb]
      simp only [BodyResult.andThen]
      rw [appendBytes_of_fits v b _ (by rw [e1]; show _ ≤ t.obufSize.toNat; omega), afterAppend_append t a b ha']
      simp only
      rw [appendBytes_of_full w c _ (by rw [e2]; show t.obufSize.toNat < _; simp only [List.length_append]; omega)]

/-! ### DEC -/

/-- The steps of DEC, as long as they succeed and where they fail, on a window that fits (48_end_to_end.md R204, R205). -/
inductive DecSteps (s : State) : BodyResult → Prop
  /-- CPAR fails. -/
  | cpar (h : split s.window = .error .truncatedContainer) :
      DecSteps s (.raised .truncatedContainer .cfmt ((s.setOlen 0).setParse 0 0 0 0))
  /-- TDES fails. -/
  | tdes (p : State) (tr pl : List Byte) (e : ErrKind) (hp : p = (s.setOlen 0).setParse p.treeOff p.treeLen p.payOff p.payLen)
      (h : split s.window = .ok (tr, pl)) (ht : s.ibufRange p.treeOff.toNat p.treeLen.toNat = tr)
      (hl : s.ibufRange p.payOff.toNat p.payLen.toNat = pl)
      (h6 : p.treeOff.toNat = s.srcOff.toNat + 4 ∧ p.payOff.toNat = p.treeOff.toNat + p.treeLen.toNat ∧
        p.payOff.toNat + p.payLen.toNat ≤ s.ibufSize.toNat)
      (hd : des tr = .error e) :
      DecSteps s (.raised e .tdes p.dropTree)
  /-- BUNP fails. -/
  | bunp (p q : State) (tr pl : List Byte) (ot : Option HTree)
      (hp : p = (s.setOlen 0).setParse p.treeOff p.treeLen p.payOff p.payLen)
      (h : split s.window = .ok (tr, pl)) (ht : s.ibufRange p.treeOff.toNat p.treeLen.toNat = tr)
      (hl : s.ibufRange p.payOff.toNat p.payLen.toNat = pl)
      (h6 : p.treeOff.toNat = s.srcOff.toNat + 4 ∧ p.payOff.toNat = p.treeOff.toNat + p.treeLen.toNat ∧
        p.payOff.toNat + p.payLen.toNat ≤ s.ibufSize.toNat)
      (hd : tr = ser ot) (hq : q = p.setTree q.node q.nnodes q.root) (hr : q.root = 0) (hs : nodeCount ot ≤ 511)
      (hot : HoldsTree q ot) (hab : SameNodesAbove p q) (ha : ArenaInv q) (hu : unpack pl = .error .malformedPayload) :
      DecSteps s (.raised .malformedPayload .bunp (q.setView 0 0 0))
  /-- WALK is reached. -/
  | walk (p q v : State) (tr pl : List Byte) (ot : Option HTree)
      (hp : p = (s.setOlen 0).setParse p.treeOff p.treeLen p.payOff p.payLen)
      (h : split s.window = .ok (tr, pl)) (ht : s.ibufRange p.treeOff.toNat p.treeLen.toNat = tr)
      (hl : s.ibufRange p.payOff.toNat p.payLen.toNat = pl)
      (h6 : p.treeOff.toNat = s.srcOff.toNat + 4 ∧ p.payOff.toNat = p.treeOff.toNat + p.treeLen.toNat ∧
        p.payOff.toNat + p.payLen.toNat ≤ s.ibufSize.toNat)
      (hd : tr = ser ot) (hq : q = p.setTree q.node q.nnodes q.root) (hr : q.root = 0) (hs : nodeCount ot ≤ 511)
      (hot : HoldsTree q ot) (hab : SameNodesAbove p q) (ha : ArenaInv q)
      (hv : v = q.setView v.bitOff v.dataLen v.pad) (hvi : ViewInv v) (hu : unpack pl = .ok v.viewBits) :
      DecSteps s (walkBody v)

theorem decBody_steps (s : State) (hw : WindowFits s) : DecSteps s (decBody s) := by
  have hsz := s.ibufSize.isLt
  have hwin : s.srcOff.toNat + s.srcLen.toNat < 2 ^ 32 := by simp only [WindowFits] at hw; omega
  simp only [decBody, oclrBody, BodyResult.andThen]
  by_cases hc : cparFails s s.srcOff s.srcLen
  · obtain ⟨h1, h2⟩ := cparBody_fails (s.setOlen 0) s.srcOff s.srcLen hc
    simp only [State.setOlen_srcOff, State.setOlen_srcLen, h1]
    exact .cpar h2
  · obtain ⟨p, h1, h2, h3, h4, h5, h6, h7⟩ := cparBody_done (s.setOlen 0) s.srcOff s.srcLen hc hwin
    simp only [State.setOlen_srcOff, State.setOlen_srcLen, h1]
    have h7 : split s.window = .ok (s.ibufRange p.treeOff.toNat p.treeLen.toNat, s.ibufRange p.payOff.toNat p.payLen.toNat) := h7
    have hpay : p.payOff.toNat + p.payLen.toNat ≤ s.ibufSize.toNat := by simp only [WindowFits] at hw; omega
    have hib : ∀ a n, p.ibufRange a n = s.ibufRange a n := fun a n => ibufRange_congr (by rw [h2]; exact fun _ => rfl) a n
    cases hd : des (s.ibufRange p.treeOff.toNat p.treeLen.toNat) with
    | error e =>
      rw [tdesBody_fails p _ _ e (by rw [hib]; exact hd)]
      exact .tdes p _ _ e h2 h7 rfl rfl ⟨h3, h5, hpay⟩ hd
    | ok ns =>
      rw [tdesBody_done p _ _ ns (by rw [hib]; exact hd)]
      obtain ⟨ot, g1, g2, -, g4, g4', g5⟩ := loadNodes_des p _ ns hd
      simp only
      generalize hq : p.setTree (loadNodes p.node ns) (BitVec.ofNat 9 ns.length) 0 = q at g4 g4' g5 ⊢
      have hq' : q = p.setTree q.node q.nnodes q.root := by rw [← hq]; rfl
      have hqr : q.root = 0 := by rw [← hq]; rfl
      have eo : q.payOff = p.payOff := by rw [hq']; rfl
      have el : q.payLen = p.payLen := by rw [hq']; rfl
      have hqb : ∀ a n, q.ibufRange a n = s.ibufRange a n := fun a n => by
        rw [← hib]; exact ibufRange_congr (by rw [hq']; exact fun _ => rfl) a n
      rw [eo, el]
      by_cases hb : bunpFails q p.payOff p.payLen
      · obtain ⟨b1, b2⟩ := bunpBody_fails q p.payOff p.payLen hb
        rw [b1]
        rw [hqb] at b2
        exact .bunp p q _ _ ot h2 h7 rfl rfl ⟨h3, h5, hpay⟩ g1 hq' hqr g2 g4 g4' g5 b2
      · obtain ⟨v, b1, b2, b3, b4, -, b6, b7⟩ := bunpBody_done q p.payOff p.payLen hb (by omega)
        rw [b1]
        rw [hqb] at b7
        refine .walk p q v _ _ ot h2 h7 rfl rfl ⟨h3, h5, hpay⟩ g1 hq' hqr g2 g4 g4' g5 b2 ⟨b6, ?_⟩ b7
        have ei : v.ibufSize = s.ibufSize := by rw [b2, hq', h2]; rfl
        rw [ei]; omega

end Sys2Proof.Machine
end

