-- ==== Sys2Proof/Laws/PerInstr.lean ====
section
/-! SUPPORT. What holds of every command as syntax: its word is well formed and decodes to it (30_encoding.md R82, R83). -/

namespace Sys2Proof.Laws.CommandWord

/-- The word of a command is well formed, carries its opcode in bits 7:0, and decodes to the command. -/
def Statement (i : Instr) : Prop :=
  wordWellFormed (encode i) = true ∧ (encode i).extractLsb' 0 8 = opcode i ∧ decode (encode i) = .ok i

theorem nop : Statement .nop := ⟨rfl, rfl, rfl⟩
theorem fcnt : Statement .fcnt := ⟨rfl, rfl, rfl⟩
theorem tbld : Statement .tbld := ⟨rfl, rfl, rfl⟩
theorem cgen : Statement .cgen := ⟨rfl, rfl, rfl⟩
theorem bpck : Statement .bpck := ⟨rfl, rfl, rfl⟩
theorem bunp : Statement .bunp := ⟨rfl, rfl, rfl⟩
theorem tser : Statement .tser := ⟨rfl, rfl, rfl⟩
theorem tdes : Statement .tdes := ⟨rfl, rfl, rfl⟩
theorem chdr : Statement .chdr := ⟨rfl, rfl, rfl⟩
theorem cpar : Statement .cpar := ⟨rfl, rfl, rfl⟩
theorem walk : Statement .walk := ⟨rfl, rfl, rfl⟩
theorem enc : Statement .enc := ⟨rfl, rfl, rfl⟩
theorem dec : Statement .dec := ⟨rfl, rfl, rfl⟩
theorem oclr : Statement .oclr := ⟨rfl, rfl, rfl⟩
theorem rst : Statement .rst := ⟨rfl, rfl, rfl⟩

end Sys2Proof.Laws.CommandWord
end

