-- ==== Sys2Proof/Laws/TreeErrors.lean ====
section
/-! SUPPORT. Which error the deserializer reports: CapacityExceeded exactly when it meets a 512th node (45_tree_codec.md R166, R167). -/

namespace Sys2Proof.Machine

open Sys2Proof.Safety

/-- The records of a tree, in the order of its serialization. -/
def treeRecords : HTree → List (List Byte)
  | .leaf s f => [[0x01, s] ++ be32 f]
  | .node f l r => ([0x06] ++ be32 f) :: (treeRecords l ++ treeRecords r)

theorem treeRecords_flatten (t : HTree) : (treeRecords t).flatten = serTree t := by
  induction t with
  | leaf => simp [treeRecords, serTree]
  | node f l r ihl ihr => simp [treeRecords, serTree, ihl, ihr]

theorem treeRecords_length (t : HTree) : (treeRecords t).length = t.size := by
  induction t with
  | leaf => rfl
  | node f l r ihl ihr => simp [treeRecords, HTree.size, ihl, ihr]; omega

theorem treeRecords_isRecord (t : HTree) : ∀ x ∈ treeRecords t, IsRecord x := by
  induction t with
  | leaf s f => intro x hx; simp only [treeRecords, List.mem_singleton] at hx; subst hx; exact .inl ⟨rfl, rfl⟩
  | node f l r ihl ihr =>
    intro x hx
    simp only [treeRecords, List.mem_cons, List.mem_append] at hx
    rcases hx with rfl | hx | hx
    · exact .inr ⟨rfl, rfl⟩
    · exact ihl x hx
    · exact ihr x hx

/-- Reading records with `d` internal nodes more than leaves so far, the tree is not complete before the end. -/
def OpenFrom : Nat → List (List Byte) → Prop
  | _, [] => True
  | d, x :: xs => if x.length = 6 then 1 ≤ d ∧ OpenFrom (d - 1) xs else OpenFrom (d + 1) xs

theorem OpenFrom.mono {recs : List (List Byte)} : ∀ {d d' : Nat}, d ≤ d' → OpenFrom d recs → OpenFrom d' recs := by
  induction recs with
  | nil => intros; trivial
  | cons x xs ih =>
    intro d d' hd h
    simp only [OpenFrom] at h ⊢
    split at h
    · next h6 => rw [if_pos h6]; exact ⟨by omega, ih (by omega) h.2⟩
    · next h6 => rw [if_neg h6]; exact ih (by omega) h

/-- A whole subtree takes one place. -/
theorem openFrom_treeRecords (t : HTree) : ∀ (d : Nat) (xs : List (List Byte)),
    OpenFrom d (treeRecords t ++ xs) ↔ 1 ≤ d ∧ OpenFrom (d - 1) xs := by
  induction t with
  | leaf s f => intro d xs; simp [treeRecords, OpenFrom, be32]
  | node f l r ihl ihr =>
    intro d xs
    simp only [treeRecords, List.cons_append, List.append_assoc, OpenFrom]
    rw [if_neg (by simp [be32]), ihl]
    simp [ihr]

theorem openFrom_iff (recs : List (List Byte)) (hr : ∀ x ∈ recs, IsRecord x) : ∀ d : Nat, OpenFrom d recs ↔
    ∀ k, k ≤ recs.length → (recs.take k).countP (·.length = 6) ≤ d + (recs.take k).countP (·.length = 5) := by
  induction recs with
  | nil => intro d; simp [OpenFrom]
  | cons x xs ih =>
    intro d
    have ih := ih (fun y hy => hr y (by simp [hy]))
    have hx := hr x (by simp)
    simp only [OpenFrom]
    split
    · next h6 =>
      have h5 : x.length ≠ 5 := by omega
      rw [ih]
      constructor
      · rintro ⟨h1, h⟩ k hk
        cases k with
        | zero => simp
        | succ k => have := h k (by simpa using hk); simp [h6] ; omega
      · intro h
        have h1 := h 1 (by simp)
        simp [h6] at h1
        refine ⟨h1, fun k hk => ?_⟩
        have := h (k + 1) (by simpa using hk)
        simp [h6] at this
        omega
    · next h6 =>
      have h5 : x.length = 5 := by rcases hx with h | h; exact absurd h.1 h6; exact h.1
      rw [ih]
      constructor
      · intro h k hk
        cases k with
        | zero => simp
        | succ k => have := h k (by simpa using hk); simp [h5] ; omega
      · intro h k hk
        have := h (k + 1) (by simpa using hk)
        simp [h5] at this
        omega

/-- A complete record stands at the front. -/
def StartsRecord (r : List Byte) : Prop := ∃ x, IsRecord x ∧ x <+: r

theorem startsRecord_leaf (s a b c d : Byte) (r : List Byte) : StartsRecord (0x01 :: s :: a :: b :: c :: d :: r) :=
  ⟨[0x01, s, a, b, c, d], .inl ⟨rfl, rfl⟩, r, rfl⟩

theorem startsRecord_inner (a b c d : Byte) (r : List Byte) : StartsRecord (0x06 :: a :: b :: c :: d :: r) :=
  ⟨[0x06, a, b, c, d], .inr ⟨rfl, rfl⟩, r, rfl⟩

theorem startsRecord_inv (t : Byte) (body : List Byte) (h : StartsRecord (t :: body)) :
    (t = 0x01 ∧ 5 ≤ body.length) ∨ (t = 0x06 ∧ 4 ≤ body.length) := by
  obtain ⟨x, hx, y, hy⟩ := h
  cases x with
  | nil => rcases hx with h | h <;> simp at h
  | cons a x =>
    simp only [List.cons_append, List.cons.injEq] at hy
    obtain ⟨rfl, rfl⟩ := hy
    rcases hx with ⟨h1, h2⟩ | ⟨h1, h2⟩ <;> simp at h1 h2
    · left; simp [h2]; omega
    · right; simp [h2]; omega

/-- Where `Parse` stops: after complete records that leave the tree open, at the 512th record or at what is no record. -/
def StopsAt (n : Nat) (r : List Byte) (e : ErrKind) : Prop :=
  ∃ recs rest, r = recs.flatten ++ rest ∧ (∀ x ∈ recs, IsRecord x) ∧ OpenFrom 0 recs ∧ n + recs.length ≤ 511 ∧
    ((e = .capacityExceeded ∧ n + recs.length = 511 ∧ StartsRecord rest) ∨ (e = .malformedTree ∧ ¬ StartsRecord rest))

theorem stopsAt_malformed (n : Nat) (r : List Byte) (hn : n ≤ 511) (h : ¬ StartsRecord r) : StopsAt n r .malformedTree :=
  ⟨[], r, rfl, by simp, trivial, hn, .inr ⟨rfl, h⟩⟩

theorem stopsAt_capacity (r : List Byte) (h : StartsRecord r) : StopsAt 511 r .capacityExceeded :=
  ⟨[], r, rfl, by simp, trivial, by simp, .inl ⟨rfl, rfl, h⟩⟩

theorem parse_error : ∀ (fuel n : Nat) (r : List Byte) (e : ErrKind), n ≤ 511 → 512 ≤ fuel + n →
    parse fuel n r = .error e → StopsAt n r e := by
  intro fuel
  induction fuel with
  | zero => intro n r e h1 h2; omega
  | succ fuel ih =>
    intro n r e hn hf h
    cases r with
    | nil =>
      simp only [parse, Except.error.injEq] at h
      subst h
      refine stopsAt_malformed n [] hn ?_
      rintro ⟨x, hx, hp⟩
      rw [List.prefix_nil] at hp
      subst hp
      rcases hx with h | h <;> simp at h
    | cons tag body =>
      simp only [parse] at h
      split at h
      · next ht =>
        subst ht
        split at h
        · next sym f3 f2 f1 f0 rest' =>
          split at h
          · next h5 =>
            simp only [Except.error.injEq] at h
            subst h; subst h5
            exact stopsAt_capacity _ (startsRecord_leaf ..)
          · simp at h
        · next hb =>
          simp only [Except.error.injEq] at h
          subst h
          refine stopsAt_malformed n _ hn fun hs => ?_
          rcases startsRecord_inv _ _ hs with ⟨-, hl⟩ | ⟨h6, -⟩
          · match body, hl, hb with
            | a :: b :: c :: d :: e :: r, _, hb => exact hb _ _ _ _ _ _ rfl
          · exact absurd h6 (by decide)
      · next ht1 =>
        split at h
        · next ht =>
          subst ht
          split at h
          · next f3 f2 f1 f0 rest' =>
            split at h
            · next h5 =>
              simp only [Except.error.injEq] at h
              subst h; subst h5
              exact stopsAt_capacity _ (startsRecord_inner ..)
            · next h5 =>
              simp only [Config.nnodeMax] at h5
              split at h
              · next e' h1 =>
                simp only [Except.error.injEq] at h
                subst h
                obtain ⟨recs, rest, rfl, g2, g3, g4, g5⟩ := ih (n + 1) _ _ (by omega) (by omega) h1
                refine ⟨[0x06, f3, f2, f1, f0] :: recs, rest, rfl, ?_, ?_, ?_, ?_⟩
                · intro x hx
                  rcases List.mem_cons.1 hx with rfl | hx
                  · exact .inr ⟨rfl, rfl⟩
                  · exact g2 x hx
                · exact g3.mono (d' := 1) (by omega)
                · simp; omega
                · simp only [List.length_cons]
                  rw [show n + (recs.length + 1) = n + 1 + recs.length by omega]; exact g5
              · next ls rest1 h1 =>
                split at h
                · next e' h2 =>
                  simp only [Except.error.injEq] at h
                  subst h
                  obtain ⟨l, rfl, rfl, hl⟩ := parse_ok _ _ _ _ _ h1
                  rw [preNodes_length] at h2
                  have hl := hl (by omega)
                  obtain ⟨recs, rest, rfl, g2, g3, g4, g5⟩ := ih (n + 1 + l.size) _ _ hl (by omega) h2
                  refine ⟨[0x06, f3, f2, f1, f0] :: (treeRecords l ++ recs), rest, ?_, ?_, ?_, ?_, ?_⟩
                  · simp [treeRecords_flatten]
                  · intro x hx
                    rcases List.mem_cons.1 hx with rfl | hx
                    · exact .inr ⟨rfl, rfl⟩
                    · rcases List.mem_append.1 hx with hx | hx
                      · exact treeRecords_isRecord l x hx
                      · exact g2 x hx
                  · exact (openFrom_treeRecords l 1 recs).2 ⟨by omega, g3⟩
                  · simp [treeRecords_length]; omega
                  · simp only [List.length_cons, List.length_append, treeRecords_length]
                    rw [show n + (l.size + recs.length + 1) = n + 1 + l.size + recs.length by omega]; exact g5
                · simp at h
          · next hb =>
            simp only [Except.error.injEq] at h
            subst h
            refine stopsAt_malformed n _ hn fun hs => ?_
            rcases startsRecord_inv _ _ hs with ⟨h6, -⟩ | ⟨-, hl⟩
            · exact absurd h6 (by decide)
            · match body, hl, hb with
              | a :: b :: c :: d :: r, _, hb => exact hb _ _ _ _ _ rfl
        · next ht2 =>
          simp only [Except.error.injEq] at h
          subst h
          refine stopsAt_malformed n _ hn fun hs => ?_
          rcases startsRecord_inv _ _ hs with ⟨h6, -⟩ | ⟨h6, -⟩
          · exact ht1 h6
          · exact ht2 h6

/-- Records are read in one way. -/
theorem records_unique (A : List (List Byte)) : ∀ (B : List (List Byte)) (x y : List Byte), (∀ r ∈ A, IsRecord r) →
    (∀ r ∈ B, IsRecord r) → A.length ≤ B.length → A.flatten ++ x = B.flatten ++ y →
    A = B.take A.length ∧ x = (B.drop A.length).flatten ++ y := by
  induction A with
  | nil => intro B x y _ _ _ h; exact ⟨rfl, by simpa using h⟩
  | cons a A ih =>
    intro B x y hA hB hl h
    cases B with
    | nil => simp at hl
    | cons b B =>
      have ha := hA a (by simp)
      have hb := hB b (by simp)
      have hh : a.head? = b.head? := by
        have := congrArg List.head? h
        have ne : ∀ r : List Byte, IsRecord r → r ≠ [] := by rintro _ (h | h) rfl <;> simp at h
        simpa [List.head?_append_of_ne_nil _ (ne a ha), List.head?_append_of_ne_nil _ (ne b hb)] using this
      have hlen : a.length = b.length := by
        rcases ha with ⟨h1, h2⟩ | ⟨h1, h2⟩ <;> rcases hb with ⟨h3, h4⟩ | ⟨h3, h4⟩
        · omega
        · rw [h2, h4] at hh; simp at hh
        · rw [h2, h4] at hh; simp at hh
        · omega
      simp only [List.flatten_cons, List.append_assoc] at h
      obtain ⟨hab, h'⟩ := List.append_inj h hlen
      subst hab
      obtain ⟨h1, h2⟩ := ih B x y (fun r hr => hA r (by simp [hr])) (fun r hr => hB r (by simp [hr])) (by simpa using hl) h'
      exact ⟨by simp only [List.length_cons, List.take_succ_cons]; rw [← h1], by simpa using h2⟩

/-- A 512th node is met exactly when 511 open records are followed by one more. -/
theorem has512Nodes_iff (r : List Byte) : Has512Nodes r ↔ StopsAt 0 r .capacityExceeded := by
  constructor
  · rintro ⟨recs, hl, hr, ⟨y, rfl⟩, ho⟩
    refine ⟨recs.take 511, (recs.drop 511).flatten ++ y, ?_, fun x hx => hr x (List.mem_of_mem_take hx), ?_, ?_, .inl ⟨rfl, ?_, ?_⟩⟩
    · rw [← List.append_assoc, ← List.flatten_append, List.take_append_drop]
    · rw [openFrom_iff _ (fun x hx => hr x (List.mem_of_mem_take hx))]
      intro k hk
      simp only [List.length_take] at hk
      have := ho k (by omega)
      rw [List.take_take, Nat.min_eq_left (by omega), Nat.zero_add]
      exact this
    · simp [hl]
    · simp [hl]
    · have hd : (recs.drop 511).length = 1 := by simp [hl]
      obtain ⟨x, hx⟩ := List.length_eq_one_iff.1 hd
      refine ⟨x, hr x (List.mem_of_mem_drop (by rw [hx]; simp)), y, by rw [hx]; simp⟩
  · rintro ⟨recs, rest, rfl, hr, ho, -, ⟨-, hl, x, hx, y, rfl⟩ | ⟨h, -⟩⟩
    · simp only [Nat.zero_add] at hl
      refine ⟨recs ++ [x], by simp [hl], ?_, ⟨y, by simp⟩, fun k hk => ?_⟩
      · intro z hz
        rcases List.mem_append.1 hz with hz | hz
        · exact hr z hz
        · rw [List.mem_singleton.1 hz]; exact hx
      · have := (openFrom_iff _ hr 0).1 ho k (by omega)
        rw [Nat.zero_add] at this
        rw [StillOpen, List.take_append_of_le_length (by omega)]
        exact this
    · simp at h

/-- Which error `Des` reports: CapacityExceeded when it meets a 512th node, else MalformedTree (45_tree_codec.md R167). -/
theorem des_error (r : List Byte) (e : ErrKind) (h : des r = .error e) :
    (e = .capacityExceeded ∧ Has512Nodes r) ∨ (e = .malformedTree ∧ ¬ Has512Nodes r) := by
  simp only [des] at h
  split at h
  · simp at h
  · split at h
    · next e' hp =>
      simp only [Except.error.injEq] at h
      subst h
      have hs := parse_error 512 0 r e' (by omega) (by omega) hp
      have hs' := hs
      obtain ⟨recs, rest, h1, h2, h3, h4, ⟨rfl, -⟩ | ⟨rfl, h5⟩⟩ := hs'
      · exact .inl ⟨rfl, (has512Nodes_iff r).2 hs⟩
      · refine .inr ⟨rfl, ?_⟩
        rintro ⟨B, hl, hB, ⟨y, hy⟩, -⟩
        obtain ⟨-, g2⟩ := records_unique recs B rest y h2 hB (by omega) (by rw [← h1, ← hy])
        have hd : (B.drop recs.length).length ≠ 0 := by simp; omega
        cases hc : B.drop recs.length with
        | nil => rw [hc] at hd; simp at hd
        | cons x xs =>
          refine h5 ⟨x, hB x (List.mem_of_mem_drop (by rw [hc]; simp)), xs.flatten ++ y, ?_⟩
          rw [g2, hc]; simp
    · next ns rest hp =>
      split at h
      · simp at h
      · simp only [Except.error.injEq] at h
        subst h
        refine .inr ⟨rfl, ?_⟩
        obtain ⟨t, -, rfl, ht⟩ := parse_ok _ _ _ _ _ hp
        have ht := ht (by omega)
        rw [has512Nodes_iff]
        rintro ⟨recs, rest', h1, h2, h3, h4, ⟨-, h5, -⟩ | ⟨h5, -⟩⟩
        · rw [← treeRecords_flatten] at h1
          obtain ⟨g1, -⟩ := records_unique (treeRecords t) recs rest rest' (treeRecords_isRecord t) h2
            (by rw [treeRecords_length]; omega) h1
          have ho := h3
          rw [← List.take_append_drop (treeRecords t).length recs, ← g1, openFrom_treeRecords] at ho
          omega
        · simp at h5

theorem has512Nodes_length (r : List Byte) (h : Has512Nodes r) : 2560 ≤ r.length := by
  obtain ⟨recs, hl, hr, hp, -⟩ := h
  have key : ∀ L : List (List Byte), (∀ x ∈ L, IsRecord x) → 5 * L.length ≤ L.flatten.length := by
    intro L
    induction L with
    | nil => intro _; simp
    | cons x L ih =>
      intro h
      have := ih fun y hy => h y (by simp [hy])
      have : 5 ≤ x.length := by rcases h x (by simp) with h | h <;> omega
      simp only [List.length_cons, List.flatten_cons, List.length_append]; omega
  have := key recs hr
  have := hp.length_le
  omega

/-- A tree is not complete before its last record. -/
theorem openFrom_dropLast (t : HTree) : OpenFrom 0 (treeRecords t).dropLast := by
  induction t with
  | leaf => trivial
  | node f l r ihl ihr =>
    have hr : treeRecords r ≠ [] := by
      intro e
      have := treeRecords_length r
      have := r.size_pos
      simp only [e, List.length_nil] at *; omega
    rw [treeRecords, List.dropLast_cons_of_ne_nil (by simp [hr]), List.dropLast_append_of_ne_nil hr]
    exact (openFrom_treeRecords l 1 _).2 ⟨by omega, ihr⟩

/-- A serialized tree of more than 511 nodes has a 512th. -/
theorem has512Nodes_serTree (t : HTree) (h : 511 < t.size) : Has512Nodes (serTree t) := by
  have hl := treeRecords_length t
  refine ⟨(treeRecords t).take 512, by simp [hl]; omega, fun x hx => treeRecords_isRecord t x (List.mem_of_mem_take hx),
    ⟨((treeRecords t).drop 512).flatten, by rw [← List.flatten_append, List.take_append_drop, treeRecords_flatten]⟩,
    fun k hk => ?_⟩
  have := (openFrom_iff _ (fun x hx => treeRecords_isRecord t x (List.mem_of_mem_dropLast hx)) 0).1 (openFrom_dropLast t) k
    (by simp [hl]; omega)
  rw [List.dropLast_eq_take, List.take_take, Nat.min_eq_left (by omega), Nat.zero_add] at this
  rw [StillOpen, List.take_take, Nat.min_eq_left (by omega)]
  exact this
end Sys2Proof.Machine
end

