-- ==== Sys2Proof/Laws/Units.lean ====
section
/-! SUPPORT. Scripts of unit commands (48_end_to_end.md R209): one command of a script at a time, and that the body of each decode unit
does the same in every state that agrees on what the body reads. -/

namespace Sys2Proof.Machine

open Sys2Proof.Safety

/-- A script that succeeds: its first command ran its body to the end, and the rest succeeds from there. -/
theorem runUnits_cons_some (i : Instr) (hi : i ≠ .rst) (is : List Instr) (s t : State) (h : runUnits (i :: is) s = some t) :
    ((commandForm i).window = false ∨ s.windowOk = true) ∧
      ∃ u, commandBody i s = .done u ∧ runUnits is (u.finish none (opcode i)) = some t := by
  simp only [runUnits] at h
  split at h
  · next t' he =>
    split at h
    · next h0 =>
      rw [exec_eq_runCommand i s hi] at he
      rcases runCommand_cases (commandForm i) (commandBody i) s with
        ⟨-, -, h3⟩ | ⟨hw, ⟨u, h2, h3⟩ | ⟨e, b, u, -, h3⟩ | ⟨f, -, h3⟩⟩ <;> rw [h3] at he <;> cases he
      · simp [State.finish, Status.finish] at h0
      · rw [commandForm_op] at h; exact ⟨hw, u, h2, h⟩
      · rw [takeError_status] at h0; simp [Status.finish] at h0
    · cases h
  · cases h

/-- CPAR writes the four registers, as the bytes of IBUF say and nothing else. -/
theorem cparBody_congr {off len : Word} {s u : State} (h : cparBody off len s = .done u) :
    ∃ a b c d, u = s.setParse a b c d ∧
      ∀ w : State, (∀ a, w.ibufByte a = s.ibufByte a) → cparBody off len w = .done (w.setParse a b c d) := by
  rw [cparBody] at h
  split at h
  · cases h
  · next tr pl hs =>
    cases h
    exact ⟨_, _, _, _, rfl, fun w hw => by rw [cparBody, ibufRange_congr hw, hs]⟩

/-- TDES writes the arena, as the bytes of IBUF and the old entries say and nothing else. -/
theorem tdesBody_congr {off len : Word} {s u : State} (h : tdesBody off len s = .done u) :
    ∃ v n, u = s.setTree v n 0 ∧ ∀ w : State, (∀ a, w.ibufByte a = s.ibufByte a) → w.node = s.node →
      tdesBody off len w = .done (w.setTree v n 0) := by
  rw [tdesBody] at h
  split at h
  · next ns hs =>
    cases h
    exact ⟨_, _, rfl, fun w hw hn => by rw [tdesBody, ibufRange_congr hw, hs, hn]⟩
  · cases h

/-- BUNP writes the view, as the bytes of IBUF say and nothing else. -/
theorem bunpBody_congr {off len : Word} {s u : State} (h : bunpBody off len s = .done u) :
    ∃ a b c, u = s.setView a b c ∧
      ∀ w : State, (∀ a, w.ibufByte a = s.ibufByte a) → bunpBody off len w = .done (w.setView a b c) := by
  rw [bunpBody] at h
  split at h
  · cases h
  · next hs =>
    cases h
    exact ⟨_, _, _, rfl, fun w hw => by rw [bunpBody, ibufRange_congr hw, hs, hw]⟩

/-- Appending writes OBUF and OLEN, as the two and OBUF_SIZE say and nothing else. -/
theorem appendEach_congr (unit : BlockUnit) : ∀ (bs : List Byte) {s u : State}, appendEach unit bs s = .done u →
    ∃ ob ol, u = { s with obuf := ob, olen := ol } ∧ ∀ w : State, w.obuf = s.obuf → w.obufDraw = s.obufDraw →
      w.olen = s.olen → w.obufSize = s.obufSize → appendEach unit bs w = .done { w with obuf := ob, olen := ol } := by
  intro bs
  induction bs with
  | nil =>
    intro s u h
    simp only [appendEach] at h
    cases h
    exact ⟨s.obuf, s.olen, rfl, fun w h1 _ h3 _ => by simp only [appendEach]; rw [← h1, ← h3]⟩
  | cons b bs ih =>
    intro s u h
    simp only [appendEach] at h
    rcases appendBytes_cases unit [b] s with ⟨h1, e⟩ | ⟨-, e⟩ <;> rw [e] at h
    · obtain ⟨ob, ol, hu, hw⟩ := ih h
      refine ⟨ob, ol, by rw [hu]; rfl, fun w a1 a2 a3 a4 => ?_⟩
      simp only [appendEach]
      rw [appendBytes_of_fits _ _ w (by rw [a3, a4]; exact h1)]
      simp only [BodyResult.andThen]
      rw [hw (afterAppend w [b]) (by simp [afterAppend, a1, a3]) (by simp [afterAppend, a2]) (by simp [afterAppend, a3]) a4]
      rfl
    · cases h

/-- WALK writes OBUF and OLEN, as the view's bits, the tree, the two and OBUF_SIZE say and nothing else. -/
theorem walkBody_congr {s u : State} (h : walkBody s = .done u) :
    ∃ ob ol, u = { s with obuf := ob, olen := ol } ∧ ∀ w : State, w.viewOk = s.viewOk → w.viewBits = s.viewBits →
      w.currentTree = s.currentTree → w.obuf = s.obuf → w.obufDraw = s.obufDraw → w.olen = s.olen →
      w.obufSize = s.obufSize → walkBody w = .done { w with obuf := ob, olen := ol } := by
  rw [walkBody] at h
  split at h
  · next hv =>
    have tree : ∃ ot, ∀ (w : State) f, w.currentTree = s.currentTree → withTree w f = f ot := by
      cases hc : s.currentTree with
      | absent => exact ⟨none, fun w f hw => by rw [withTree, hw]⟩
      | tree t => exact ⟨some t, fun w f hw => by rw [withTree, hw]⟩
      | broken => rw [withTree, hc] at h; cases h
    obtain ⟨ot, tree⟩ := tree
    rw [tree s _ rfl] at h
    rcases hwk : walk ot s.viewBits with ⟨out, e⟩
    rw [hwk] at h
    simp only at h
    cases ha : appendEach .walk out s <;> rw [ha] at h <;> simp only [BodyResult.andThen] at h <;> try cases h
    next v =>
      cases e <;> cases h
      obtain ⟨ob, ol, hu, hw⟩ := appendEach_congr .walk out ha
      refine ⟨ob, ol, hu, fun w w1 w2 w3 w4 w5 w6 w7 => ?_⟩
      rw [walkBody, w1, if_pos hv, tree w _ w3, w2, hwk]
      simp only
      rw [hw w w4 w5 w6 w7]
      rfl
  · cases h

end Sys2Proof.Machine
end

