-- ==== Sys2Proof/Tests/Slice0.lean ====
section
/-! SUPPORT. Small tests. Every expected value is one of spec/95_test_vectors.md or of the rule named; a witness theorem shows that
the hypotheses of the obligation it names can be met together, at the edges of their ranges. -/

namespace Sys2Proof.Tests

open Sys2Proof.Machine Sys2Proof.Safety

set_option Elab.async false

/-! ### Helpers -/

/-- The host has put `bs` into IBUF at `off` and set the window to it. -/
def load (off : Nat) (bs : List Byte) (s : State) : State :=
  (s.setIbuf (memWrite s.ibuf off bs)).setWindow (BitVec.ofNat 32 off) (BitVec.ofNat 32 bs.length)

/-- Run commands one after another; `base` if one stops. -/
def cmds (is : List Instr) (base : State) : State :=
  is.foldl (fun s i => match exec i s with | .next t => t | _ => base) base

/-- The outcome is a next state that passes the check. -/
def nextIs (o : Host.Outcome State Fault Refusal) (p : State → Bool) : Bool :=
  match o with
  | .next t => p t
  | _ => false

theorem exists_of_nextIs {o : Host.Outcome State Fault Refusal} {p : State → Bool} (h : nextIs o p = true) :
    ∃ t, o = .next t ∧ p t = true := by
  cases o with
  | next t => exact ⟨t, rfl, h⟩
  | fault r => cases h
  | refused r => cases h

/-- After reset, buffers of 4096 bytes. -/
def s0 : State := State.reset

/-- "aaab" (61 61 61 62) in the window. -/
def sAaab : State := load 0 [0x61, 0x61, 0x61, 0x62] s0

/-- The tree of "aaab" (V2.1): b left, a right. -/
def tAaab : HTree := .node 4 (.leaf 0x62 1) (.leaf 0x61 3)

/-- The 17 bytes of V6.1. -/
def t2 : List Byte := [0x06, 0, 0, 0, 4, 0x01, 0x62, 0, 0, 0, 1, 0x01, 0x61, 0, 0, 0, 3]

theorem load_window (off : Nat) (bs : List Byte) (s : State) (h : off < 2 ^ 32) (hl : bs.length < 2 ^ 32) :
    (load off bs s).window = bs := by
  have e1 : (BitVec.ofNat 32 off).toNat = off := by rw [BitVec.toNat_ofNat]; omega
  have e2 : (BitVec.ofNat 32 bs.length).toNat = bs.length := by rw [BitVec.toNat_ofNat]; omega
  apply List.ext_getElem
  · simp [load, State.window, State.ibufRange]; omega
  · intro i h1 h2
    simp only [load, State.window, State.ibufRange, State.setWindow_srcOff, State.setWindow_srcLen, e1, e2, List.getElem_map,
      List.getElem_range, State.ibufByte, State.setWindow_ibuf, State.setIbuf_ibuf, State.setWindow_ibufDraw,
      State.setIbuf_ibufDraw, memGet_memWrite]
    rw [dif_pos (by omega)]
    simp

theorem load_fits (off : Nat) (bs : List Byte) (s : State) (h : off < 2 ^ 32) (hl : bs.length < 2 ^ 32)
    (hf : off + bs.length ≤ s.ibufSize.toNat) : WindowFits (load off bs s) := by
  have e1 : (BitVec.ofNat 32 off).toNat = off := by rw [BitVec.toNat_ofNat]; omega
  have e2 : (BitVec.ofNat 32 bs.length).toNat = bs.length := by rw [BitVec.toNat_ofNat]; omega
  simpa [WindowFits, load, e1, e2] using hf

/-- A chain of `2 * n + 1` nodes, each internal node with a leaf on its left. -/
def chain : Nat → HTree
  | 0 => .leaf 0 1
  | n + 1 => .node 0 (.leaf 0 1) (chain n)

theorem chain_size (n : Nat) : (chain n).size = 2 * n + 1 := by
  induction n with
  | zero => rfl
  | succ n ih => simp only [chain, HTree.size, ih]; omega

/-- Units ran, and the state they left passes the check. -/
def someIs (o : Option State) (p : State → Bool) : Bool :=
  match o with
  | some t => p t
  | none => false

theorem exists_of_someIs {o : Option State} {p : State → Bool} (h : someIs o p = true) : ∃ t, o = some t ∧ p t = true := by
  cases o with
  | none => cases h
  | some t => exact ⟨t, rfl, h⟩

/-- The 23 bytes of V9.1. -/
def cAaab : List Byte := [0, 0, 0, 0x11] ++ t2 ++ [0x04, 0xE0]

/-! ### Decoding (30_encoding.md R80 to R83) -/

theorem test_wf_reserved : reservedZero 0x0000010B = false ∧ wordWellFormed 0x0000010B = false := by decide
theorem test_wf_opcode : opcodeAssigned 0x0000000F = false ∧ wordWellFormed 0x0000000F = false := by decide
theorem test_wf_good : wordWellFormed 0x0000000E = true ∧ wordWellFormed 0x00000000 = true := by decide
theorem test_decode_reserved : decode 0x80000000 = .error .reservedBits ∧ decode 0x00000100 = .error .reservedBits := ⟨rfl, rfl⟩
theorem test_decode_unassigned : decode 0x0000000F = .error .unassignedOpcode ∧ decode 0x000000FF = .error .unassignedOpcode :=
  ⟨rfl, rfl⟩
theorem test_decode_nop : decode 0b00000000000000000000000000000000#32 = .ok .nop := rfl
theorem test_decode_fcnt : decode 0b00000000000000000000000000000001#32 = .ok .fcnt := rfl
theorem test_decode_tbld : decode 0b00000000000000000000000000000010#32 = .ok .tbld := rfl
theorem test_decode_cgen : decode 0b00000000000000000000000000000011#32 = .ok .cgen := rfl
theorem test_decode_bpck : decode 0b00000000000000000000000000000100#32 = .ok .bpck := rfl
theorem test_decode_bunp : decode 0b00000000000000000000000000000101#32 = .ok .bunp := rfl
theorem test_decode_tser : decode 0b00000000000000000000000000000110#32 = .ok .tser := rfl
theorem test_decode_tdes : decode 0b00000000000000000000000000000111#32 = .ok .tdes := rfl
theorem test_decode_chdr : decode 0b00000000000000000000000000001000#32 = .ok .chdr := rfl
theorem test_decode_cpar : decode 0b00000000000000000000000000001001#32 = .ok .cpar := rfl
theorem test_decode_walk : decode 0b00000000000000000000000000001010#32 = .ok .walk := rfl
theorem test_decode_enc : decode 0b00000000000000000000000000001011#32 = .ok .enc := rfl
theorem test_decode_dec : decode 0b00000000000000000000000000001100#32 = .ok .dec := rfl
theorem test_decode_oclr : decode 0b00000000000000000000000000001101#32 = .ok .oclr := rfl
theorem test_decode_rst : decode 0b00000000000000000000000000001110#32 = .ok .rst := rfl
theorem test_decodeTableWord : decodeTableWord 32 0x0B = some .enc ∧ decodeTableWord 32 0x10B = none := by decide

/-! ### One command each -/

/-- V10.2, V10.11. -/
theorem test_nop : nextIs (exec .nop s0) (fun t => t.status.word == 0x00000100) = true ∧
    nextIs (exec .nop (cmds [.bunp] s0)) (fun t => t.status.word == 0x80000100) = true := by decide +kernel

/-- V1.1. -/
theorem test_fcnt : nextIs (exec .fcnt sAaab) (fun t => t.status.word == 0x00010100 && t.k == 2 &&
    symGet t.freq 0x61 == 3 && symGet t.freq 0x62 == 1 && symGet t.freq 0x63 == 0 && t.seqList == [0x61, 0x62]) = true := by
  decide +kernel

/-- SEQ through the table port: the two symbols of "aaab", and its last entry (10_state.md R34). -/
theorem test_port_seq : nextIs (exec .fcnt sAaab) (fun t =>
    ([0, 1, 255].map fun i => (t.setPort 1 i).regRead 19) == [0x61, 0x62, 0]) = true := by decide +kernel

/-- V1.9: the sum is formed without wrap. -/
theorem test_fcnt_badWindow : nextIs (exec .fcnt (s0.setWindow 0xFFFFFFFF 0xFFFFFFFF)) (fun t => t.status.word == 0x80010117) = true := by
  decide +kernel

/-- V2.1 and V2.4: links words. -/
theorem test_tbld : nextIs (exec .tbld (cmds [.fcnt] sAaab)) (fun t => t.status.word == 0x00020100 && t.nnodes == 3 && t.root == 2 &&
    (t.setPort 2 2).regRead 19 == 0x80000100 && (t.setPort 3 2).regRead 19 == 4) = true := by decide +kernel

theorem test_tbld_tie : nextIs (exec .tbld (cmds [.fcnt] (load 0 [0x61, 0x62, 0x72, 0x61, 0x63, 0x61, 0x64, 0x61, 0x62, 0x72, 0x61] s0)))
    (fun t => ([5, 6, 7, 8].map fun i => (t.setPort 2 i).regRead 19) == [0x80080300, 0x80040100, 0x800C0500, 0x800E0000]) = true := by
  decide +kernel

/-- V3.3: codes of "abracadabra". -/
theorem test_cgen : nextIs (exec .cgen (cmds [.fcnt, .tbld] (load 0 [0x61, 0x62, 0x72, 0x61, 0x63, 0x61, 0x64, 0x61, 0x62, 0x72, 0x61] s0)))
    (fun t => t.status.word == 0x00030100 && (t.setPort 5 (8 * 0x62)).regRead 19 == 0xC0000000 && symGet t.clen 0x62 == 3 &&
      symGet t.clen 0x61 == 1 && symGet t.clen 0x7A == 0) = true := by decide +kernel

/-- V3.11: of two leaves with one symbol the later wins. -/
theorem test_cgen_twice : nextIs (exec .cgen (cmds [.tdes] (load 0 ([0x06, 0, 0, 0, 0, 0x01, 0x61, 0, 0, 0, 0, 0x06, 0, 0, 0, 0] ++
    [0x01, 0x62, 0, 0, 0, 0, 0x01, 0x61, 0, 0, 0, 0]) s0)))
    (fun t => t.code 0x61 == [true, true] && t.code 0x62 == [true, false]) = true := by decide +kernel

/-- V4.3. -/
theorem test_bpck : nextIs (exec .bpck (cmds [.fcnt, .tbld, .cgen] (load 0 [0x61, 0x62, 0x72, 0x61, 0x63, 0x61, 0x64, 0x61, 0x62, 0x72, 0x61] s0)))
    (fun t => t.status.word == 0x00040100 && t.olen == 4 && t.obufRange 0 4 == [0x01, 0x6E, 0x8A, 0xDC]) = true := by decide +kernel

/-- V4.10. -/
theorem test_bpck_missing : nextIs (exec .bpck (load 64 [0x61, 0x62, 0x63] (cmds [.enc] sAaab)))
    (fun t => t.status.word == 0x80040158 && t.olen == 23 && t.obufRange 0 23 == cAaab) = true := by decide +kernel

/-- V5.10. -/
theorem test_bunp : nextIs (exec .bunp (load 10 [0x03, 0xFF, 0xFF] s0)) (fun t => t.status.word == 0x00050100 && t.bitOff == 11 &&
    t.dataLen == 2 && t.pad == 3 && t.viewBits == List.replicate 13 true) = true := by decide +kernel

/-- V5.13. -/
theorem test_bunp_clears : nextIs (exec .bunp (load 10 [0x04] (cmds [.bunp] (load 10 [0x04, 0xE0] s0))))
    (fun t => t.status.word == 0x80050161 && t.bitOff == 0 && t.dataLen == 0 && t.pad == 0) = true := by decide +kernel

/-- V6.1. -/
theorem test_tser : nextIs (exec .tser (cmds [.fcnt, .tbld] sAaab)) (fun t => t.status.word == 0x00060100 && t.olen == 17 &&
    t.obufRange 0 17 == t2) = true := by decide +kernel

/-- V6.7. -/
theorem test_tser_full : nextIs (exec .tser (cmds [.fcnt, .tbld] (load 0 [0x61, 0x61, 0x61, 0x62] (State.resetWith 4096 16))))
    (fun t => t.status.word == 0x80060175 && t.olen == 0) = true := by decide +kernel

/-- V6.8. -/
theorem test_tdes : nextIs (exec .tdes (load 0 t2 s0)) (fun t => t.status.word == 0x00070100 && t.nnodes == 3 && t.root == 0 &&
    ([0, 1, 2].map fun i => (t.setPort 2 i).regRead 19) == [0x80040100, 0x00000062, 0x00000061]) = true := by decide +kernel

/-- V6.15: a byte is left over. -/
theorem test_tdes_trailing : nextIs (exec .tdes (load 0 [0x01, 0x61, 0, 0, 0, 4, 0] s0)) (fun t => t.status.word == 0x80070182 &&
    t.nnodes == 0) = true := by decide +kernel

/-- V6.23, V6.24: 511 nodes fit, 513 do not. -/
theorem test_des_capacity : (match des (serTree (chain 255)) with | .ok ns => ns.length == 511 | .error _ => false) = true ∧
    (match des (serTree (chain 256)) with | .error .capacityExceeded => true | _ => false) = true := by decide +kernel

/-- V7.1. -/
theorem test_chdr : nextIs (exec .chdr (cmds [.fcnt, .tbld] sAaab)) (fun t => t.status.word == 0x00080100 && t.olen == 4 &&
    t.obufRange 0 4 == [0, 0, 0, 0x11]) = true := by decide +kernel

/-- V7.3d. -/
theorem test_chdr_full : nextIs (exec .chdr (State.resetWith 4096 3)) (fun t => t.status.word == 0x80080195 && t.olen == 0) = true := by
  decide +kernel

/-- V7.4b. -/
theorem test_cpar : nextIs (exec .cpar (load 100 cAaab s0)) (fun t => t.status.word == 0x00090100 && t.treeOff == 104 &&
    t.treeLen == 17 && t.payOff == 121 && t.payLen == 2) = true := by decide +kernel

/-- V7.8. -/
theorem test_cpar_short : nextIs (exec .cpar (load 0 [0, 0, 0, 5, 1, 2, 3, 4] s0)) (fun t => t.status.word == 0x80090193 &&
    t.treeOff == 0 && t.payOff == 0) = true := by decide +kernel

/-- V8.1. -/
theorem test_walk : nextIs (exec .walk (cmds [.bunp] (load 64 [0x04, 0xE0] (cmds [.tdes] (load 0 t2 s0)))))
    (fun t => t.status.word == 0x000A0100 && t.olen == 4 && t.obufRange 0 4 == [0x61, 0x61, 0x61, 0x62]) = true := by decide +kernel

/-- V8.21: the append of bit 0 fails before bit 1 is seen. -/
theorem test_walk_order : nextIs (exec .walk (cmds [.bunp] (load 64 [0x06, 0x40] (cmds [.tdes] (load 0 [0x01, 0x61, 0, 0, 0, 4]
    (State.resetWith 4096 0)))))) (fun t => t.status.word == 0x800A01A5 && t.olen == 0) = true := by decide +kernel

/-- V9.1. -/
theorem test_enc : nextIs (exec .enc sAaab) (fun t => t.status.word == 0x000B0100 && t.olen == 23 && t.obufRange 0 23 == cAaab &&
    t.k == 2 && t.nnodes == 3 && t.root == 2) = true := by decide +kernel

/-- V9.15, OBUF_SIZE = 20. -/
theorem test_enc_full : nextIs (exec .enc (load 0 [0x61, 0x61, 0x61, 0x62] (State.resetWith 4096 20)))
    (fun t => t.status.word == 0x800B0175 && t.olen == 0 && t.k == 2 && t.nnodes == 3) = true := by decide +kernel

/-- V9.12. -/
theorem test_dec : nextIs (exec .dec (load 0 cAaab s0)) (fun t => t.status.word == 0x000C0100 && t.olen == 4 &&
    t.obufRange 0 4 == [0x61, 0x61, 0x61, 0x62] && t.treeOff == 4 && t.treeLen == 17 && t.payOff == 21 && t.payLen == 2 &&
    t.bitOff == 22 && t.dataLen == 1 && t.pad == 4 && t.nnodes == 3 && t.root == 0) = true := by decide +kernel

/-- V9.14k: the tree and the payload are bad, the tree is reported. -/
theorem test_dec_order : nextIs (exec .dec (load 0 ([0, 0, 0, 0x11, 0x07] ++ t2.drop 1 ++ [0x08, 0xE0]) s0))
    (fun t => t.status.word == 0x800C0182 && t.nnodes == 0 && t.treeLen == 17 && t.payOff == 21) = true := by decide +kernel

/-- V10.10. -/
theorem test_oclr : nextIs (exec .oclr (cmds [.enc] sAaab)) (fun t => t.status.word == 0x000D0100 && t.olen == 0 &&
    t.obufRange 0 4 == [0, 0, 0, 0x11]) = true := by decide +kernel

/-- V10.12. -/
theorem test_rst : nextIs (exec .rst (cmds [.enc] sAaab)) (fun t => t.status.word == 0 && t.olen == 0 && t.k == 0 && t.nnodes == 0 &&
    t.srcLen == 0 && symGet t.freq 0x61 == 0 && t.ibufRange 0 4 == [0x61, 0x61, 0x61, 0x62] &&
    t.obufRange 0 4 == [0, 0, 0, 0x11]) = true := by decide +kernel

/-! ### The step -/

/-- V10.14 ENC, through withFetchWord. -/
theorem test_step_enc : nextIs (step (s0.withFetchWord 32 0x0B)) (fun t => t.status.word == 0x000B0100 && t.olen == 5 &&
    t.script == []) = true := by decide +kernel

/-- V10.5. -/
theorem test_step_illegal : nextIs (step (s0.withFetchWord 32 0x10B)) (fun t => t.status.word == 0x800B0116) = true := by decide +kernel

/-- V10.15: three bits of TBL_SEL and eleven of TBL_IDX are kept, OLEN is read-only. -/
theorem test_register_writes : nextIs (transact (.writeReg 17 0xFFFFFFFF) s0) (fun t => t.regRead 17 == 7) = true ∧
    nextIs (transact (.writeReg 18 0xFFFFFFFF) s0) (fun t => t.regRead 18 == 0x7FF) = true ∧
    nextIs (transact (.writeReg 4 99) s0) (fun t => t.regRead 4 == 0) = true := by decide +kernel

/-- The buffers of the reset state are in canonical form (notes/assumptions/4.md). -/
theorem test_reset_buffers : memWf State.reset.ibuf = true ∧ memWf State.reset.obuf = true := by decide

/-! ### Witnesses: the hypotheses of the obligations can be met -/

theorem witness_IllegalWordChangesStatusOnly : (0x0000010B : Word).extractLsb' 8 24 ≠ 0 ∧
    0x0F ≤ ((0x0000000F : Word).extractLsb' 0 8).toNat ∧ 0x0F ≤ ((0x000000FF : Word).extractLsb' 0 8).toNat := by decide

theorem witness_StepRunsCommand : (∃ (s : State) (x : HostTxn) (ts : List HostTxn), s.script = x :: ts) ∧
    (∃ (s : State) (w : Word) (ts : List HostTxn) (i : Instr), s.script = .writeReg 0 w :: ts ∧ decode w = .ok i) ∧
    ∃ s : State, s.script = [] :=
  ⟨⟨s0.setScript [.hostReset], .hostReset, [], rfl⟩,
    ⟨s0.setScript [.writeReg 0 0x0B], 0x0B, [], .enc, rfl, rfl⟩, ⟨s0, rfl⟩⟩

theorem witness_WindowCheck : (Instr.fcnt ∈ windowCommands ∧
      (s0.setWindow 4096 1).ibufSize.toNat < (s0.setWindow 4096 1).srcOff.toNat + (s0.setWindow 4096 1).srcLen.toNat) ∧
    (Instr.bunp ∈ windowCommands ∧ WindowFits (s0.setWindow 4096 0) ∧ ∃ t, exec .bunp (s0.setWindow 4096 0) = .next t) ∧
    s0.srcLen = 0 ∧ (Instr.walk ∉ windowCommands ∧ Instr.walk ≠ .rst ∧ ∃ t, exec .walk s0 = .next t) :=
  ⟨by decide, ⟨by decide, by unfold WindowFits; decide, (exists_of_nextIs (p := fun _ => true) (by decide +kernel)).imp fun _ h => h.1⟩,
    rfl, by decide, by decide, (exists_of_nextIs (p := fun _ => true) (by decide +kernel)).imp fun _ h => h.1⟩

theorem witness_StatusAfterCommand : ∃ t, Instr.enc ≠ .rst ∧ exec .enc sAaab = .next t := by
  obtain ⟨t, h, -⟩ := exists_of_nextIs (o := exec .enc sAaab) (p := fun _ => true) (by decide +kernel)
  exact ⟨t, by decide, h⟩

theorem witness_ErrorTable : ∃ t, exec .bunp s0 = .next t ∧ t.status.error = some (.malformedPayload, .bunp) := by
  obtain ⟨t, h, h2⟩ := exists_of_nextIs (o := exec .bunp s0) (p := fun t => t.status.error == some (.malformedPayload, .bunp))
    (by decide +kernel)
  exact ⟨t, h, by simpa using h2⟩

theorem witness_StatusLayout : ∃ st : Status, st.error = some (.missingCode, .walk) ∧ st.word = 0x000001A8 :=
  ⟨{ error := some (.missingCode, .walk), done := true, lastop := 0, faulted := false }, rfl, by decide⟩

theorem witness_StatusNotRead : ∃ t, exec .dec (load 0 cAaab s0) = .next t := by
  obtain ⟨t, h, -⟩ := exists_of_nextIs (o := exec .dec (load 0 cAaab s0)) (p := fun _ => true) (by decide +kernel)
  exact ⟨t, h⟩

theorem witness_TablePortPassive : ∃ t, Instr.cgen ≠ .rst ∧ exec .cgen s0 = .next t := by
  obtain ⟨t, h, -⟩ := exists_of_nextIs (o := exec .cgen s0) (p := fun _ => true) (by decide +kernel)
  exact ⟨t, by decide, h⟩

theorem witness_InputUntouched : ∃ t, exec .enc sAaab = .next t := by
  obtain ⟨t, h, -⟩ := exists_of_nextIs (o := exec .enc sAaab) (p := fun _ => true) (by decide +kernel)
  exact ⟨t, h⟩

/-- The first clause at OLEN = OBUF_SIZE, where CHDR fails; the second for TBLD. -/
theorem witness_OutputNeverOverwritten : (∃ t, Instr.chdr ∉ [Instr.enc, .dec, .oclr, .rst] ∧
      exec .chdr ((State.resetWith 0 4).setOlen 4) = .next t ∧ OutputInv ((State.resetWith 0 4).setOlen 4)) ∧
    ∃ t, Instr.tbld ∉ [Instr.bpck, .tser, .chdr, .walk, .enc, .dec] ∧ exec .tbld s0 = .next t := by
  obtain ⟨t, h, -⟩ := exists_of_nextIs (o := exec .chdr ((State.resetWith 0 4).setOlen 4)) (p := fun _ => true) (by decide +kernel)
  obtain ⟨u, g, -⟩ := exists_of_nextIs (o := exec .tbld s0) (p := fun _ => true) (by decide +kernel)
  exact ⟨⟨t, by decide, h, by unfold OutputInv; decide⟩, u, by decide, g⟩

theorem witness_NopStatusOnly : ∃ t, exec .nop State.reset = .next t := by
  obtain ⟨t, h, -⟩ := exists_of_nextIs (o := exec .nop State.reset) (p := fun _ => true) (by decide +kernel)
  exact ⟨t, h⟩

theorem witness_RstResets : ∃ s t, exec .rst s = .next t ∧ s.status.faulted = true ∧ t.status.faulted = false := by
  obtain ⟨t, h, h2⟩ := exists_of_nextIs (o := exec .rst (cmds [.bunp] s0))
    (p := fun t => (cmds [.bunp] s0).status.faulted && !t.status.faulted) (by decide +kernel)
  simp only [Bool.and_eq_true, Bool.not_eq_true'] at h2
  exact ⟨_, t, h, h2.1, h2.2⟩

theorem witness_FcntCounts : WindowFits sAaab ∧ WindowFits (s0.setWindow 4096 0) ∧ WindowFits (s0.setWindow 4095 1) := by
  unfold WindowFits; decide +kernel

/-- K = 0, K = 2 and K = 256. -/
theorem witness_TbldArena : s0.k.toNat ≤ 256 ∧ s0.k = 0 ∧ (cmds [.fcnt] sAaab).k.toNat ≤ 256 ∧ (cmds [.fcnt] sAaab).k ≠ 0 ∧
    (s0.setCount s0.freq s0.seq 256).k.toNat ≤ 256 := by decide +kernel

theorem witness_TbldPicksTwoLeast : ∃ t, (cmds [.fcnt] sAaab).k.toNat ≤ 256 ∧
    ((cmds [.fcnt] sAaab).seqList.map fun sym => (symGet (cmds [.fcnt] sAaab).freq sym).toNat).sum < 2 ^ 32 ∧
    exec .tbld (cmds [.fcnt] sAaab) = .next t ∧ (cmds [.fcnt] sAaab).k.toNat ≤ 2 ∧ 2 < 2 * (cmds [.fcnt] sAaab).k.toNat - 1 := by
  obtain ⟨t, h, -⟩ := exists_of_nextIs (o := exec .tbld (cmds [.fcnt] sAaab)) (p := fun _ => true) (by decide +kernel)
  exact ⟨t, by decide +kernel, by decide +kernel, h, by decide +kernel, by decide +kernel⟩

theorem holds_none : HoldsTree s0 none := by show _ = _; decide +kernel
theorem holds_leaf : HoldsTree (cmds [.tdes] (load 0 [0x01, 0x61, 0, 0, 0, 4] s0)) (some (.leaf 0x61 4)) := by
  show _ = _; decide +kernel
theorem holds_aaab : HoldsTree (cmds [.fcnt, .tbld] sAaab) (some tAaab) := by show _ = _; decide +kernel

theorem witness_CgenTable : (∃ s, HoldsTree s none) ∧ (∃ s, HoldsTree s (some (.leaf 0x61 4))) ∧ (∃ s, HoldsTree s (some tAaab)) ∧
    (0x63 : Byte) ∉ (codes (some tAaab)).map Prod.fst := ⟨⟨_, holds_none⟩, ⟨_, holds_leaf⟩, ⟨_, holds_aaab⟩, by decide⟩

theorem witness_CodeLengths : tAaab.size ≤ 511 ∧ ((0x62 : Byte), [false]) ∈ codes (some tAaab) := by decide

/-- A window of four coded bytes in an OBUF it fills exactly, and the empty window. -/
theorem witness_BpckPacks : (∃ s, WindowFits s ∧ (∀ b ∈ s.window, symGet s.clen b ≠ 0) ∧ s.window = [0x61, 0x61, 0x61, 0x62] ∧
      s.olen.toNat + 1 + ((s.window.map fun b => (symGet s.clen b).toNat).sum + 7) / 8 = s.obufSize.toNat) ∧
    (WindowFits s0 ∧ (∀ b ∈ s0.window, symGet s0.clen b ≠ 0) ∧
      s0.olen.toNat + 1 + ((s0.window.map fun b => (symGet s0.clen b).toNat).sum + 7) / 8 ≤ s0.obufSize.toNat) :=
  ⟨⟨cmds [.fcnt, .tbld, .cgen] (load 0 [0x61, 0x61, 0x61, 0x62] (State.resetWith 4 2)), by unfold WindowFits; decide +kernel⟩,
    by unfold WindowFits; decide +kernel⟩

theorem witness_BpckErrors : (WindowFits sAaab ∧ ∃ b ∈ sAaab.window, symGet sAaab.clen b = 0) ∧
    (WindowFits (State.resetWith 0 0) ∧ (∀ b ∈ (State.resetWith 0 0).window, symGet (State.resetWith 0 0).clen b ≠ 0) ∧
      (State.resetWith 0 0).obufSize.toNat < (State.resetWith 0 0).olen.toNat + 1 +
        (((State.resetWith 0 0).window.map fun b => (symGet (State.resetWith 0 0).clen b).toNat).sum + 7) / 8) := by
  unfold WindowFits; decide +kernel

theorem witness_PackShape : (∃ data : List Byte, data = []) ∧ (∃ (data : List Byte) (last : Byte), data.getLast? = some last) ∧
    pack [true] = [0x07, 0x80] := ⟨⟨[], rfl⟩, ⟨[0x80], 0x80, rfl⟩, by decide⟩

/-- The three failures at their edges, and the two shortest payloads that succeed. -/
theorem witness_BunpView : (WindowFits s0 ∧ s0.srcLen = 0) ∧
    (WindowFits (load 10 [0x08, 0x00] s0) ∧ 7 < ((load 10 [0x08, 0x00] s0).ibufByte (load 10 [0x08, 0x00] s0).srcOff.toNat).toNat) ∧
    (WindowFits (load 10 [0x07] s0) ∧ (load 10 [0x07] s0).srcLen = 1 ∧
      (load 10 [0x07] s0).ibufByte (load 10 [0x07] s0).srcOff.toNat ≠ 0) ∧
    (WindowFits (load 4095 [0x00] s0) ∧ (load 4095 [0x00] s0).srcLen ≠ 0 ∧
      (load 4095 [0x00] s0).ibufByte (load 4095 [0x00] s0).srcOff.toNat = 0) ∧
    (WindowFits (load 10 [0x07, 0x80] s0) ∧ (load 10 [0x07, 0x80] s0).srcLen = 2 ∧
      ((load 10 [0x07, 0x80] s0).ibufByte (load 10 [0x07, 0x80] s0).srcOff.toNat).toNat = 7) := by
  unfold WindowFits; decide +kernel

/-- V5.14: the view is over the byte that is written. -/
theorem witness_ViewIsReference : ∃ t, transact (.writeIbuf 65 0x00) (cmds [.bunp] (load 64 [0x03, 0xB0] s0)) = .next t ∧
    (cmds [.bunp] (load 64 [0x03, 0xB0] s0)).bitOff.toNat + 0 / 8 = (65 : Word).toNat := by
  obtain ⟨t, h, -⟩ := exists_of_nextIs (o := transact (.writeIbuf 65 0x00) (cmds [.bunp] (load 64 [0x03, 0xB0] s0)))
    (p := fun _ => true) (by decide +kernel)
  exact ⟨t, h, by decide +kernel⟩

theorem witness_TserAppends : (HoldsTree (cmds [.fcnt, .tbld] sAaab) (some tAaab) ∧
      (cmds [.fcnt, .tbld] sAaab).olen.toNat + (ser (some tAaab)).length ≤ (cmds [.fcnt, .tbld] sAaab).obufSize.toNat) ∧
    ∃ s, HoldsTree s (some tAaab) ∧ s.obufSize.toNat = 16 ∧ s.obufSize.toNat < s.olen.toNat + (ser (some tAaab)).length :=
  ⟨⟨holds_aaab, by decide +kernel⟩, cmds [.fcnt, .tbld] (load 0 [0x61, 0x61, 0x61, 0x62] (State.resetWith 4 16)),
    by show _ = _; decide +kernel, by decide +kernel, by decide +kernel⟩

theorem witness_SerSelfDelimiting : serTree tAaab ++ [0x04] = serTree tAaab ++ [0x04] ∧ ser none = ser none := ⟨rfl, rfl⟩

theorem witness_TreeRoundTrip : nodeCount (some tAaab) ≤ 511 ∧ nodeCount none ≤ 511 ∧ (∃ ns, des t2 = .ok ns) :=
  ⟨by decide, by decide, ⟨_, rfl⟩⟩

/-- The tree of "aaab", whose root is internal and whose second entry is a leaf, and the absent tree. -/
theorem witness_TdesLoads : (WindowFits (load 0 t2 s0) ∧ (load 0 t2 s0).window = ser (some tAaab) ∧ nodeCount (some tAaab) ≤ 511 ∧
      nextIs (exec .tdes (load 0 t2 s0)) (fun t => (nodeGet t.node 0).kind && !(nodeGet t.node 1).kind) = true) ∧
    (WindowFits s0 ∧ s0.window = ser none ∧ nodeCount none ≤ 511) := by unfold WindowFits; decide +kernel

/-- V6.17: no tree has the serialization 00. -/
theorem witness_TdesErrors : WindowFits (load 0 [0x00] s0) ∧ (load 0 [0x00] s0).window.length < 2560 ∧
    ¬ Has512Nodes (load 0 [0x00] s0).window ∧ ∀ ot, (load 0 [0x00] s0).window = ser ot → 511 < nodeCount ot := by
  have hw : (load 0 [0x00] s0).window = [0x00] := by decide +kernel
  refine ⟨by unfold WindowFits; decide +kernel, by rw [hw]; decide,
    fun h => absurd (has512Nodes_length _ h) (by rw [hw]; decide), fun ot h => ?_⟩
  rw [hw] at h
  cases ot with
  | none => simp [ser] at h
  | some t => cases t <;> simp [ser, serTree] at h

/-- V6.24: the serialization of 513 nodes. -/
def sChain : State := load 0 (ser (some (chain 256))) s0

theorem chain_length : (ser (some (chain 256))).length = 2822 := by
  rw [ser, serTree_length, chain_size]

theorem sChain_window : sChain.window = ser (some (chain 256)) := load_window 0 _ s0 (by decide) (by rw [chain_length]; decide)

/-- Every tree with this serialization has 513 nodes. -/
theorem witness_TdesErrors_full : WindowFits sChain ∧ (∀ ot, sChain.window = ser ot → 511 < nodeCount ot) ∧
    Has512Nodes sChain.window ∧ ∃ ot, sChain.window = ser ot := by
  refine ⟨?_, fun ot h => ?_, ?_, _, sChain_window⟩
  · exact load_fits 0 _ s0 (by decide) (by rw [chain_length]; decide) (by rw [chain_length]; decide)
  · have := congrArg List.length (sChain_window.symm.trans h)
    rw [chain_length, ser_length, serLen] at this
    split at this <;> omega
  · rw [sChain_window]
    exact has512Nodes_serTree _ (by rw [chain_size]; decide)
theorem witness_ChdrAppends : (HoldsTree s0 none ∧ s0.olen.toNat + 4 ≤ s0.obufSize.toNat) ∧
    (∃ s, HoldsTree s none ∧ s.olen.toNat + 4 = s.obufSize.toNat) ∧
    ∃ s, HoldsTree s none ∧ s.obufSize.toNat = 3 ∧ s.obufSize.toNat < s.olen.toNat + 4 :=
  ⟨⟨holds_none, by decide⟩, ⟨State.resetWith 0 4, by show _ = _; decide +kernel, by decide⟩,
    State.resetWith 0 3, by show _ = _; decide +kernel, by decide, by decide⟩

theorem witness_CparSplits : (WindowFits (load 0 [0, 0, 0] s0) ∧ (load 0 [0, 0, 0] s0).srcLen.toNat < 4) ∧
    (WindowFits (load 0 [0, 0, 0, 5, 1, 2, 3, 4] s0) ∧
      (load 0 [0, 0, 0, 5, 1, 2, 3, 4] s0).srcLen.toNat - 4 < windowN (load 0 [0, 0, 0, 5, 1, 2, 3, 4] s0)) ∧
    (WindowFits (load 4092 [0, 0, 0, 0] s0) ∧ 4 ≤ (load 4092 [0, 0, 0, 0] s0).srcLen.toNat ∧
      windowN (load 4092 [0, 0, 0, 0] s0) ≤ (load 4092 [0, 0, 0, 0] s0).srcLen.toNat - 4) ∧
    (WindowFits (load 0 [0, 0, 0, 4, 1, 2, 3, 4] s0) ∧ 4 ≤ (load 0 [0, 0, 0, 4, 1, 2, 3, 4] s0).srcLen.toNat ∧
      windowN (load 0 [0, 0, 0, 4, 1, 2, 3, 4] s0) = (load 0 [0, 0, 0, 4, 1, 2, 3, 4] s0).srcLen.toNat - 4) := by
  unfold WindowFits; decide +kernel

theorem witness_SplitFrame : t2.length < 2 ^ 32 := by decide

/-- The tree of "aaab" in the arena and the view over `04 E0`, OBUF of `n` bytes. -/
def sWalk (tree payload : List Byte) (n : Word) : State :=
  cmds [.bunp] (load 64 payload (cmds [.tdes] (load 0 tree (State.resetWith 4096 n))))

theorem witness_WalkAppends : ViewInv (sWalk t2 [0x04, 0xE0] 4) ∧ HoldsTree (sWalk t2 [0x04, 0xE0] 4) (some tAaab) ∧
    walk (some tAaab) (sWalk t2 [0x04, 0xE0] 4).viewBits = ([0x61, 0x61, 0x61, 0x62], none) ∧
    (sWalk t2 [0x04, 0xE0] 4).olen.toNat + [0x61, 0x61, 0x61, 0x62].length ≤ (sWalk t2 [0x04, 0xE0] 4).obufSize.toNat :=
  ⟨by unfold ViewInv; decide +kernel, by show _ = _; decide +kernel, by decide +kernel, by decide +kernel⟩

/-- V8.18, and V8.22 at its exact OBUF_SIZE. -/
theorem witness_WalkErrors : (ViewInv (sWalk t2 [0x04, 0xE0] 3) ∧ OutputInv (sWalk t2 [0x04, 0xE0] 3) ∧
      HoldsTree (sWalk t2 [0x04, 0xE0] 3) (some tAaab) ∧
      walk (some tAaab) (sWalk t2 [0x04, 0xE0] 3).viewBits = ([0x61, 0x61, 0x61, 0x62], none) ∧
      (sWalk t2 [0x04, 0xE0] 3).obufSize.toNat < (sWalk t2 [0x04, 0xE0] 3).olen.toNat + 4) ∧
    (ViewInv (sWalk [0x01, 0x61, 0, 0, 0, 4] [0x06, 0x40] 1) ∧ OutputInv (sWalk [0x01, 0x61, 0, 0, 0, 4] [0x06, 0x40] 1) ∧
      HoldsTree (sWalk [0x01, 0x61, 0, 0, 0, 4] [0x06, 0x40] 1) (some (.leaf 0x61 4)) ∧
      walk (some (.leaf 0x61 4)) (sWalk [0x01, 0x61, 0, 0, 0, 4] [0x06, 0x40] 1).viewBits = ([0x61], some .malformedPayload) ∧
      (sWalk [0x01, 0x61, 0, 0, 0, 4] [0x06, 0x40] 1).olen.toNat + 1 ≤
        (sWalk [0x01, 0x61, 0, 0, 0, 4] [0x06, 0x40] 1).obufSize.toNat) :=
  ⟨⟨by unfold ViewInv; decide +kernel, by unfold OutputInv; decide +kernel, by show _ = _; decide +kernel, by decide +kernel,
      by decide +kernel⟩,
    by unfold ViewInv; decide +kernel, by unfold OutputInv; decide +kernel, by show _ = _; decide +kernel, by decide +kernel,
      by decide +kernel⟩

/-- Both sides of the third clause of WalkDecodes. -/
theorem witness_WalkDecodes : walk (some tAaab) [true, false] = ([0x61, 0x62], none) ∧
    (∀ p ∈ [((0x61 : Byte), [true]), (0x62, [false])], p ∈ codes (some tAaab)) ∧
    [true, false] = [((0x61 : Byte), [true]), (0x62, [false])].flatMap Prod.snd := by decide

theorem witness_WalkStream : tAaab.syms.Nodup ∧ (∀ b ∈ [(0x61 : Byte), 0x61, 0x62], b ∈ tAaab.syms) := by decide

theorem enc_aaab_length : (encodeBytes [0x61, 0x61, 0x61, 0x62]).length = 23 := by decide +kernel

/-- "aaab" in an OBUF of `n` bytes. -/
def sEnc (n : Word) : State := load 0 [0x61, 0x61, 0x61, 0x62] (State.resetWith 4 n)

theorem sEnc_window (n : Word) : (sEnc n).window = [0x61, 0x61, 0x61, 0x62] := rfl

theorem sEnc_fits (n : Word) : WindowFits (sEnc n) := by show (0 : Word).toNat + (4 : Word).toNat ≤ (4 : Word).toNat; decide

theorem witness_EncOutput : WindowFits (sEnc 23) ∧ (encodeBytes (sEnc 23).window).length ≤ (sEnc 23).obufSize.toNat :=
  ⟨sEnc_fits 23, by rw [sEnc_window, enc_aaab_length]; show 23 ≤ (23 : Word).toNat; decide⟩

theorem sEnc_full (n : Word) (h : n.toNat < 23) : WindowFits (sEnc n) ∧
    (sEnc n).obufSize.toNat < (encodeBytes (sEnc n).window).length :=
  ⟨sEnc_fits n, by rw [sEnc_window, enc_aaab_length]; exact h⟩

/-- The three units: OBUF_SIZE 3, 20 and 22 (V9.15). -/
theorem witness_EncCapacity : ∃ s s' s'' : State,
    (WindowFits s ∧ s.obufSize.toNat < (encodeBytes s.window).length ∧ s.obufSize = 3) ∧
    (WindowFits s' ∧ s'.obufSize.toNat < (encodeBytes s'.window).length ∧ s'.obufSize = 20) ∧
    (WindowFits s'' ∧ s''.obufSize.toNat < (encodeBytes s''.window).length ∧ s''.obufSize = 22) :=
  ⟨sEnc 3, sEnc 20, sEnc 22, ⟨(sEnc_full 3 (by decide)).1, (sEnc_full 3 (by decide)).2, rfl⟩,
    ⟨(sEnc_full 20 (by decide)).1, (sEnc_full 20 (by decide)).2, rfl⟩,
    ⟨(sEnc_full 22 (by decide)).1, (sEnc_full 22 (by decide)).2, rfl⟩⟩

theorem witness_DecOutput : ∃ s, WindowFits s ∧ decodeBytes s.window = .ok [0x61, 0x61, 0x61, 0x62] ∧ s.obufSize.toNat = 4 :=
  ⟨load 0 cAaab (State.resetWith 23 4), by unfold WindowFits; decide +kernel, rfl, rfl⟩

/-- V9.14a, i, g and o: one window for each failing step. -/
theorem witness_DecErrors : (WindowFits s0 ∧ split s0.window = .error .truncatedContainer) ∧
    (∃ c tr pl, WindowFits (load 0 c s0) ∧ (load 0 c s0).window = c ∧ split c = .ok (tr, pl) ∧ des tr = .error .malformedTree) ∧
    (WindowFits (load 0 ([0, 0, 0, 0x11] ++ t2 ++ [0x04]) s0) ∧
      split (load 0 ([0, 0, 0, 0x11] ++ t2 ++ [0x04]) s0).window = .ok (t2, [0x04]) ∧ t2 = ser (some tAaab) ∧
      nodeCount (some tAaab) ≤ 511 ∧ unpack [0x04] = .error .malformedPayload) ∧
    (WindowFits (load 0 cAaab (State.resetWith 23 3)) ∧
      split (load 0 cAaab (State.resetWith 23 3)).window = .ok (t2, [0x04, 0xE0]) ∧ t2 = ser (some tAaab) ∧
      unpack [0x04, 0xE0] = .ok [true, true, true, false] ∧
      walk (some tAaab) [true, true, true, false] = ([0x61, 0x61, 0x61, 0x62], none) ∧
      (State.resetWith 23 3).obufSize.toNat < [(0x61 : Byte), 0x61, 0x61, 0x62].length) := by
  refine ⟨⟨?_, rfl⟩, ⟨[0, 0, 0, 0x12] ++ t2 ++ [0x04, 0xE0], t2 ++ [0x04], [0xE0], ?_, rfl, rfl, rfl⟩,
    ⟨?_, rfl, rfl, by decide, rfl⟩, ?_, rfl, rfl, rfl, rfl, by decide⟩
  all_goals (unfold WindowFits; decide +kernel)

/-- V9.1, then V9.12 in an OBUF of exactly four bytes. -/
theorem witness_CommandRoundTrip : ∃ s t s2, WindowFits s ∧ exec .enc s = .next t ∧ t.status.error = none ∧ WindowFits s2 ∧
    s2.window = t.obufRange 0 t.olen.toNat ∧ s.srcLen.toNat ≤ s2.obufSize.toNat ∧ s.srcLen = 4 := by
  obtain ⟨t, h, h2⟩ := exists_of_nextIs (o := exec .enc sAaab)
    (p := fun t => t.status.error == none && t.obufRange 0 t.olen.toNat == cAaab) (by decide +kernel)
  simp only [Bool.and_eq_true, beq_iff_eq] at h2
  refine ⟨sAaab, t, load 0 cAaab (State.resetWith 23 4), by unfold WindowFits; decide +kernel, h, h2.1,
    by unfold WindowFits; decide +kernel, ?_, by decide +kernel, by decide +kernel⟩
  rw [h2.2]; decide +kernel

/-- Two states with one window, of which one has a history. -/
theorem witness_EncIndependent : WindowFits sAaab ∧
    (load 0 [0x61, 0x61, 0x61, 0x62] (cmds [.enc] (load 0 [0x62, 0x63] s0))).window = sAaab.window ∧
    (load 0 [0x61, 0x61, 0x61, 0x62] (cmds [.enc] (load 0 [0x62, 0x63] s0))).olen ≠ sAaab.olen ∧
    (load 0 [0x61, 0x61, 0x61, 0x62] (cmds [.enc] (load 0 [0x62, 0x63] s0))).srcOff = sAaab.srcOff ∧
    (load 0 [0x61, 0x61, 0x61, 0x62] (cmds [.enc] (load 0 [0x62, 0x63] s0))).srcLen = sAaab.srcLen ∧
    (load 0 [0x61, 0x61, 0x61, 0x62] (cmds [.enc] (load 0 [0x62, 0x63] s0))).ibufSize = sAaab.ibufSize ∧
    (load 0 [0x61, 0x61, 0x61, 0x62] (cmds [.enc] (load 0 [0x62, 0x63] s0))).obufSize = sAaab.obufSize := by
  unfold WindowFits; decide +kernel

theorem witness_DecIndependent : WindowFits (load 0 cAaab s0) ∧
    (load 0 cAaab (cmds [.enc] sAaab)).window = (load 0 cAaab s0).window ∧
    (load 0 cAaab (cmds [.enc] sAaab)).olen ≠ (load 0 cAaab s0).olen ∧
    (load 0 cAaab (cmds [.enc] sAaab)).srcOff = (load 0 cAaab s0).srcOff ∧
    (load 0 cAaab (cmds [.enc] sAaab)).srcLen = (load 0 cAaab s0).srcLen ∧
    (load 0 cAaab (cmds [.enc] sAaab)).ibufSize = (load 0 cAaab s0).ibufSize ∧
    (load 0 cAaab (cmds [.enc] sAaab)).obufSize = (load 0 cAaab s0).obufSize ∧
    nextIs (exec .dec (load 0 cAaab s0)) (fun t => t.status.error == none) = true := by unfold WindowFits; decide +kernel

theorem witness_EncEqualsUnits : (∃ t, runUnits [.oclr, .fcnt, .tbld, .cgen, .chdr, .tser, .bpck] sAaab = some t) ∧
    ∃ t, exec .enc sAaab = .next t ∧ t.status.error = none := by
  obtain ⟨t, h, h2⟩ := exists_of_nextIs (o := exec .enc sAaab) (p := fun t => t.status.error == none) (by decide +kernel)
  exact ⟨Option.isSome_iff_exists.1 (by decide +kernel), t, h, by simpa using h2⟩

/-- V9.1 both ways: DEC, and the decode script of 48_end_to_end.md R209. -/
theorem witness_DecEqualsUnits : (∃ t, exec .dec (load 0 cAaab s0) = .next t ∧ t.status.error = none) ∧
    ∃ t1 t2 t3, runUnits [.oclr, .cpar] (load 0 cAaab s0) = some t1 ∧
      runUnits [.tdes] (t1.setWindow t1.treeOff t1.treeLen) = some t2 ∧
      runUnits [.bunp, .walk] (t2.setWindow t2.payOff t2.payLen) = some t3 ∧ t3.obufRange 0 4 = [0x61, 0x61, 0x61, 0x62] := by
  obtain ⟨t, h, h2⟩ := exists_of_nextIs (o := exec .dec (load 0 cAaab s0)) (p := fun t => t.status.error == none) (by decide +kernel)
  obtain ⟨t1, h3, h4⟩ := exists_of_someIs (o := runUnits [.oclr, .cpar] (load 0 cAaab s0)) (p := fun t1 =>
    someIs (runUnits [.tdes] (t1.setWindow t1.treeOff t1.treeLen)) fun t2 =>
      someIs (runUnits [.bunp, .walk] (t2.setWindow t2.payOff t2.payLen)) fun t3 =>
        t3.obufRange 0 4 == [0x61, 0x61, 0x61, 0x62]) (by decide +kernel)
  obtain ⟨t2, h5, h6⟩ := exists_of_someIs h4
  obtain ⟨t3, h7, h8⟩ := exists_of_someIs h6
  exact ⟨⟨t, h, by simpa using h2⟩, t1, t2, t3, h3, h5, h7, by simpa using h8⟩

/-- A state with a count, a one-leaf tree, a bit view and output: "aaa" was counted and built, OLEN is 4, PAD is 7. -/
def sInv : State :=
  (((s0.setCount (symSet s0.freq 0x61 3) (s0.seq.set 0 0x61) 1).setTree (s0.node.set 0 (leafNode 0x61 3)) 1 0).setView 11 1 7).setOlen 4

theorem sInv_inv : Inv sInv where
  output := by unfold OutputInv; decide +kernel
  count := by
    have hs : sInv.seqList = [0x61] := by decide +kernel
    have hf : sInv.freq = symSet (Vector.replicate 256 0) 0x61 3 := rfl
    have hq : sInv.seq = (Vector.replicate 256 0).set 0 0x61 := rfl
    refine ⟨by decide, by rw [hs]; decide, fun sym => ?_, fun i hi => ?_⟩
    · rw [hs, hf]
      by_cases h : sym = 0x61
      · subst h; decide
      · have : (97 : Nat) ≠ sym.toNat := fun e => h (BitVec.eq_of_toNat_eq e.symm)
        simpa [symGet, symSet, this] using h
    · have : (0 : Nat) ≠ i.val := fun e => by rw [← e] at hi; exact absurd hi (by decide)
      simp [hq, this]
  arena := .inr ⟨by decide +kernel, by decide +kernel, [0], by decide +kernel, by decide +kernel⟩
  code := by intro sym j _ _; simp [sInv, s0, State.reset, State.resetWith, State.setOlen, State.setView, State.setTree, State.setCount, symGet]
  view := by unfold ViewInv; decide +kernel
  parse := by unfold ParseInv; decide +kernel
  buffer := by unfold BufferInv; decide +kernel

theorem witness_CommandsEnd : ∃ s, Inv s ∧ s.k = 1 ∧ s.nnodes = 1 ∧ s.pad = 7 ∧ s.olen = 4 := ⟨sInv, sInv_inv, rfl, rfl, rfl, rfl⟩

theorem witness_StepKeepsInv : ∃ s t, Inv s ∧ s.script = [] ∧ step s = .next t := ⟨sInv, sInv, sInv_inv, rfl, rfl⟩

theorem witness_StepKeepsBuffers : ∃ s t, BufferInv s ∧ s.script = [.writeIbuf 4095 0x2A] ∧ step s = .next t := by
  obtain ⟨t, h, -⟩ := exists_of_nextIs (o := step (sAaab.setScript [.writeIbuf 4095 0x2A])) (p := fun _ => true) (by decide +kernel)
  exact ⟨_, t, by unfold BufferInv; decide +kernel, rfl, h⟩

theorem witness_ArenaHoldsTree : ArenaInv sInv ∧ sInv.nnodes ≠ 0 ∧ ArenaInv s0 ∧ s0.nnodes = 0 :=
  ⟨sInv_inv.arena, by decide, .inl ⟨rfl, rfl⟩, rfl⟩

theorem witness_RegisterWrites : (2 : Nat) ≠ 0 ∧ (2 : Nat) ≠ 3 ∧ (2 : Nat) ≠ 19 ∧ (3 : Nat) ≠ 0 ∧ (17 : Nat) ≠ 0 ∧ (18 : Nat) ≠ 0 ∧
    (4 : Nat) ≠ 0 ∧ (4 : Nat) ≠ 2 ∧ (4 : Nat) ≠ 3 ∧ (4 : Nat) ≠ 17 ∧ (4 : Nat) ≠ 18 := by decide

/-- The last id and the first index outside, the last word of a code, the first unmapped register. -/
theorem witness_TablePortReads : 19 < 20 ∧ 510 < 511 ∧ 255 < 256 ∧ 256 ≤ (256 : BitVec 11).toNat ∧ 511 ≤ (511 : BitVec 11).toNat ∧
    ((6 : BitVec 3) = 6 ∨ (6 : BitVec 3) = 7) := by decide

/-- The last address of each buffer, and the first outside. -/
theorem witness_BufferTransactions : (4095 : Word).toNat < s0.ibufSize.toNat ∧ (4095 : Word).toNat < s0.obufSize.toNat ∧
    s0.ibufSize.toNat ≤ (4096 : Word).toNat ∧ s0.obufSize.toNat ≤ (4096 : Word).toNat := by decide

end Sys2Proof.Tests
end

section
/-! SUPPORT. A command whose body is one append, in the wrapper (20_memory.md R68, 49_control.md R220). -/

namespace Sys2Proof.Machine

open Sys2Proof.Safety

/-- A body that left STATUS alone ends, after `Finish`, as the caller says (49_control.md R220). -/
theorem finish_ended (s t : State) (e : Option (ErrKind × BlockUnit)) (op : Byte) (h : t.status = s.status) :
    Ended s (t.finish e op) op e := by
  rw [Ended, State.finish_status, h]; rfl

theorem takeError_ended (c : CommandForm) (o : Word) (e : ErrKind) (u : BlockUnit) (s : State) :
    Ended s (takeError c o e u s) c.op (some (e, u)) := takeError_status c o e u s

/-- RST is no appending command (30_encoding.md R82). -/
theorem ne_rst_of_appends {i : Instr} (ha : (commandForm i).appends = true) : i ≠ .rst := by
  rintro rfl; cases ha

section

variable (i : Instr) (u : BlockUnit) (bs : List Byte) (s : State)
  (hw : i ∈ windowCommands → WindowFits s) (ha : (commandForm i).appends = true)
  (hb : commandBody i s = appendBytes u bs s)

include hw ha hb

/-- An appending command that has room completes, and appends its bytes. -/
theorem exec_append_of_fits (hf : s.olen.toNat + bs.length ≤ s.obufSize.toNat) :
    ∃ t, exec i s = .next t ∧ Ended s t (opcode i) none ∧ Appended s t bs ∧ SameAllButOutput s t := by
  refine ⟨(afterAppend s bs).finish none (opcode i), ?_, finish_ended s _ none _ rfl, afterAppend_appended s bs hf,
    afterAppend_same s bs⟩
  rw [exec_eq_runCommand i s (ne_rst_of_appends ha),
    runCommand_done _ _ s _ (fun h => hw ((commandForm_window i).1 h)) (hb.trans (appendBytes_of_fits u bs s hf)), commandForm_op]

/-- An appending command that has no room raises CapacityExceeded, without output (60_exceptions.md R238). -/
theorem exec_append_of_full (hc : (commandForm i).clears = false) (hf : s.obufSize.toNat < s.olen.toNat + bs.length) :
    ∃ t, exec i s = .next t ∧ Ended s t (opcode i) (some (.capacityExceeded, u)) ∧ NoOutput s t s.olen ∧
      SameAllButOutput s t := by
  have hend := takeError_ended (commandForm i) s.olen .capacityExceeded u s
  have hout := takeError_noOutput (commandForm i) ha s.olen .capacityExceeded u s
  rw [commandForm_op] at hend
  rw [hc] at hout
  refine ⟨_, ?_, hend, hout, takeError_same _ _ _ _ s⟩
  rw [exec_eq_runCommand i s (ne_rst_of_appends ha)]
  exact runCommand_raised _ _ s s _ u (fun h => hw ((commandForm_window i).1 h))
    (hb.trans (appendBytes_of_full u bs s hf))

end

end Sys2Proof.Machine
end

section
/-! CHDR: its field, and obligation O35 (46_container_format.md R181). -/

namespace Sys2Proof.Machine

open Sys2Proof.Safety

/-- The four bytes of `BE32(v)`, most significant first, name `v` (00_scope.md R10). -/
theorem be32_bytes (v : Word) : ∃ b0 b1 b2 b3 : Byte, be32 v = [b0, b1, b2, b3] ∧
    b0.toNat * 2 ^ 24 + b1.toNat * 2 ^ 16 + b2.toNat * 2 ^ 8 + b3.toNat = v.toNat :=
  ⟨_, _, _, _, rfl, by rw [← unBE32_toNat, unBE32_be32]⟩

/-- The serialization of a tree in the arena has a length of 32 bits, so CHDR's field holds it exactly. -/
theorem ser_length_lt (s : State) (ot : Option HTree) (h : HoldsTree s ot) : (ser ot).length < 2 ^ 32 := by
  have hle := holdsTree_size_le s ot h
  rw [ser_length, serLen]
  split <;> omega

/-- Settles O35: CHDR's body is one append of four bytes, which name the length of the serialized tree. -/
theorem chdrAppends : Obligations.ChdrAppends := by
  unfold Obligations.ChdrAppends
  intro s ot hot
  obtain ⟨b0, b1, b2, b3, hbytes, hsum⟩ := be32_bytes (BitVec.ofNat 32 (ser ot).length)
  rw [BitVec.toNat_ofNat, Nat.mod_eq_of_lt (ser_length_lt s ot hot)] at hsum
  have hbody : commandBody .chdr s = appendBytes .cfmt [b0, b1, b2, b3] s :=
    hbytes ▸ chdrBody_of_holds s ot hot
  have hwin : Instr.chdr ∈ windowCommands → WindowFits s := fun h => absurd h (by decide)
  constructor
  · intro hfit
    obtain ⟨t, hexec, hend, happ, hsame⟩ := exec_append_of_fits .chdr .cfmt _ s hwin rfl hbody hfit
    exact ⟨t, b0, b1, b2, b3, hexec, hend, happ, hsum, hsame⟩
  · exact exec_append_of_full .chdr .cfmt _ s hwin rfl hbody rfl

end Sys2Proof.Machine
end

section
/-! SUPPORT. Properties of the state that every update of a command keeps, and so every command. -/

namespace Sys2Proof.Machine

open Sys2Proof.Safety

/-- The state in which a body stops, completed or at an error, meets `P`; a body that is stuck leaves none. -/
def BodyResult.All (P : State → Prop) : BodyResult → Prop
  | .done s => P s
  | .raised _ _ s => P s
  | .stuck _ => True

section

variable {P Q : State → Prop}

theorem BodyResult.All.and : ∀ {r : BodyResult}, r.All P → r.All Q → r.All fun s => P s ∧ Q s
  | .done _, hp, hq => ⟨hp, hq⟩
  | .raised _ _ _, hp, hq => ⟨hp, hq⟩
  | .stuck _, _, _ => trivial

theorem BodyResult.All.andThen {f : State → BodyResult} (hf : ∀ s, P s → (f s).All P) :
    ∀ {r : BodyResult}, r.All P → (r.andThen f).All P
  | .done s, h => hf s h
  | .raised _ _ _, h => h
  | .stuck _, _ => trivial

/-- A body on CurrentTree, given what it does on each tree the arena can hold. -/
theorem withTree_all {s : State} {f : Option HTree → BodyResult} (hf : ∀ ot, HoldsTree s ot → (f ot).All P) :
    (withTree s f).All P := by
  rw [withTree]
  split
  · next hc => exact hf none hc
  · next t hc => exact hf (some t) hc
  · trivial

theorem appendBytes_all {s : State} (u : BlockUnit) (bs : List Byte) (h : P s)
    (ha : s.olen.toNat + bs.length ≤ s.obufSize.toNat → P (afterAppend s bs)) : (appendBytes u bs s).All P := by
  rcases appendBytes_cases u bs s with ⟨hfit, he⟩ | ⟨-, he⟩ <;> rw [he]
  · exact ha hfit
  · exact h

theorem appendEach_all (u : BlockUnit)
    (ha : ∀ s bs, P s → s.olen.toNat + bs.length ≤ s.obufSize.toNat → P (afterAppend s bs)) :
    ∀ (bs : List Byte) (s : State), P s → (appendEach u bs s).All P
  | [], _, h => h
  | b :: bs, s, h => (appendBytes_all u [b] h (ha s [b] h)).andThen fun t => appendEach_all u ha bs t

/-- WALK, from what one append keeps: its other steps change nothing (47_decode_walk.md R192). -/
theorem walkBody_all (ha : ∀ s bs, P s → s.olen.toNat + bs.length ≤ s.obufSize.toNat → P (afterAppend s bs))
    {s : State} (h : P s) : (walkBody s).All P := by
  rw [walkBody]
  split
  · refine withTree_all fun ot _ => (appendEach_all .walk ha _ s h).andThen fun t ht => ?_
    split <;> exact ht
  · trivial

/-- A body that ran, in a command that reads the window, ran on a window that fits (49_control.md R221). -/
theorem windowFits_of_ran {c : CommandForm} {s : State} (h : c.window = false ∨ s.windowOk = true) (hc : c.window = true) :
    WindowFits s := (windowOk_iff s).1 (h.resolve_left (by rw [hc]; decide))

/-- The wrapper, from the body: what it answers meets `P` when the body's last state does and `Finish` and taking an error keep it
(49_control.md R220). The body runs on a window that fits. -/
theorem runCommand_next_all {c : CommandForm} {body : State → BodyResult} {s t : State} (hrun : runCommand c body s = .next t)
    (hs : P s) (hbody : (c.window = true → WindowFits s) → (body s).All P) (hfinish : ∀ u e, P u → P (u.finish e c.op))
    (herror : ∀ e b u, P u → P (takeError c s.olen e b u)) : P t := by
  rcases runCommand_cases c body s with ⟨-, -, e⟩ | ⟨hw, ⟨u, hb, e⟩ | ⟨k, b, u, hb, e⟩ | ⟨f, -, e⟩⟩ <;>
    rw [e] at hrun <;> cases hrun
  · exact hfinish s _ hs
  · have hu := hbody (windowFits_of_ran hw); rw [hb] at hu
    exact hfinish u _ hu
  · have hu := hbody (windowFits_of_ran hw); rw [hb] at hu
    exact herror k b u hu

end

/-- `P` is kept by each update that a command other than RST makes, whatever it writes. -/
structure KeptByUpdates (P : State → Prop) : Prop where
  setStatus : ∀ s v, P s → P (s.setStatus v)
  setOlen : ∀ s v, P s → P (s.setOlen v)
  setParse : ∀ s a b c d, P s → P (s.setParse a b c d)
  setView : ∀ s a b c, P s → P (s.setView a b c)
  setCount : ∀ s f q k, P s → P (s.setCount f q k)
  setTree : ∀ s v n r, P s → P (s.setTree v n r)
  setNodeDraw : ∀ s d, P s → P (s.setNodeDraw d)
  setCodes : ∀ s l b, P s → P (s.setCodes l b)
  afterAppend : ∀ s bs, P s → P (afterAppend s bs)
  scrubOutput : ∀ s n, P s → P (s.scrubOutput n)

namespace KeptByUpdates

variable {P : State → Prop} (hP : KeptByUpdates P) {s : State}

include hP

theorem finish (e : Option (ErrKind × BlockUnit)) (op : Byte) (h : P s) : P (s.finish e op) := hP.setStatus s _ h

theorem takeError (c : CommandForm) (o : Word) (e : ErrKind) (u : BlockUnit) (h : P s) : P (takeError c o e u s) := by
  refine hP.finish _ _ (hP.setOlen _ _ ?_)
  split
  · exact hP.scrubOutput s _ h
  · exact h

theorem append (u : BlockUnit) (bs : List Byte) (h : P s) : (appendBytes u bs s).All P :=
  appendBytes_all u bs h fun _ => hP.afterAppend s bs h

theorem tbldBody (h : P s) : (tbldBody s).All P := by
  rw [Machine.tbldBody]
  split
  · trivial
  · split <;> exact hP.setTree s _ _ _ h

theorem cgenBody (h : P s) : (cgenBody s).All P := withTree_all fun _ _ => hP.setCodes s _ _ h

theorem bpckBody (h : P s) : (bpckBody s).All P := by
  rw [Machine.bpckBody]
  split
  · exact h
  · exact hP.append _ _ h

theorem bunpBody (off len : Word) (h : P s) : (bunpBody off len s).All P := by
  rw [Machine.bunpBody]
  split <;> exact hP.setView s _ _ _ h

theorem tserBody (h : P s) : (tserBody s).All P := withTree_all fun _ _ => hP.append _ _ h

theorem tdesBody (off len : Word) (h : P s) : (tdesBody off len s).All P := by
  rw [Machine.tdesBody]
  split
  · exact hP.setTree s _ _ _ h
  · exact hP.setNodeDraw _ _ (hP.setTree s _ _ _ h)

theorem cparBody (off len : Word) (h : P s) : (cparBody off len s).All P := by
  rw [Machine.cparBody]
  split <;> exact hP.setParse s _ _ _ _ h

theorem walkBody (h : P s) : (walkBody s).All P := walkBody_all (fun s bs h _ => hP.afterAppend s bs h) h

/-- ENC: each of its steps keeps `P` (48_end_to_end.md R201). -/
theorem encBody (h : P s) : (encBody s).All P :=
  BodyResult.All.andThen (r := oclrBody s) (fun _ h => BodyResult.All.andThen (r := fcntBody _)
    (fun _ h => (hP.tbldBody h).andThen fun _ h => (hP.cgenBody h).andThen fun _ h =>
      (hP.append _ _ h).andThen fun _ h => (hP.tserBody h).andThen fun _ h => hP.bpckBody h)
    (hP.setCount _ _ _ _ h)) (hP.setOlen s 0 h)

/-- DEC: each of its steps keeps `P` (48_end_to_end.md R204). -/
theorem decBody (h : P s) : (decBody s).All P :=
  BodyResult.All.andThen (r := oclrBody s) (fun _ h => (hP.cparBody _ _ h).andThen fun _ h =>
    (hP.tdesBody _ _ h).andThen fun _ h => (hP.bunpBody _ _ h).andThen fun _ h => hP.walkBody h) (hP.setOlen s 0 h)

theorem commandBody (i : Instr) (h : P s) : (commandBody i s).All P := by
  cases i
  case nop | rst => exact h
  case fcnt => exact hP.setCount s _ _ _ h
  case tbld => exact hP.tbldBody h
  case cgen => exact hP.cgenBody h
  case bpck => exact hP.bpckBody h
  case bunp => exact hP.bunpBody _ _ h
  case tser => exact hP.tserBody h
  case tdes => exact hP.tdesBody _ _ h
  case chdr => exact hP.append _ _ h
  case cpar => exact hP.cparBody _ _ h
  case walk => exact hP.walkBody h
  case enc => exact hP.encBody h
  case dec => exact hP.decBody h
  case oclr => exact hP.setOlen s 0 h

/-- What every update keeps, every command but RST keeps, successful or failed. -/
theorem exec {i : Instr} {t : State} (hi : i ≠ .rst) (he : exec i s = .next t) (h : P s) : P t := by
  rw [exec_eq_runCommand i s hi] at he
  exact runCommand_next_all he h (fun _ => hP.commandBody i h) (fun _ _ => hP.finish _ _) fun _ _ _ => hP.takeError _ _ _ _

end KeptByUpdates

/-! ### Host transactions (20_memory.md R62) -/

/-- `P` is kept by everything a host transaction does beside a command: its own bookkeeping, a register write, a byte written to
IBUF, the hardware reset, and `Finish` after an illegal command word. -/
structure KeptByHost (P : State → Prop) : Prop where
  setScript : ∀ s ts, P s → P (s.setScript ts)
  setReply : ∀ s r, P s → P (s.setReply r)
  setWindow : ∀ s off len, P s → P (s.setWindow off len)
  setPort : ∀ s sel idx, P s → P (s.setPort sel idx)
  writeIbuf : ∀ s a b, P s → P (s.setIbuf (memSet s.ibuf a b))
  hardReset : ∀ s, P s → P s.hardReset
  finish : ∀ s e op, P s → P (s.finish e op)

namespace KeptByHost

variable {P : State → Prop} (hP : KeptByHost P) (hexec : ∀ i s t, P s → exec i s = .next t → P t) {s t : State}

include hP

theorem regWrite (n : Nat) (v : Word) (h : P s) : P (s.regWrite n v) := by
  rw [State.regWrite.eq_def]
  split
  · exact hP.setWindow s _ _ h
  · exact hP.setWindow s _ _ h
  · exact hP.setPort s _ _ h
  · exact hP.setPort s _ _ h
  · exact h

include hexec

theorem executeWord (w : Word) (h : P s) (he : executeWord w s = .next t) : P t := by
  rw [Machine.executeWord] at he
  split at he
  · exact hexec _ s t h he
  · cases he; exact hP.finish s _ _ h

theorem transact (x : HostTxn) (h : P s) (he : transact x s = .next t) : P t := by
  cases x <;> simp only [Machine.transact] at he
  case readReg n => cases he; exact hP.setReply s _ h
  case writeReg n v =>
    split at he
    · exact hP.executeWord hexec v (hP.setReply s _ h) he
    · cases he; exact hP.setReply _ _ (hP.regWrite n v h)
  case writeIbuf a b =>
    split at he <;> cases he
    exact hP.setReply _ _ (hP.writeIbuf s _ _ h)
  case readIbuf a => split at he <;> cases he; exact hP.setReply s _ h
  case readObuf a => split at he <;> cases he; exact hP.setReply s _ h
  case hostReset => cases he; exact hP.hardReset s h

/-- What commands and host transactions keep, every step keeps. -/
theorem step (h : P s) (he : step s = .next t) : P t := by
  rw [Machine.step, stepScript] at he
  split at he
  · cases he; exact h
  · exact hP.transact hexec _ (hP.setScript s _ h) he

end KeptByHost

end Sys2Proof.Machine
end

section
/-! Commands leave IBUF and the sizes, and every step keeps the buffers' form: obligations O12 and O54. -/

namespace Sys2Proof.Machine

open Sys2Proof.Safety

/-- The fields that no update of a command writes: IBUF, the sizes, the script and the reply of `t` are those of `s`. -/
def KeepsInput (s t : State) : Prop :=
  t.ibuf = s.ibuf ∧ t.ibufDraw = s.ibufDraw ∧ t.ibufSize = s.ibufSize ∧ t.obufSize = s.obufSize ∧ t.script = s.script ∧
    t.reply = s.reply

theorem KeepsInput.refl (s : State) : KeepsInput s s := ⟨rfl, rfl, rfl, rfl, rfl, rfl⟩

theorem keepsInput_kept (s : State) : KeptByUpdates (KeepsInput s) where
  setStatus _ _ h := h
  setOlen _ _ h := h
  setParse _ _ _ _ _ h := h
  setView _ _ _ _ h := h
  setCount _ _ _ _ h := h
  setTree _ _ _ _ h := h
  setNodeDraw _ _ h := h
  setCodes _ _ _ h := h
  afterAppend _ _ h := h
  scrubOutput _ _ h := h

/-- A command only reads IBUF, and RST too leaves it as it is (20_memory.md R60, 49_control.md R225). -/
theorem exec_keepsInput {i : Instr} {s t : State} (he : exec i s = .next t) : KeepsInput s t := by
  by_cases hi : i = .rst
  · subst hi; cases he; exact KeepsInput.refl s
  · exact (keepsInput_kept s).exec hi he (KeepsInput.refl s)

/-- Settles O12: no update that a command makes writes IBUF, a size, the script or the reply. -/
theorem inputUntouched : Obligations.InputUntouched := by
  unfold Obligations.InputUntouched
  intro s i t he
  obtain ⟨hib, hdraw, hisz, hosz, hscript, hreply⟩ := exec_keepsInput he
  exact ⟨fun a => by simp only [State.ibufByte, hib, hdraw], hisz, hosz, hscript, hreply⟩

/-- Only an append and the scrub of a failed append write a buffer, both in canonical form. -/
theorem bufferInv_kept : KeptByUpdates BufferInv where
  setStatus _ _ h := h
  setOlen _ _ h := h
  setParse _ _ _ _ _ h := h
  setView _ _ _ _ h := h
  setCount _ _ _ _ h := h
  setTree _ _ _ _ h := h
  setNodeDraw _ _ h := h
  setCodes _ _ _ h := h
  afterAppend _ _ h := ⟨h.1, memWf_memWrite _ _ _ h.2⟩
  scrubOutput s n h := ⟨h.1, s.scrubOutput_wf n⟩

theorem exec_keepsBuffers (i : Instr) (s t : State) (h : BufferInv s) (he : exec i s = .next t) : BufferInv t := by
  by_cases hi : i = .rst
  · subst hi; cases he; exact h
  · exact bufferInv_kept.exec hi he h

theorem bufferInv_keptByHost : KeptByHost BufferInv where
  setScript _ _ h := h
  setReply _ _ h := h
  setWindow _ _ _ h := h
  setPort _ _ _ h := h
  writeIbuf _ _ _ h := ⟨memWf_memSet _ _ _ h.1, h.2⟩
  hardReset _ _ := ⟨rfl, rfl⟩
  finish _ _ _ h := h

/-- Settles O54: every write to a buffer, by the host or by a command, keeps its addresses strictly rising. -/
theorem stepKeepsBuffers : Obligations.StepKeepsBuffers := by
  unfold Obligations.StepKeepsBuffers
  intro s t h he
  exact bufferInv_keptByHost.step exec_keepsBuffers h he

end Sys2Proof.Machine
end

section
/-! The invariants of 10_state.md R43: the arena holds one tree (O55), they hold after reset (O52), and every step keeps them
(O53). -/

namespace Sys2Proof.Safety

open Sys2Proof.Machine

/-- Settles O55: the tree that invariant 3 gives has NNODES nodes, and its size bounds its leaves and its depth. -/
theorem arenaHoldsTree : Obligations.ArenaHoldsTree := by
  unfold Obligations.ArenaHoldsTree
  intro s h
  rcases holds_of_arenaInv s h with ⟨h0, -, habs⟩ | ⟨t, -, h0, htree, hsize, -, -⟩
  · exact .inl ⟨h0, habs⟩
  · have hleaves := t.size_eq_leaves
    have hdepth := t.two_depth_lt_size
    have hlt := s.nnodes.isLt
    exact .inr ⟨t, h0, htree, hsize, by omega, by omega⟩

/-! ### After reset -/

theorem inv_resetWith (a b : Word) : Inv (State.resetWith a b) where
  output := Nat.zero_le _
  count := by
    refine ⟨Nat.zero_le _, List.nodup_nil, fun sym => ?_, fun i _ => ?_⟩
    · simp [State.resetWith, symGet_replicate, State.seqList]
    · simp [State.resetWith]
  arena := .inl ⟨rfl, rfl⟩
  code sym j _ _ := by
    have hbits : symGet (State.resetWith a b).cbits sym = 0 := symGet_replicate _ _
    rw [hbits, BitVec.ofNat_eq_ofNat, BitVec.getLsbD_zero]
  view := ⟨fun _ => rfl, Nat.zero_le _⟩
  parse := ⟨rfl, Nat.zero_le _⟩
  buffer := ⟨rfl, rfl⟩

/-- Settles O52: every register and table is 0 and both buffers are empty. -/
theorem resetMeetsInv : Obligations.ResetMeetsInv := by
  unfold Obligations.ResetMeetsInv
  exact ⟨inv_resetWith, inv_resetWith 4096 4096⟩

/-! ### One update: the invariants it can break are those of what it writes -/

namespace Inv

variable {s : State} (h : Inv s)

include h

theorem finish (e : Option (ErrKind × BlockUnit)) (op : Byte) : Inv (s.finish e op) := { h with }

theorem setOlen (v : Word) (hv : v.toNat ≤ s.obufSize.toNat) : Inv (s.setOlen v) := { h with output := hv }

theorem setParse (a b c d : Word) (hp : ParseInv (s.setParse a b c d)) : Inv (s.setParse a b c d) := { h with parse := hp }

theorem setView (a b : Word) (c : BitVec 3) (hv : ViewInv (s.setView a b c)) : Inv (s.setView a b c) := { h with view := hv }

theorem setCount (f : Vector Word 256) (q : Vector Byte 256) (k : BitVec 9) (hc : CountInv (s.setCount f q k)) :
    Inv (s.setCount f q k) := { h with count := hc }

theorem setTree (v : Vector Node 511) (n r : BitVec 9) (ha : ArenaInv (s.setTree v n r)) : Inv (s.setTree v n r) :=
  { h with arena := ha }

theorem dropTree : Inv s.dropTree := { h with arena := .inl ⟨rfl, rfl⟩ }

theorem setCodes (l : Vector Byte 256) (b : Vector (BitVec 256) 256) (hc : CodeInv (s.setCodes l b)) : Inv (s.setCodes l b) :=
  { h with code := hc }

theorem afterAppend (bs : List Byte) (hfit : s.olen.toNat + bs.length ≤ s.obufSize.toNat) : Inv (afterAppend s bs) :=
  { h with
    output := (afterAppend_olen s bs hfit).trans_le hfit
    buffer := bufferInv_kept.afterAppend s bs h.buffer }

theorem takeError (c : CommandForm) (o : Word) (e : ErrKind) (u : BlockUnit) (ho : o.toNat ≤ s.obufSize.toNat) :
    Inv (takeError c o e u s) := by
  have hscrub : Inv (if c.appends then s.scrubOutput (if c.clears then 0 else o).toNat else s) := by
    split
    · exact { h with buffer := bufferInv_kept.scrubOutput s _ h.buffer }
    · exact h
  have hosz : (if c.appends then s.scrubOutput (if c.clears then 0 else o).toNat else s).obufSize = s.obufSize := by
    split <;> rfl
  refine (hscrub.setOlen _ ?_).finish _ _
  rw [hosz]
  split
  · exact Nat.zero_le _
  · exact ho

theorem softReset : Inv s.softReset := { inv_resetWith s.ibufSize s.obufSize with buffer := h.buffer }

/-! ### One body -/

theorem fcntBody : (fcntBody s).All Inv := by
  obtain ⟨t, he, ht, hfreq, hseq, hk, hrest⟩ := fcntBody_counts s
  have hcount : CountInv t := by
    refine ⟨hk ▸ nodup_length_le _ (countSeq_nodup _), hseq ▸ countSeq_nodup _, fun sym => ?_, hrest⟩
    rw [hseq, mem_countSeq, hfreq sym]
    exact List.one_le_count_iff
  rw [he, ht]
  exact h.setCount _ _ _ (ht ▸ hcount)

theorem tbldBody : (tbldBody s).All Inv := by
  by_cases h0 : s.k = 0
  · rw [tbldBody_zero s h0]
    exact h.setTree _ _ _ (.inl ⟨rfl, rfl⟩)
  · obtain ⟨hk, -⟩ := h.count
    obtain ⟨t, _, he, ht, -, -, -, -, -, -, harena, -, -⟩ := tbldBody_build s h0 hk
    rw [he, ht]
    exact h.setTree _ _ _ (ht ▸ harena)

theorem cgenBody : (cgenBody s).All Inv := withTree_all fun ot hot =>
  h.setCodes _ _ (codeInv_setCodes s _ (codes_length_option ot (holdsTree_size_le s ot hot)))

theorem append (u : BlockUnit) (bs : List Byte) : (appendBytes u bs s).All Inv := appendBytes_all u bs h (h.afterAppend bs)

theorem bpckBody : (bpckBody s).All Inv := by
  rw [Machine.bpckBody]
  split
  · exact h
  · exact h.append _ _

theorem bunpBody (off len : Word) (hw : off.toNat + len.toNat ≤ s.ibufSize.toNat) : (bunpBody off len s).All Inv := by
  have hsize := s.ibufSize.isLt
  by_cases hf : bunpFails s off len
  · rw [(bunpBody_fails s off len hf).1]
    exact h.setView _ _ _ ⟨fun _ => rfl, Nat.zero_le _⟩
  · obtain ⟨t, he, ht, hoff, hlen, -, hpad, -⟩ := bunpBody_done s off len hf (by omega)
    have hview : t.bitOff.toNat + t.dataLen.toNat ≤ s.ibufSize.toNat := by omega
    rw [he, ht]
    exact h.setView _ _ _ ⟨hpad, hview⟩

theorem tserBody : (tserBody s).All Inv := withTree_all fun _ _ => h.append _ _

theorem tdesBody (off len : Word) : (tdesBody off len s).All Inv := by
  cases hd : des (s.ibufRange off.toNat len.toNat) with
  | error e =>
    rw [tdesBody_fails s off len e hd]
    exact h.dropTree
  | ok ns =>
    obtain ⟨-, -, -, -, -, -, harena⟩ := loadNodes_des s _ ns hd
    rw [tdesBody_done s off len ns hd]
    exact h.setTree _ _ _ harena

theorem cparBody (off len : Word) (hw : off.toNat + len.toNat ≤ s.ibufSize.toNat) : (cparBody off len s).All Inv := by
  have hsize := s.ibufSize.isLt
  by_cases hf : cparFails s off len
  · rw [(cparBody_fails s off len hf).1]
    exact h.setParse _ _ _ _ ⟨rfl, Nat.zero_le _⟩
  · obtain ⟨t, he, ht, -, -, hpay, hend, -⟩ := cparBody_done s off len hf (by omega)
    rw [he, ht]
    exact h.setParse _ _ _ _ ⟨hpay.symm, hend.trans_le hw⟩

theorem walkBody : (walkBody s).All Inv := walkBody_all (fun _ bs h => h.afterAppend bs) h

theorem oclrBody : (oclrBody s).All Inv := h.setOlen 0 (Nat.zero_le _)

/-- ENC: each of its steps keeps the invariants (48_end_to_end.md R201). -/
theorem encBody : (encBody s).All Inv :=
  h.oclrBody.andThen fun _ h => h.fcntBody.andThen fun _ h => h.tbldBody.andThen fun _ h => h.cgenBody.andThen fun _ h =>
    (h.append _ _).andThen fun _ h => h.tserBody.andThen fun _ h => h.bpckBody

/-- DEC: CPAR runs on the window; by invariant 6 the payload region that BUNP then runs on lies in IBUF too
(48_end_to_end.md R204). -/
theorem decBody (hw : WindowFits s) : (decBody s).All Inv :=
  ((h.setOlen 0 (Nat.zero_le _)).cparBody s.srcOff s.srcLen hw).andThen fun _ h => (h.tdesBody _ _).andThen fun _ h =>
    (h.bunpBody _ _ h.parse.2).andThen fun _ h => h.walkBody

theorem commandBody (i : Instr) (hw : i ∈ windowCommands → WindowFits s) : (commandBody i s).All Inv := by
  cases i
  case nop | rst => exact h
  case fcnt => exact h.fcntBody
  case tbld => exact h.tbldBody
  case cgen => exact h.cgenBody
  case bpck => exact h.bpckBody
  case bunp => exact h.bunpBody _ _ (hw (by decide))
  case tser => exact h.tserBody
  case tdes => exact h.tdesBody _ _
  case chdr => exact h.append _ _
  case cpar => exact h.cparBody _ _ (hw (by decide))
  case walk => exact h.walkBody
  case enc => exact h.encBody
  case dec => exact h.decBody (hw (by decide))
  case oclr => exact h.oclrBody

end Inv

/-! ### Every command and every step -/

/-- The body keeps the invariants, and taking an error restores an OLEN that met invariant 1: no body changes OBUF_SIZE. -/
theorem exec_keepsInv (i : Instr) (s t : State) (h : Inv s) (he : exec i s = .next t) : Inv t := by
  by_cases hi : i = .rst
  · subst hi; cases he; exact h.softReset
  rw [exec_eq_runCommand i s hi] at he
  have hbody : ((commandForm i).window = true → WindowFits s) →
      (commandBody i s).All fun u => Inv u ∧ KeepsInput s u := fun hw =>
    (h.commandBody i fun hi => hw ((commandForm_window i).2 hi)).and ((keepsInput_kept s).commandBody i (KeepsInput.refl s))
  refine (runCommand_next_all he ⟨h, KeepsInput.refl s⟩ hbody (fun u e ⟨hinv, hkeeps⟩ => ⟨hinv.finish e _, hkeeps⟩)
    fun e b u ⟨hinv, hkeeps⟩ => ?_).1
  have ⟨_, _, _, hosz, _, _⟩ := hkeeps
  exact ⟨hinv.takeError _ _ e b (hosz ▸ h.output), (keepsInput_kept s).takeError _ _ e b hkeeps⟩

theorem inv_keptByHost : KeptByHost Inv where
  setScript _ _ h := { h with }
  setReply _ _ h := { h with }
  setWindow _ _ _ h := { h with }
  setPort _ _ _ h := { h with }
  writeIbuf s a b h := { h with buffer := bufferInv_keptByHost.writeIbuf s a b h.buffer }
  hardReset s _ := { inv_resetWith s.ibufSize s.obufSize with }
  finish _ _ _ h := h.finish _ _

/-- Settles O53: every command keeps the invariants, and so does everything else that a host transaction does. -/
theorem stepKeepsInv : Obligations.StepKeepsInv := by
  unfold Obligations.StepKeepsInv
  intro s t h he
  exact inv_keptByHost.step exec_keepsInv h he

end Sys2Proof.Safety
end

section
/-! No body reads STATUS or the table port: it does the same whatever they hold; and obligation O10 (10_state.md R41). -/

namespace Sys2Proof.Machine

/-- The state with other values in STATUS and in the table port, the fields that no body reads or writes. -/
def State.mapUnread (g : Status → Status) (sel : BitVec 3 → BitVec 3) (idx : BitVec 11 → BitVec 11) (s : State) : State :=
  { s with status := g s.status, tblSel := sel s.tblSel, tblIdx := idx s.tblIdx }

theorem State.setStatus_eq_mapUnread (s : State) (st : Status) : s.setStatus st = s.mapUnread (fun _ => st) id id := rfl

/-- The same way to stop, in the state changed by `f`. -/
def BodyResult.map (f : State → State) : BodyResult → BodyResult
  | .done s => .done (f s)
  | .raised e u s => .raised e u (f s)
  | .stuck x => .stuck x

/-- A body does not see what `f` changes: it stops in the same way, in the state changed by `f`. -/
def Unseen (f : State → State) (body : State → BodyResult) : Prop := ∀ s, body (f s) = (body s).map f

/-- A body followed by a step that starts where the body stopped. -/
theorem Unseen.andThen {f : State → State} {body next : State → BodyResult} (hb : Unseen f body) (hn : Unseen f next) :
    Unseen f fun s => (body s).andThen next := by
  intro s
  simp only [hb s]
  cases body s with
  | done t => exact hn t
  | raised e u t => rfl
  | stuck x => rfl

section

variable (g : Status → Status) (sel : BitVec 3 → BitVec 3) (idx : BitVec 11 → BitVec 11)

/-! What the bodies read is the same. -/

section
variable (s : State)

@[simp] theorem State.mapUnread_ibufRange (a n : Nat) : (s.mapUnread g sel idx).ibufRange a n = s.ibufRange a n := rfl
@[simp] theorem State.mapUnread_viewOk : (s.mapUnread g sel idx).viewOk = s.viewOk := rfl
@[simp] theorem State.mapUnread_viewBits : (s.mapUnread g sel idx).viewBits = s.viewBits := rfl
@[simp] theorem State.mapUnread_currentTree : (s.mapUnread g sel idx).currentTree = s.currentTree := rfl

end

/-! Each body; ENC and DEC from their steps. -/

theorem appendBytes_unseen (u : BlockUnit) (bs : List Byte) : Unseen (State.mapUnread g sel idx) (appendBytes u bs) := by
  intro s
  rcases appendBytes_cases u bs s with ⟨hfit, he⟩ | ⟨hfull, he⟩ <;> rw [he]
  · exact appendBytes_of_fits u bs _ hfit
  · exact appendBytes_of_full u bs _ hfull

theorem appendEach_unseen (u : BlockUnit) : ∀ bs, Unseen (State.mapUnread g sel idx) (appendEach u bs)
  | [] => fun _ => rfl
  | b :: bs => (appendBytes_unseen g sel idx u [b]).andThen (appendEach_unseen u bs)

/-- A body on CurrentTree, given what it does on each tree. -/
theorem withTree_unseen {body : Option HTree → State → BodyResult} (hb : ∀ ot, Unseen (State.mapUnread g sel idx) (body ot)) :
    Unseen (State.mapUnread g sel idx) fun s => withTree s fun ot => body ot s := by
  intro s
  simp only [withTree, State.mapUnread_currentTree]
  cases s.currentTree with
  | absent => exact hb none s
  | tree t => exact hb (some t) s
  | broken => rfl

theorem tbldBody_unseen : Unseen (State.mapUnread g sel idx) tbldBody := by
  intro s
  simp only [tbldBody, apply_ite (BodyResult.map _)]
  rfl

theorem cgenBody_unseen : Unseen (State.mapUnread g sel idx) cgenBody := withTree_unseen g sel idx fun _ _ => rfl

theorem bpckBody_unseen : Unseen (State.mapUnread g sel idx) bpckBody := by
  intro s
  simp only [bpckBody, apply_ite (BodyResult.map _), ← appendBytes_unseen g sel idx _ _ s]
  rfl

theorem tserBody_unseen : Unseen (State.mapUnread g sel idx) tserBody :=
  withTree_unseen g sel idx fun ot => appendBytes_unseen g sel idx .tser (ser ot)

theorem chdrBody_unseen : Unseen (State.mapUnread g sel idx) chdrBody := fun s => appendBytes_unseen g sel idx _ _ s

theorem bunpBody_unseen (off len : Word) : Unseen (State.mapUnread g sel idx) (bunpBody off len) := by
  intro s
  simp only [bunpBody, State.mapUnread_ibufRange]
  cases unpack (s.ibufRange off.toNat len.toNat) <;> rfl

theorem tdesBody_unseen (off len : Word) : Unseen (State.mapUnread g sel idx) (tdesBody off len) := by
  intro s
  simp only [tdesBody, State.mapUnread_ibufRange]
  cases des (s.ibufRange off.toNat len.toNat) <;> rfl

theorem cparBody_unseen (off len : Word) : Unseen (State.mapUnread g sel idx) (cparBody off len) := by
  intro s
  simp only [cparBody, State.mapUnread_ibufRange]
  cases split (s.ibufRange off.toNat len.toNat) <;> rfl

/-- WALK: the walk is that of the same view on the same tree, and each append is unseen (47_decode_walk.md R192). -/
theorem walkBody_unseen : Unseen (State.mapUnread g sel idx) walkBody := by
  have hend : ∀ e : Option ErrKind, Unseen (State.mapUnread g sel idx) fun s =>
      match e with
      | none => .done s
      | some e => .raised e .walk s := fun e s => by cases e <;> rfl
  intro s
  simp only [walkBody, State.mapUnread_viewOk, State.mapUnread_viewBits, apply_ite (BodyResult.map _)]
  congr 1
  exact withTree_unseen g sel idx (fun ot => (appendEach_unseen g sel idx .walk (walk ot s.viewBits).1).andThen
    (hend (walk ot s.viewBits).2)) s

theorem encBody_unseen : Unseen (State.mapUnread g sel idx) encBody :=
  Unseen.andThen (body := oclrBody) (fun _ => rfl) <| Unseen.andThen (body := fcntBody) (fun _ => rfl) <|
    (tbldBody_unseen g sel idx).andThen <| (cgenBody_unseen g sel idx).andThen <| (chdrBody_unseen g sel idx).andThen <|
    (tserBody_unseen g sel idx).andThen (bpckBody_unseen g sel idx)

theorem decBody_unseen : Unseen (State.mapUnread g sel idx) decBody :=
  Unseen.andThen (body := oclrBody) (fun _ => rfl) <|
    Unseen.andThen (body := fun s => cparBody s.srcOff s.srcLen s) (fun s => cparBody_unseen g sel idx _ _ s) <|
    Unseen.andThen (body := fun s => tdesBody s.treeOff s.treeLen s) (fun s => tdesBody_unseen g sel idx _ _ s) <|
    Unseen.andThen (body := fun s => bunpBody s.payOff s.payLen s) (fun s => bunpBody_unseen g sel idx _ _ s) <|
    walkBody_unseen g sel idx

theorem commandBody_unseen (i : Instr) : Unseen (State.mapUnread g sel idx) (commandBody i) := by
  cases i
  case nop | rst | fcnt | oclr => exact fun _ => rfl
  case tbld => exact tbldBody_unseen g sel idx
  case cgen => exact cgenBody_unseen g sel idx
  case bpck => exact bpckBody_unseen g sel idx
  case bunp => exact fun s => bunpBody_unseen g sel idx _ _ s
  case tser => exact tserBody_unseen g sel idx
  case tdes => exact fun s => tdesBody_unseen g sel idx _ _ s
  case chdr => exact chdrBody_unseen g sel idx
  case cpar => exact fun s => cparBody_unseen g sel idx _ _ s
  case walk => exact walkBody_unseen g sel idx
  case enc => exact encBody_unseen g sel idx
  case dec => exact decBody_unseen g sel idx

end

/-- The error that a command takes does not depend on STATUS; STATUS itself is then what `Finish` makes of the old one. -/
theorem takeError_setStatus (c : CommandForm) (o : Word) (e : ErrKind) (b : BlockUnit) (u : State) (st : Status) :
    takeError c o e b (u.setStatus st) = (takeError c o e b u).setStatus (st.finish (some (e, b)) c.op) := by
  simp only [takeError]
  split <;> rfl

/-- Settles O10: the body does not see STATUS, and the wrapper writes in it the same error. -/
theorem statusNotRead : Obligations.StatusNotRead := by
  unfold Obligations.StatusNotRead
  intro s i st t he
  by_cases hi : i = .rst
  · subst hi; cases he
    exact ⟨s.softReset, rfl, rfl, rfl⟩
  have hbody := commandBody_unseen (fun _ => st) id id i s
  rw [← State.setStatus_eq_mapUnread] at hbody
  rw [exec_eq_runCommand i _ hi] at he ⊢
  rcases runCommand_cases (commandForm i) (commandBody i) s with
    ⟨hc, hw, e⟩ | ⟨hw, ⟨u, hb, e⟩ | ⟨k, b, u, hb, e⟩ | ⟨f, -, e⟩⟩ <;> rw [e] at he <;> cases he
  · exact ⟨_, runCommand_badWindow _ _ _ hc (by simpa [State.windowOk] using hw), rfl, rfl⟩
  all_goals rw [hb] at hbody
  · exact ⟨_, runCommand_done _ _ _ _ (windowFits_of_ran hw) hbody, rfl, rfl⟩
  · refine ⟨_, runCommand_raised _ _ _ _ _ _ (windowFits_of_ran hw) hbody, ?_, ?_⟩
    · show (takeError _ _ _ _ (u.setStatus st)).setStatus _ = _
      rw [takeError_setStatus]; rfl
    · rw [takeError_status, takeError_status]; rfl

end Sys2Proof.Machine
end

section
/-! STATUS as the host reads it (10_state.md R26), and obligation O7. -/

namespace Sys2Proof.Machine

/-- Which bits of the word are which field. -/
theorem Status.word_fields (st : Status) :
    st.word.extractLsb' 0 4 = st.errField ∧ st.word.extractLsb' 4 4 = st.unitField ∧ st.word.getLsbD 8 = st.done ∧
      st.word.extractLsb' 9 7 = 0#7 ∧ st.word.extractLsb' 16 8 = st.lastop ∧ st.word.extractLsb' 24 7 = 0#7 ∧
      st.word.getLsbD 31 = st.faulted := by
  simp (disch := decide) only [Status.word, BitVec.extractLsb'_append_eq_of_le, BitVec.extractLsb'_append_eq_of_add_le,
    BitVec.extractLsb'_eq_self, BitVec.getLsbD_append, BitVec.getLsbD_ofBool, Nat.reduceSub, Nat.reduceLT, if_true, if_false,
    decide_true, Bool.true_and, and_self]

theorem errCode_range (e : ErrKind) : 1 ≤ (errCode e).toNat ∧ (errCode e).toNat ≤ 8 := by cases e <;> decide

theorem unitCode_range (u : BlockUnit) : 1 ≤ (unitCode u).toNat ∧ (unitCode u).toNat ≤ 10 := by cases u <;> decide

/-- The two code fields: 0 for no error, else the codes of the kind and the unit, which are never 0. -/
theorem Status.code_fields (st : Status) :
    st.errField.toNat ≤ 8 ∧ st.unitField.toNat ≤ 10 ∧ (st.errField = 0 ↔ st.error = none) ∧
      (st.unitField = 0 ↔ st.error = none) ∧
      ∀ e u, st.error = some (e, u) → st.errField = errCode e ∧ st.unitField = unitCode u := by
  rcases h : st.error with _ | ⟨e, u⟩ <;> simp only [Status.errField, Status.unitField, h]
  · simp
  · obtain ⟨he1, he8⟩ := errCode_range e
    obtain ⟨hu1, hu10⟩ := unitCode_range u
    have hne : ∀ x : BitVec 4, 1 ≤ x.toNat → x ≠ 0 := by rintro x hx rfl; exact absurd hx (by decide)
    refine ⟨he8, hu10, iff_of_false (hne _ he1) nofun, iff_of_false (hne _ hu1) nofun, ?_⟩
    rintro _ _ ⟨⟩
    exact ⟨rfl, rfl⟩

/-- Settles O7: the fields of the word, and the two tables of codes. -/
theorem statusLayout : Obligations.StatusLayout := by
  unfold Obligations.StatusLayout
  refine ⟨fun st => ?_, ⟨rfl, rfl, rfl, rfl, rfl, rfl, rfl, rfl⟩, ⟨rfl, rfl, rfl, rfl, rfl, rfl, rfl, rfl, rfl, rfl⟩⟩
  obtain ⟨h1, h2, h3, h4, h5, h6, h7⟩ := st.word_fields
  exact ⟨h1, h2, h3, h4, h5, h6, h7, st.code_fields⟩

end Sys2Proof.Machine
end

section
/-! Host transactions on the buffers (20_memory.md R62, R66): obligations O60 and O29. -/

namespace Sys2Proof.Machine

open Sys2Proof.Safety

section

variable (s : State) (a : Word)

/-- The state after a byte is written to IBUF by the host. -/
def State.afterWriteIbuf (b : Byte) : State := (s.setIbuf (memSet s.ibuf a.toNat b)).setReply .nothing

theorem transact_writeIbuf (b : Byte) (h : a.toNat < s.ibufSize.toNat) :
    transact (.writeIbuf a b) s = .next (s.afterWriteIbuf a b) := if_pos h

theorem transact_writeIbuf_outside (b : Byte) (h : s.ibufSize.toNat ≤ a.toNat) :
    transact (.writeIbuf a b) s = .refused .ibufAddress := if_neg (Nat.not_lt.2 h)

theorem transact_readIbuf (h : a.toNat < s.ibufSize.toNat) :
    transact (.readIbuf a) s = .next (s.setReply (.byte (s.ibufByte a.toNat))) := if_pos h

theorem transact_readIbuf_outside (h : s.ibufSize.toNat ≤ a.toNat) : transact (.readIbuf a) s = .refused .ibufAddress :=
  if_neg (Nat.not_lt.2 h)

theorem transact_readObuf (h : a.toNat < s.obufSize.toNat) :
    transact (.readObuf a) s = .next (s.setReply (.byte (s.obufByte a.toNat))) := if_pos h

theorem transact_readObuf_outside (h : s.obufSize.toNat ≤ a.toNat) : transact (.readObuf a) s = .refused .obufAddress :=
  if_neg (Nat.not_lt.2 h)

theorem afterWriteIbuf_ibufByte (b : Byte) (x : Nat) :
    (s.afterWriteIbuf a b).ibufByte x = if a.toNat = x then b else s.ibufByte x := by
  have hget : memGet (s.afterWriteIbuf a b).ibuf x = _ := memGet_memSet s.ibuf a.toNat b x
  rw [State.ibufByte, hget]
  split <;> rfl

/-- A register has no bit in IBUF, TBL_DATA included. -/
theorem afterWriteIbuf_regRead (b : Byte) (n : Nat) : (s.afterWriteIbuf a b).regRead n = s.regRead n := rfl

end

/-- Settles O60: inside the buffer the byte is written or read, outside the transaction is refused. -/
theorem bufferTransactions : Obligations.BufferTransactions := by
  unfold Obligations.BufferTransactions
  intro s a b
  refine ⟨fun hin => ⟨⟨s.afterWriteIbuf a b, transact_writeIbuf s a b hin, ?_, fun x hx => ?_, afterWriteIbuf_regRead s a b,
    ⟨rfl, fun _ => rfl⟩, ⟨rfl, rfl, rfl⟩, ⟨rfl, rfl, rfl⟩, ⟨rfl, rfl⟩, ?_⟩, transact_readIbuf s a hin⟩,
    transact_readObuf s a, fun hout => ⟨transact_writeIbuf_outside s a b hout, transact_readIbuf_outside s a hout⟩,
    transact_readObuf_outside s a⟩
  · rw [afterWriteIbuf_ibufByte, if_pos rfl]
  · rw [afterWriteIbuf_ibufByte, if_neg hx.symm]
  · have hread := transact_readIbuf (s.afterWriteIbuf a b) a hin
    rwa [afterWriteIbuf_ibufByte, if_pos rfl] at hread

/-- Settles O29: bit `i` of the view is read from the byte at BITOFF + i / 8, as it is now (10_state.md R30). -/
theorem viewIsReference : Obligations.ViewIsReference := by
  unfold Obligations.ViewIsReference
  intro s t a b he
  rcases Nat.lt_or_ge a.toNat s.ibufSize.toNat with hin | hout
  · rw [transact_writeIbuf s a b hin] at he
    cases he
    refine ⟨⟨rfl, rfl, rfl⟩, fun i => ?_⟩
    have hbyte := afterWriteIbuf_ibufByte s a b (s.bitOff.toNat + i / 8)
    have hbit : (s.afterWriteIbuf a b).viewBit i =
      ((s.afterWriteIbuf a b).ibufByte (s.bitOff.toNat + i / 8)).getLsbD (7 - i % 8) := rfl
    rw [hbit, hbyte]
    simp only [eq_comm (a := a.toNat), apply_ite (fun x : Byte => x.getLsbD (7 - i % 8))]
    rfl
  · rw [transact_writeIbuf_outside s a b hout] at he
    cases he

end Sys2Proof.Machine
end

section
/-! The register file and the table port as the host sees them (10_state.md R23 to R25, R34): obligations O58 and O59. -/

namespace Sys2Proof.Machine

open Sys2Proof.Safety

section

variable (s : State)

/-- CMD has no storage, and the numbers above 19 name no register. -/
theorem State.regRead_unmapped (n : Nat) (h : 19 < n) : s.regRead n = 0 := by
  unfold State.regRead
  split
  case h_20 => rfl
  all_goals omega

/-! ### Register writes -/

/-- Only registers 2 and 3 read the window. -/
theorem State.setWindow_regRead (off len : Word) (m : Nat) (hoff : m = 2 → off = s.srcOff) (hlen : m = 3 → len = s.srcLen) :
    (s.setWindow off len).regRead m = s.regRead m := by
  unfold State.regRead
  split
  case h_2 => exact hoff rfl
  case h_3 => exact hlen rfl
  all_goals rfl

/-- Only registers 17, 18 and TBL_DATA read the port. -/
theorem State.setPort_regRead (sel : BitVec 3) (idx : BitVec 11) (m : Nat) (hsel : m = 17 → sel = s.tblSel)
    (hidx : m = 18 → idx = s.tblIdx) (hdata : m ≠ 19) : (s.setPort sel idx).regRead m = s.regRead m := by
  unfold State.regRead
  split
  case h_17 => exact congrArg (BitVec.setWidth 32) (hsel rfl)
  case h_18 => exact congrArg (BitVec.setWidth 32) (hidx rfl)
  case h_19 => exact absurd rfl hdata
  all_goals rfl

/-- A register write reaches the window and the port, each register under its own number (10_state.md R24). -/
theorem State.regWrite_eq (n : Nat) (v : Word) :
    s.regWrite n v = (s.setWindow (if n = 2 then v else s.srcOff) (if n = 3 then v else s.srcLen)).setPort
      (if n = 17 then v.setWidth 3 else s.tblSel) (if n = 18 then v.setWidth 11 else s.tblIdx) := by
  unfold State.regWrite
  split
  case h_5 h2 h3 h17 h18 => rw [if_neg h2, if_neg h3, if_neg h17, if_neg h18]; rfl
  all_goals rfl

/-- No register but the written one reads otherwise; TBL_DATA, a function of the port, is left out. -/
theorem State.regWrite_regRead_other (n m : Nat) (v : Word) (hm : m ≠ n) (h19 : m ≠ 19) :
    (s.regWrite n v).regRead m = s.regRead m := by
  have hne : ∀ {j}, m = j → n ≠ j := fun hj => hj ▸ hm.symm
  rw [State.regWrite_eq]
  exact (State.setPort_regRead _ _ _ m (fun h => if_neg (hne h)) (fun h => if_neg (hne h)) h19).trans
    (s.setWindow_regRead _ _ m (fun h => if_neg (hne h)) (fun h => if_neg (hne h)))

theorem transact_writeReg (n : Nat) (v : Word) (hn : n ≠ 0) :
    transact (.writeReg n v) s = .next ((s.regWrite n v).setReply .nothing) := if_neg hn

end

/-- Settles O58: the four RW registers keep the low bits they use, and every other write is ignored. -/
theorem registerWrites : Obligations.RegisterWrites := by
  unfold Obligations.RegisterWrites
  intro s n v hn
  refine ⟨_, transact_writeReg s n v hn, ?_, ?_, ?_, ?_, fun h2 h3 h17 h18 => ?_, fun m => s.regWrite_regRead_other n m v, ?_⟩
  · rintro rfl; exact ⟨rfl, rfl⟩
  · rintro rfl; exact ⟨rfl, rfl⟩
  · rintro rfl
    have hsel : (v.setWidth 3).toNat = v.toNat % 8 := BitVec.toNat_setWidth 3 v
    exact ⟨rfl, hsel, (BitVec.toNat_setWidth_of_le (by decide)).trans hsel⟩
  · rintro rfl
    have hidx : (v.setWidth 11).toNat = v.toNat % 2048 := BitVec.toNat_setWidth 11 v
    exact ⟨rfl, hidx, (BitVec.toNat_setWidth_of_le (by decide)).trans hidx⟩
  · rw [State.regWrite_eq, if_neg h2, if_neg h3, if_neg h17, if_neg h18]; rfl
  · rw [State.regWrite_eq]
    exact ⟨⟨rfl, fun _ => rfl⟩, ⟨rfl, rfl, rfl⟩, ⟨rfl, rfl, rfl⟩, ⟨rfl, rfl⟩, fun _ => rfl⟩

/-! ### Reads of TBL_DATA (10_state.md R34), one equation per selector -/

section

variable (s : State) (idx : BitVec 11)

theorem tblData_freq : (s.setPort 0 idx).regRead 19 = if h : idx.toNat < 256 then s.freq[idx.toNat] else 0 := rfl

theorem tblData_seq : (s.setPort 1 idx).regRead 19 = if h : idx.toNat < 256 then s.seq[idx.toNat].setWidth 32 else 0 := rfl

/-- The packed word of a node entry: KIND, RIGHT, LEFT, SYM from the most significant bit down. -/
def Node.portWord (nd : Node) : Word := BitVec.ofBool nd.kind ++ 0#5 ++ nd.right ++ nd.left ++ nd.sym

theorem Node.portWord_toNat (nd : Node) : nd.portWord.toNat =
    (if nd.kind then 2 ^ 31 else 0) + nd.right.toNat * 2 ^ 17 + nd.left.toNat * 2 ^ 8 + nd.sym.toNat := by
  simp only [Node.portWord, toNat_append_eq, BitVec.toNat_ofBool, BitVec.toNat_ofNat]
  cases nd.kind <;> simp <;> omega

theorem tblData_node : (s.setPort 2 idx).regRead 19 = if h : idx.toNat < 511 then s.node[idx.toNat].portWord else 0 := rfl

theorem tblData_nodeFreq : (s.setPort 3 idx).regRead 19 = if h : idx.toNat < 511 then s.node[idx.toNat].freq else 0 := rfl

theorem tblData_clen : (s.setPort 4 idx).regRead 19 = if h : idx.toNat < 256 then s.clen[idx.toNat].setWidth 32 else 0 := rfl

theorem tblData_cbits : (s.setPort 5 idx).regRead 19 =
    if h : idx.toNat / 8 < 256 then s.cbits[idx.toNat / 8].extractLsb' (224 - 32 * (idx.toNat % 8)) 32 else 0 := rfl

theorem tblData_reserved (sel : BitVec 3) (h : sel = 6 ∨ sel = 7) : (s.setPort sel idx).regRead 19 = 0 := by
  rcases h with rfl | rfl <;> rfl

/-- Outside a table of 256 entries the port reads 0. -/
theorem tblData_outside256 (sel : BitVec 3) (hsel : sel = 0 ∨ sel = 1 ∨ sel = 4) (h : 256 ≤ idx.toNat) :
    (s.setPort sel idx).regRead 19 = 0 := by
  rcases hsel with rfl | rfl | rfl <;> exact dif_neg (Nat.not_lt.2 h)

/-- Outside the arena the port reads 0. -/
theorem tblData_outside511 (sel : BitVec 3) (hsel : sel = 2 ∨ sel = 3) (h : 511 ≤ idx.toNat) :
    (s.setPort sel idx).regRead 19 = 0 := by
  rcases hsel with rfl | rfl <;> exact dif_neg (Nat.not_lt.2 h)

end

section

variable (s : State)

/-- An index that a symbol names (10_state.md R34). -/
theorem toNat_symIndex (sym : Byte) : (sym.setWidth 11).toNat = sym.toNat := BitVec.toNat_setWidth_of_le (by decide)

theorem toNat_index {i : Nat} (h : i < 2048) : (BitVec.ofNat 11 i).toNat = i := by
  rw [BitVec.toNat_ofNat]; exact Nat.mod_eq_of_lt h

theorem nodeGet_of_lt (v : Vector Node 511) (i : Nat) (h : i < 511) : nodeGet v i = v[i] := dif_pos h

theorem tblData_freq_sym (sym : Byte) : (s.setPort 0 (sym.setWidth 11)).regRead 19 = symGet s.freq sym := by
  have hlt := sym.isLt
  simp only [tblData_freq, toNat_symIndex, dif_pos hlt, symGet]

theorem tblData_clen_sym (sym : Byte) : (s.setPort 4 (sym.setWidth 11)).regRead 19 = (symGet s.clen sym).setWidth 32 := by
  have hlt := sym.isLt
  simp only [tblData_clen, toNat_symIndex, dif_pos hlt, symGet]

theorem tblData_seq_index (i : Fin 256) : (s.setPort 1 (BitVec.ofNat 11 i.val)).regRead 19 = s.seq[i].setWidth 32 := by
  have hlt := i.isLt
  simp only [tblData_seq, toNat_index (by omega : i.val < 2048), dif_pos hlt, Fin.getElem_fin]

theorem tblData_nodeFreq_id (i : Nat) (h : i < 511) :
    (s.setPort 3 (BitVec.ofNat 11 i)).regRead 19 = (nodeGet s.node i).freq := by
  simp only [tblData_nodeFreq, toNat_index (by omega : i < 2048), dif_pos h, nodeGet_of_lt _ i h]

theorem tblData_node_id (i : Nat) (h : i < 511) :
    (s.setPort 2 (BitVec.ofNat 11 i)).regRead 19 = (nodeGet s.node i).portWord := by
  simp only [tblData_node, toNat_index (by omega : i < 2048), dif_pos h, nodeGet_of_lt _ i h]

/-- Bit `255 - j` of a code is bit `31 - j % 32` of its word `j / 32`: the words run from the most significant one on. -/
theorem tblData_cbits_bit (sym : Byte) (j : Nat) (hj : j < 256) :
    ((s.setPort 5 (BitVec.ofNat 11 (8 * sym.toNat + j / 32))).regRead 19).getLsbD (31 - j % 32) =
      (symGet s.cbits sym).getLsbD (255 - j) := by
  have hlt := sym.isLt
  have hdiv : (8 * sym.toNat + j / 32) / 8 = sym.toNat := by omega
  have hmod : (8 * sym.toNat + j / 32) % 8 = j / 32 := by omega
  have hbit : 224 - 32 * (j / 32) + (31 - j % 32) = 255 - j := by omega
  have hin : 31 - j % 32 < 32 := by omega
  simp only [tblData_cbits, toNat_index (by omega : 8 * sym.toNat + j / 32 < 2048), hdiv, hmod, dif_pos hlt,
    BitVec.getLsbD_extractLsb', hbit, hin, decide_true, Bool.true_and, symGet]

end

/-- Settles O59: the register map, and one equation of the port per selector. -/
theorem tablePortReads : Obligations.TablePortReads := by
  unfold Obligations.TablePortReads
  intro s
  have hwide {w : Nat} (x : BitVec w) (h : w ≤ 32) : (x.setWidth 32).toNat = x.toNat := BitVec.toNat_setWidth_of_le h
  refine ⟨rfl, s.regRead_unmapped, rfl, rfl, rfl, rfl, rfl, rfl, rfl, rfl, rfl, rfl, hwide _ (by decide), hwide _ (by decide),
    hwide _ (by decide), hwide _ (by decide), rfl, rfl, hwide _ (by decide), hwide _ (by decide), tblData_freq_sym s,
    tblData_seq_index s, tblData_clen_sym s, tblData_nodeFreq_id s, fun i hi => ?_, tblData_cbits_bit s,
    fun sel idx => tblData_reserved s idx sel, fun sel idx => tblData_outside256 s idx sel,
    fun sel idx => tblData_outside511 s idx sel⟩
  rw [tblData_node_id s i hi, Node.portWord_toNat]

end Sys2Proof.Machine
end

section
/-! Output is never overwritten (20_memory.md R68, 60_exceptions.md R238): obligation O13. -/

namespace Sys2Proof.Machine

open Sys2Proof.Safety

/-- The output of `t` goes on from that of `s`: OLEN is no lower and every byte below the old OLEN is as it was. -/
def OutputExtends (s t : State) : Prop :=
  s.olen.toNat ≤ t.olen.toNat ∧ ∀ a, a < s.olen.toNat → t.obufByte a = s.obufByte a

theorem OutputExtends.refl (s : State) : OutputExtends s s := ⟨le_rfl, fun _ _ => rfl⟩

theorem sameOutput_refl (s : State) : SameOutput s s := ⟨rfl, fun _ => rfl⟩

theorem outputExtends_of_sameOutput {s t : State} (h : SameOutput s t) : OutputExtends s t :=
  ⟨h.1 ▸ le_rfl, fun a _ => h.2 a⟩

theorem BodyResult.All.imp {P Q : State → Prop} (hPQ : ∀ s, P s → Q s) : ∀ {r : BodyResult}, r.All P → r.All Q
  | .done s, h => hPQ s h
  | .raised _ _ s, h => hPQ s h
  | .stuck _, _ => trivial

/-! ### Bodies that append nothing -/

theorem commandForm_appends (i : Instr) :
    (commandForm i).appends = true ↔ i ∈ [Instr.bpck, .tser, .chdr, .walk, .enc, .dec] := by
  cases i <;> decide

theorem commandForm_clears (i : Instr) : (commandForm i).clears = true ↔ i ∈ [Instr.enc, .dec] := by
  cases i <;> decide

theorem tbldBody_sameOutput (s : State) : (tbldBody s).All (SameOutput s) := by
  rw [tbldBody]
  split
  · trivial
  · split <;> exact sameOutput_refl s

theorem cgenBody_sameOutput (s : State) : (cgenBody s).All (SameOutput s) :=
  withTree_all fun _ _ => show SameOutput s (s.setCodes _ _) from sameOutput_refl s

theorem bunpBody_sameOutput (off len : Word) (s : State) : (bunpBody off len s).All (SameOutput s) := by
  rw [bunpBody]
  split <;> exact sameOutput_refl s

theorem tdesBody_sameOutput (off len : Word) (s : State) : (tdesBody off len s).All (SameOutput s) := by
  rw [tdesBody]
  split <;> exact sameOutput_refl s

theorem cparBody_sameOutput (off len : Word) (s : State) : (cparBody off len s).All (SameOutput s) := by
  rw [cparBody]
  split <;> exact sameOutput_refl s

/-- A body that appends nothing leaves the output, but OCLR's, which lowers OLEN. -/
theorem commandBody_sameOutput {i : Instr} (s : State) (hi : i ≠ .oclr) (ha : (commandForm i).appends = false) :
    (commandBody i s).All (SameOutput s) := by
  cases i
  case nop | rst | fcnt => exact sameOutput_refl s
  case tbld => exact tbldBody_sameOutput s
  case cgen => exact cgenBody_sameOutput s
  case bunp => exact bunpBody_sameOutput _ _ s
  case tdes => exact tdesBody_sameOutput _ _ s
  case cpar => exact cparBody_sameOutput _ _ s
  case oclr => exact absurd rfl hi
  case bpck | tser | chdr | walk | enc | dec => cases ha

/-- OCLR writes no byte either (49_control.md R224). -/
theorem commandBody_sameObuf {i : Instr} (s : State) (ha : (commandForm i).appends = false) :
    (commandBody i s).All fun t => ∀ a, t.obufByte a = s.obufByte a := by
  by_cases hi : i = .oclr
  · subst hi; exact fun _ => rfl
  · exact (commandBody_sameOutput s hi ha).imp fun _ h => h.2

/-! ### Bodies that append -/

/-- An append that fits writes from OLEN on: after any output that goes on from that of `s`, so does the longer one. -/
theorem OutputExtends.afterAppend {s t : State} (h : OutputExtends s t) (bs : List Byte)
    (hfit : t.olen.toNat + bs.length ≤ t.obufSize.toNat) : OutputExtends s (afterAppend t bs) := by
  obtain ⟨hlen, -, hbelow⟩ := afterAppend_appended t bs hfit
  refine ⟨by have := h.1; omega, fun a ha => ?_⟩
  rw [hbelow a (.inl (ha.trans_le h.1)), h.2 a ha]

theorem appendBytes_outputExtends (u : BlockUnit) (bs : List Byte) (s : State) :
    (appendBytes u bs s).All (OutputExtends s) :=
  appendBytes_all u bs (.refl s) ((OutputExtends.refl s).afterAppend bs)

theorem bpckBody_outputExtends (s : State) : (bpckBody s).All (OutputExtends s) := by
  rw [bpckBody]
  split
  · exact OutputExtends.refl s
  · exact appendBytes_outputExtends _ _ s

/-- A body that does not clear OLEN keeps the output there was: four append to it, the others leave it. -/
theorem commandBody_outputExtends {i : Instr} (s : State) (hc : (commandForm i).clears = false) (hi : i ≠ .oclr) :
    (commandBody i s).All (OutputExtends s) := by
  cases i
  case bpck => exact bpckBody_outputExtends s
  case tser => exact withTree_all fun _ _ => appendBytes_outputExtends _ _ s
  case chdr => exact appendBytes_outputExtends _ _ s
  case walk => exact walkBody_all (fun _ bs h => h.afterAppend bs) (OutputExtends.refl s)
  case enc | dec => cases hc
  case oclr => exact absurd rfl hi
  case nop | fcnt | tbld | cgen | bunp | tdes | cpar | rst =>
    exact (commandBody_sameOutput s hi rfl).imp fun _ => outputExtends_of_sameOutput

/-! ### Taking an error, and the commands -/

/-- Taking an error changes bytes of OBUF only in an appending command, and only at or above the OLEN it restores. -/
theorem takeError_obufByte (c : CommandForm) (o : Word) (e : ErrKind) (u : BlockUnit) (s : State) (a : Nat)
    (h : c.appends = true → a < (if c.clears then 0 else o).toNat) : (takeError c o e u s).obufByte a = s.obufByte a := by
  cases ha : c.appends with
  | true => exact (takeError_noOutput c ha o e u s).2 a (h ha)
  | false => simp only [takeError, ha]; rfl

/-- OLEN goes back to where the command found it, and no byte below it is drawn anew (60_exceptions.md R238). -/
theorem OutputExtends.takeError {s t : State} (h : OutputExtends s t) (c : CommandForm) (hc : c.clears = false) (e : ErrKind)
    (u : BlockUnit) : OutputExtends s (takeError c s.olen e u t) := by
  have holen : (Machine.takeError c s.olen e u t).olen = s.olen := by simp [Machine.takeError, hc]
  refine ⟨(congrArg BitVec.toNat holen).ge, fun a ha => ?_⟩
  rw [takeError_obufByte c _ e u t a fun _ => by simpa [hc] using ha, h.2 a ha]

theorem exec_outputExtends {i : Instr} {s t : State} (hc : (commandForm i).clears = false) (ho : i ≠ .oclr) (hr : i ≠ .rst)
    (he : exec i s = .next t) : OutputExtends s t := by
  rw [exec_eq_runCommand i s hr] at he
  exact runCommand_next_all he (.refl s) (fun _ => commandBody_outputExtends s hc ho) (fun _ _ h => h)
    fun e b _ h => h.takeError _ hc e b

theorem exec_sameObuf {i : Instr} {s t : State} (ha : (commandForm i).appends = false) (he : exec i s = .next t) :
    ∀ a, t.obufByte a = s.obufByte a := by
  by_cases hr : i = .rst
  · subst hr; cases he; exact fun _ => rfl
  rw [exec_eq_runCommand i s hr] at he
  refine runCommand_next_all (P := fun u => ∀ a, u.obufByte a = s.obufByte a) he (fun _ => rfl)
    (fun _ => commandBody_sameObuf s ha) (fun _ _ h => h) fun e b u h a => ?_
  rw [takeError_obufByte _ _ e b u a fun happ => absurd (ha.symm.trans happ) Bool.false_ne_true, h a]

/-- Settles O13: an append writes from OLEN on, and taking an error restores OLEN and keeps every byte below it. -/
theorem outputNeverOverwritten : Obligations.OutputNeverOverwritten := by
  unfold Obligations.OutputNeverOverwritten
  refine ⟨fun s i t hi he _ => ?_, fun s i t hi he => ?_⟩
  · simp only [List.mem_cons, List.not_mem_nil, or_false, not_or] at hi
    obtain ⟨henc, hdec, hoclr, hrst⟩ := hi
    have hclears : (commandForm i).clears = false :=
      Bool.eq_false_iff.2 fun h => by simpa [henc, hdec] using (commandForm_clears i).1 h
    exact exec_outputExtends hclears hoclr hrst he
  · exact exec_sameObuf (Bool.eq_false_iff.2 fun h => hi ((commandForm_appends i).1 h)) he

end Sys2Proof.Machine
end

section
/-! The machine's step (20_memory.md R61, R62, R71): obligation O4. -/

namespace Sys2Proof.Machine

theorem step_of_script_nil (s : State) (h : s.script = []) : step s = .next s := by
  rw [step, stepScript, h]

theorem step_of_script_cons (s : State) (x : HostTxn) (ts : List HostTxn) (h : s.script = x :: ts) :
    step s = transact x (s.setScript ts) := by
  rw [step, stepScript, h]

/-- A write to CMD of a word that decodes runs its command (49_control.md R220). -/
theorem transact_command (s : State) (w : Word) (i : Instr) (h : decode w = .ok i) :
    transact (.writeReg 0 w) s = exec i (s.setReply .nothing) := by
  rw [transact, if_pos rfl, executeWord, h]

/-- Settles O4: the step performs the transaction at the head of the script, and CMD runs the command its word decodes to. -/
theorem stepRunsCommand : Obligations.StepRunsCommand := by
  unfold Obligations.StepRunsCommand
  refine ⟨step_of_script_cons, fun s w ts i hscript hdecode => ?_, step_of_script_nil⟩
  rw [step_of_script_cons s _ ts hscript, transact_command _ w i hdecode]
  rfl

end Sys2Proof.Machine
end

section
/-! Command words and commands: the fields of a word, and obligations O1 and O2 (30_encoding.md R80 to R83). -/

namespace Sys2Proof

/-- A byte is in the opcode map exactly when it is a command's opcode. -/
theorem instrOfOpcode_eq_some_iff (op : Byte) (i : Instr) : instrOfOpcode op = some i ↔ op = opcode i := by
  constructor
  · intro h
    unfold instrOfOpcode at h
    split at h <;> cases h
    all_goals next hop => exact BitVec.eq_of_toNat_eq hop
  · rintro rfl
    cases i <;> rfl

theorem instrOfOpcode_eq_none {op : Byte} (h : 0x0F ≤ op.toNat) : instrOfOpcode op = none := by
  unfold instrOfOpcode
  split
  case h_16 => rfl
  all_goals omega

theorem reservedZero_iff (w : Word) : reservedZero w = true ↔ w.extractLsb' 8 24 = 0 := beq_iff_eq

/-- A word is a zero-extended byte exactly when RSV is 0 and OP is that byte. -/
theorem eq_setWidth_iff (w : Word) (op : Byte) :
    w = op.setWidth 32 ↔ w.extractLsb' 8 24 = 0 ∧ w.extractLsb' 0 8 = op := by
  have hlt := op.isLt
  simp only [← BitVec.toNat_inj, BitVec.toNat_setWidth, BitVec.extractLsb'_toNat, BitVec.ofNat_eq_ofNat,
    BitVec.toNat_ofNat, Nat.shiftRight_eq_div_pow]
  omega

/-- A word that decodes has RSV 0 and an opcode of the map. -/
theorem decode_eq_ok_iff (w : Word) (i : Instr) :
    decode w = .ok i ↔ w.extractLsb' 8 24 = 0 ∧ instrOfOpcode (w.extractLsb' 0 8) = some i := by
  rw [decode, ← reservedZero_iff]
  cases reservedZero w <;> cases instrOfOpcode (w.extractLsb' 0 8) <;> simp

/-- Settles O2: both say that RSV is 0 and OP is the command's opcode. -/
theorem decodeIffEncode : Obligations.DecodeIffEncode := by
  unfold Obligations.DecodeIffEncode
  intro w i
  rw [decode_eq_ok_iff, instrOfOpcode_eq_some_iff, encode, eq_setWidth_iff]

theorem decode_encode (i : Instr) : decode (encode i) = .ok i := (decodeIffEncode _ i).2 rfl

/-- Bits 31:8 are tested first (49_control.md R222). -/
theorem decode_of_reserved {w : Word} (h : w.extractLsb' 8 24 ≠ 0) : decode w = .error .reservedBits :=
  if_neg fun hz => h ((reservedZero_iff w).1 hz)

theorem decode_of_unassigned {w : Word} (h : w.extractLsb' 8 24 = 0) (hop : 0x0F ≤ (w.extractLsb' 0 8).toNat) :
    decode w = .error .unassignedOpcode := by
  rw [decode, if_pos ((reservedZero_iff w).2 h), instrOfOpcode_eq_none hop]

/-- Settles O1: the fifteen words are the commands' encodings, and the other three fail one of the decoder's two tests. -/
theorem opcodeMap : Obligations.OpcodeMap := by
  unfold Obligations.OpcodeMap
  exact ⟨decode_encode .nop, decode_encode .fcnt, decode_encode .tbld, decode_encode .cgen, decode_encode .bpck,
    decode_encode .bunp, decode_encode .tser, decode_encode .tdes, decode_encode .chdr, decode_encode .cpar,
    decode_encode .walk, decode_encode .enc, decode_encode .dec, decode_encode .oclr, decode_encode .rst,
    decode_of_unassigned (by decide) (by decide), decode_of_reserved (by decide), decode_of_reserved (by decide)⟩

end Sys2Proof
end

section
/-! The serialization is self-delimiting: obligation O31 (45_tree_codec.md R160, R161). -/

namespace Sys2Proof.Machine

open Sys2Proof.Safety

/-- A four-byte field and what follows it are read in one way. -/
theorem be32_append_inj {v w : Word} {x y : List Byte} (h : be32 v ++ x = be32 w ++ y) : v = w ∧ x = y := by
  obtain ⟨hfield, hrest⟩ := List.append_inj h rfl
  simp only [be32, List.cons.injEq] at hfield
  obtain ⟨h3, h2, h1, h0, -⟩ := hfield
  exact ⟨by rw [← unBE32_be32 v, h3, h2, h1, h0, unBE32_be32], hrest⟩

/-- A serialized tree and what follows it are read in one way: the tag tells the kind of node, and each record is followed by
the node's subtrees (45_tree_codec.md R161 item 1). -/
theorem serTree_append_inj {t t' : HTree} {x y : List Byte} (h : serTree t ++ x = serTree t' ++ y) : t = t' ∧ x = y := by
  induction t generalizing t' x y with
  | leaf sym f =>
    cases t' with
    | leaf sym' f' =>
      simp only [serTree, List.cons_append, List.nil_append, List.cons.injEq, true_and] at h
      obtain ⟨rfl, hrest⟩ := h
      obtain ⟨rfl, rfl⟩ := be32_append_inj hrest
      exact ⟨rfl, rfl⟩
    | node f' l' r' => simp [serTree] at h
  | node f l r ihl ihr =>
    cases t' with
    | leaf sym' f' => simp [serTree] at h
    | node f' l' r' =>
      simp only [serTree, List.append_assoc, List.cons_append, List.nil_append, List.cons.injEq, true_and] at h
      obtain ⟨rfl, hsubtrees⟩ := be32_append_inj h
      obtain ⟨rfl, hright⟩ := ihl hsubtrees
      obtain ⟨rfl, rfl⟩ := ihr hright
      exact ⟨rfl, rfl⟩

theorem serTree_inj {t t' : HTree} (h : serTree t = serTree t') : t = t' :=
  (serTree_append_inj (x := []) (y := []) (by rw [h])).1

/-- `Ser` is injective: only the absent tree gives no byte (45_tree_codec.md R161 item 2). -/
theorem ser_inj {ot ot' : Option HTree} (h : ser ot = ser ot') : ot = ot' := by
  cases ot <;> cases ot'
  case none.none => rfl
  case none.some t' => exact absurd h.symm (serTree_ne_nil t')
  case some.none t => exact absurd h (serTree_ne_nil t)
  case some.some t t' => rw [serTree_inj h]

theorem serTree_leaf_bytes (sym : Byte) (f : Word) : ∃ b3 b2 b1 b0 : Byte,
    serTree (.leaf sym f) = [0x01, sym, b3, b2, b1, b0] ∧
    b3.toNat * 2 ^ 24 + b2.toNat * 2 ^ 16 + b1.toNat * 2 ^ 8 + b0.toNat = f.toNat := by
  obtain ⟨b3, b2, b1, b0, hbytes, hsum⟩ := be32_bytes f
  exact ⟨b3, b2, b1, b0, by rw [serTree, hbytes]; rfl, hsum⟩

theorem serTree_node_bytes (f : Word) (l r : HTree) : ∃ b3 b2 b1 b0 : Byte,
    serTree (.node f l r) = [0x06, b3, b2, b1, b0] ++ serTree l ++ serTree r ∧
    b3.toNat * 2 ^ 24 + b2.toNat * 2 ^ 16 + b1.toNat * 2 ^ 8 + b0.toNat = f.toNat := by
  obtain ⟨b3, b2, b1, b0, hbytes, hsum⟩ := be32_bytes f
  exact ⟨b3, b2, b1, b0, by rw [serTree, hbytes]; rfl, hsum⟩

/-- Settles O31: the bytes of each record, that a serialization is read in one way, and its length. -/
theorem serSelfDelimiting : Obligations.SerSelfDelimiting := by
  unfold Obligations.SerSelfDelimiting
  exact ⟨rfl, fun _ => rfl, serTree_leaf_bytes, serTree_node_bytes, fun _ _ _ _ => serTree_append_inj,
    fun _ _ => ser_inj, ser_length⟩

end Sys2Proof.Machine
end

section
/-! TDES on a window that is no serialization of a tree that fits: obligation O34 (45_tree_codec.md R167, R168). -/

namespace Sys2Proof.Machine

open Sys2Proof.Safety

/-- A command that neither appends nor clears OLEN takes an error in STATUS alone, in the state its body stopped in
(60_exceptions.md R236, R239). -/
theorem exec_raised_plain (i : Instr) {s t : State} {e : ErrKind} {u : BlockUnit}
    (hw : i ∈ windowCommands → WindowFits s) (hi : i ≠ .rst) (ha : (commandForm i).appends = false)
    (hc : (commandForm i).clears = false) (hb : commandBody i s = .raised e u t) :
    exec i s = .next ((t.setOlen s.olen).finish (some (e, u)) (opcode i)) := by
  rw [exec_eq_runCommand i s hi, runCommand_raised _ _ s t e u (fun h => hw ((commandForm_window i).1 h)) hb]
  simp only [takeError, ha, hc, commandForm_op, Bool.false_eq_true, if_false]

/-- `Des` fails on a region that is no serialization of a tree of at most 511 nodes (45_tree_codec.md R166). -/
theorem des_fails (r : List Byte) (h : ∀ ot, r = ser ot → 511 < nodeCount ot) : ∃ e, des r = .error e := by
  cases hd : des r with
  | error e => exact ⟨e, rfl⟩
  | ok ns =>
    rcases des_ok r ns hd with ⟨rfl, -⟩ | ⟨t, -, rfl, hsize⟩
    · exact absurd (h none rfl) (Nat.not_lt_zero _)
    · exact absurd (h (some t) rfl) (Nat.not_lt.2 hsize)

/-- The serialization of a tree that does not fit the arena has a 512th node. -/
theorem has512Nodes_ser (ot : Option HTree) (h : 511 < nodeCount ot) : Has512Nodes (ser ot) := by
  cases ot with
  | none => exact absurd h (Nat.not_lt_zero _)
  | some t => exact has512Nodes_serTree t h

theorem exec_tdes_fails (s : State) (e : ErrKind) (hw : WindowFits s) (hd : des s.window = .error e) :
    exec .tdes s = .next ((s.dropTree.setOlen s.olen).finish (some (e, .tdes)) 0x07) :=
  exec_raised_plain .tdes (fun _ => hw) (by decide) rfl rfl (tdesBody_fails s s.srcOff s.srcLen e hd)

/-- Settles O34: `Des` reports CapacityExceeded when it meets a 512th node and MalformedTree otherwise, and the failed step
drops the tree. -/
theorem tdesErrors : Obligations.TdesErrors := by
  unfold Obligations.TdesErrors
  intro s hw hser
  obtain ⟨e, hd⟩ := des_fails s.window hser
  have hlarge : (∃ ot, s.window = ser ot) → Has512Nodes s.window :=
    fun ⟨ot, hot⟩ => hot ▸ has512Nodes_ser ot (hser ot hot)
  have hshort : s.window.length < 2560 → ¬ Has512Nodes s.window :=
    fun hlt h512 => Nat.not_le.2 hlt (has512Nodes_length _ h512)
  have hcapacity : Has512Nodes s.window → e = .capacityExceeded :=
    fun h512 => (des_error _ e hd).elim (·.1) fun h => absurd h512 h.2
  have hmalformed : ¬ Has512Nodes s.window → e = .malformedTree :=
    fun h512 => (des_error _ e hd).elim (fun h => absurd h.2 h512) (·.1)
  exact ⟨_, e, exec_tdes_fails s e hw hd, finish_ended s _ _ _ rfl, hcapacity, hmalformed, fun h => hmalformed (hshort h),
    fun h => hcapacity (hlarge h), rfl, rfl, ⟨rfl, rfl, fun _ => rfl⟩, ⟨rfl, fun _ => rfl⟩, ⟨rfl, rfl, rfl, rfl⟩,
    ⟨rfl, rfl, rfl⟩, ⟨rfl, rfl, rfl⟩, ⟨rfl, rfl⟩, ⟨rfl, rfl, rfl, rfl, rfl, rfl⟩⟩

end Sys2Proof.Machine
end

section
/-! FCNT: its one-pass loop and what the command leaves, obligations O18 and O17 (40_frequency_counter.md R110, R112). -/

namespace Sys2Proof.Machine

open Sys2Proof.Safety

/-- One more symbol at the end of the input is new exactly when it did not occur before. -/
theorem countSeq_concat (B : List Byte) (b : Byte) :
    countSeq (B ++ [b]) = if B.count b = 0 then countSeq B ++ [b] else countSeq B := by
  induction B with
  | nil => rfl
  | cons a as ih =>
    rw [List.cons_append, countSeq, countSeq, ih]
    by_cases hab : a = b
    · subst hab
      split <;> simp
    · rw [List.count_cons_of_ne hab]
      split <;> simp [Ne.symm hab]

theorem countFreq_concat (B : List Byte) (b : Byte) :
    countFreq (B ++ [b]) = fun x => if x = b then countFreq B b + 1 else countFreq B x := by
  funext x
  split
  · next hx => simp [countFreq, hx]
  · next hx => simp [countFreq, Ne.symm hx]

/-- The loop body takes `Count` of the symbols seen so far to `Count` with one more. -/
theorem countStep_count (B : List Byte) (b : Byte) :
    countStep (countFreq B, countSeq B) b = (countFreq (B ++ [b]), countSeq (B ++ [b])) := by
  rw [countFreq_concat, countSeq_concat]; rfl

/-- The loop's invariant: after the symbols of `B`, FREQ and SEQ hold `Count(B)`. -/
theorem foldl_countStep (B : List Byte) : B.foldl countStep (fun _ => 0, []) = (countFreq B, countSeq B) := by
  induction B using List.reverseRecOn with
  | nil => rfl
  | append_singleton B b ih => rw [List.foldl_append, ih, List.foldl_cons, List.foldl_nil, countStep_count]

/-- Settles O18, by induction on the symbols that the loop has read. -/
theorem countIsOnePass : Obligations.CountIsOnePass := by
  unfold Obligations.CountIsOnePass
  intro B
  rw [foldl_countStep]
  exact ⟨fun _ => rfl, rfl⟩

/-- A command whose body completes writes STATUS in the state its body stopped in (49_control.md R220). -/
theorem exec_done (i : Instr) {s t : State} (hw : i ∈ windowCommands → WindowFits s) (hi : i ≠ .rst)
    (hb : commandBody i s = .done t) : exec i s = .next (t.finish none (opcode i)) := by
  rw [exec_eq_runCommand i s hi, runCommand_done _ _ s t (fun h => hw ((commandForm_window i).1 h)) hb, commandForm_op]

/-- Settles O17: FCNT's body writes `Count` of the window in FREQ, SEQ and K, and nothing else. -/
theorem fcntCounts : Obligations.FcntCounts := by
  unfold Obligations.FcntCounts
  intro s hw
  obtain ⟨t, hbody, hset, hfreq, hseq, hk, hzero⟩ := fcntBody_counts s
  obtain ⟨f, q, n, rfl⟩ : ∃ f q n, t = s.setCount f q n := ⟨_, _, _, hset⟩
  have hfirst : FirstAppearance s.window (s.setCount f q n).seqList := hseq ▸ countSeq_firstAppearance s.window
  have hlen : (s.setCount f q n).k.toNat = (s.setCount f q n).seqList.length := by rw [hk, hseq]
  exact ⟨_, exec_done .fcnt (fun _ => hw) (by decide) hbody, finish_ended s _ none _ rfl, hfreq, hfirst, hlen, hzero,
    ⟨rfl, rfl, fun _ => rfl⟩, ⟨rfl, fun _ => rfl⟩, ⟨rfl, rfl, rfl, rfl⟩, ⟨rfl, rfl, rfl⟩, ⟨rfl, rfl, rfl⟩, ⟨rfl, rfl⟩,
    ⟨rfl, rfl, rfl, rfl, rfl, rfl⟩⟩

end Sys2Proof.Machine
end

section
/-! TBLD: what each round of `Build` joins, and the arena it leaves, obligations O19 and O20 (41_tree_builder.md R120 to R125). -/

namespace Sys2Proof.Machine

open Sys2Proof.Safety

/-! ### The live set -/

/-- The internal nodes made before node `n` are younger than their children (41_tree_builder.md R123 item 3). -/
def ChildrenOlder (v : Vector Node 511) (k n : Nat) : Prop :=
  ∀ m, k ≤ m → m < n → (nodeGet v m).left.toNat < m ∧ (nodeGet v m).right.toNat < m

theorem childrenOlder_leaves (v : Vector Node 511) (k : Nat) : ChildrenOlder v k k :=
  fun _ hk hm => absurd hm (Nat.not_lt.2 hk)

theorem ChildrenOlder.succ {v : Vector Node 511} {k n : Nat} (h : ChildrenOlder v k n)
    (hl : (nodeGet v n).left.toNat < n) (hr : (nodeGet v n).right.toNat < n) : ChildrenOlder v k (n + 1) := by
  intro m hk hm
  rcases Nat.lt_succ_iff_lt_or_eq.1 hm with hm | rfl
  · exact h m hk hm
  · exact ⟨hl, hr⟩

/-- Before the first round every leaf is live. -/
theorem liveAt_leaves (v : Vector Node 511) (k x : Nat) : LiveAt v k k x ↔ x < k :=
  ⟨fun h => h.1, fun hx => ⟨hx, fun _ hk hm => absurd hm (Nat.not_lt.2 hk)⟩⟩

/-- Making node `n` takes its children out of the live set and puts `n` in. -/
theorem liveAt_succ {v : Vector Node 511} {k n : Nat} (h : ChildrenOlder v k (n + 1)) (hk : k ≤ n) (x : Nat) :
    LiveAt v k (n + 1) x ↔
      x = n ∨ (LiveAt v k n x ∧ (nodeGet v n).left.toNat ≠ x ∧ (nodeGet v n).right.toNat ≠ x) := by
  constructor
  · rintro ⟨hx, hparent⟩
    rcases Nat.lt_succ_iff_lt_or_eq.1 hx with hx | rfl
    · exact .inr ⟨⟨hx, fun m hm hmn => hparent m hm (by omega)⟩, hparent n hk (by omega)⟩
    · exact .inl rfl
  · rintro (rfl | ⟨⟨hx, hparent⟩, hn⟩)
    · refine ⟨by omega, fun m hm hmx => ?_⟩
      obtain ⟨hl, hr⟩ := h m hm hmx
      omega
    · refine ⟨by omega, fun m hm hmn => ?_⟩
      rcases Nat.lt_succ_iff_lt_or_eq.1 hmn with hmn | rfl
      · exact hparent m hm hmn
      · exact hn

/-- `live` is the live set of the arena `v` when node `n` is made: `k` leaves and the internal nodes `k` to `n - 1` exist. The
exact frequencies add up to `total`; the entries hold them in 32 bits. -/
structure LiveSet (v : Vector Node 511) (k total : Nat) (live : List Live) (n : Nat) : Prop where
  freq : ∀ x ∈ live, (nodeGet v x.id).freq = BitVec.ofNat 32 x.freq
  ids : ∀ i, i ∈ live.map Live.id ↔ LiveAt v k n i
  nodup : (live.map Live.id).Nodup
  older : ChildrenOlder v k n
  sum : (live.map Live.freq).sum = total

theorem LiveSet.perm {v : Vector Node 511} {k total n : Nat} {live live' : List Live} (h : LiveSet v k total live n)
    (p : live'.Perm live) : LiveSet v k total live' n where
  freq x hx := h.freq x (p.mem_iff.1 hx)
  ids i := (p.map _).mem_iff.trans (h.ids i)
  nodup := (p.map _).nodup_iff.2 h.nodup
  older := h.older
  sum := (p.map _).sum_eq.trans h.sum

theorem LiveSet.liveAt {v : Vector Node 511} {k total n : Nat} {live : List Live} (h : LiveSet v k total live n) {x : Live}
    (hx : x ∈ live) : LiveAt v k n x.id := (h.ids x.id).1 (List.mem_map_of_mem hx)

/-- When the sum of the counts fits 32 bits, so does the frequency of every live node (41_tree_builder.md R123 item 2). -/
theorem LiveSet.freq_toNat {v : Vector Node 511} {k total n : Nat} {live : List Live} (h : LiveSet v k total live n)
    (hfit : total < 2 ^ 32) {x : Live} (hx : x ∈ live) : (nodeGet v x.id).freq.toNat = x.freq := by
  have hle : x.freq ≤ total := h.sum ▸ List.le_sum_of_mem (List.mem_map_of_mem hx)
  rw [h.freq x hx, BitVec.toNat_ofNat, Nat.mod_eq_of_lt (by omega)]

/-- The order of `Build` on two live nodes is the order of their entries (41_tree_builder.md R121). -/
theorem LiveSet.keyLess {v : Vector Node 511} {k total n : Nat} {live : List Live} (h : LiveSet v k total live n)
    (hfit : total < 2 ^ 32) {x y : Live} (hx : x ∈ live) (hy : y ∈ live) (hkey : keyLt y x = false) (hne : x.id ≠ y.id) :
    KeyLess v x.id y.id := by
  rw [KeyLess, h.freq_toNat hfit hx, h.freq_toNat hfit hy]
  simp only [keyLt, Bool.or_eq_false_iff, Bool.and_eq_false_iff, decide_eq_false_iff_not] at hkey
  omega

/-! ### One round -/

/-- Node `n` was made in a round that found `a`, `b` and `rest` live: `a` has the least key and became the LEFT child, `b` has
the next least and became the RIGHT child (41_tree_builder.md R120, R122). -/
structure Round (v : Vector Node 511) (k total n : Nat) (a b : Live) (rest : List Live) : Prop where
  live : LiveSet v k total (a :: b :: rest) n
  least : ∀ y ∈ b :: rest, keyLt y a = false
  next : ∀ y ∈ rest, keyLt y b = false
  node : nodeGet v n = innerNode (BitVec.ofNat 32 (a.freq + b.freq)) a.id b.id

namespace Round

variable {v : Vector Node 511} {k total n : Nat} {a b : Live} {rest : List Live} (h : Round v k total n a b rest)
include h

theorem liveAt_left : LiveAt v k n a.id := h.live.liveAt List.mem_cons_self
theorem liveAt_right : LiveAt v k n b.id := h.live.liveAt (List.mem_cons_of_mem _ List.mem_cons_self)

/-- An internal node is an entry of the arena. -/
theorem lt_capacity : n < 511 := by
  by_contra hn
  have hzero : nodeGet v n = Node.zero := dif_neg hn
  exact Bool.noConfusion (congrArg Node.kind (h.node.symm.trans hzero))

theorem left_toNat : (nodeGet v n).left.toNat = a.id := by
  have := h.lt_capacity
  have := h.liveAt_left.1
  rw [h.node, innerNode, BitVec.toNat_ofNat, Nat.mod_eq_of_lt (by omega)]

theorem right_toNat : (nodeGet v n).right.toNat = b.id := by
  have := h.lt_capacity
  have := h.liveAt_right.1
  rw [h.node, innerNode, BitVec.toNat_ofNat, Nat.mod_eq_of_lt (by omega)]

/-- A new node has the sum of its children's frequencies, in 32 bits (41_tree_builder.md R120). -/
theorem freq_eq_add : (nodeGet v n).freq = (nodeGet v a.id).freq + (nodeGet v b.id).freq := by
  rw [h.live.freq a (by simp), h.live.freq b (by simp), h.node, innerNode, BitVec.ofNat_add]

/-- After the round the new node stands in the live set for its two children. -/
theorem liveSet_succ (hk : k ≤ n) : LiveSet v k total ({ freq := a.freq + b.freq, id := n } :: rest) (n + 1) := by
  obtain ⟨hfreq, hids, hnodup, holder, hsum⟩ := h.live
  have holder' : ChildrenOlder v k (n + 1) :=
    holder.succ (h.left_toNat ▸ h.liveAt_left.1) (h.right_toNat ▸ h.liveAt_right.1)
  simp only [List.map_cons, List.nodup_cons, List.mem_cons, not_or] at hids hnodup
  obtain ⟨⟨-, ha⟩, hb, hrest⟩ := hnodup
  have hnew : n ∉ rest.map Live.id := fun hn => Nat.lt_irrefl n ((hids n).1 (.inr (.inr hn))).1
  refine ⟨?_, fun i => ?_, List.nodup_cons.2 ⟨hnew, hrest⟩, holder', ?_⟩
  · intro x hx
    rcases List.mem_cons.1 hx with rfl | hx
    · rw [h.node, innerNode]
    · exact hfreq x (by simp [hx])
  · rw [liveAt_succ holder' hk, h.left_toNat, h.right_toNat, ← hids, List.map_cons, List.mem_cons]
    have hia : i ∈ rest.map Live.id → a.id ≠ i := fun hi e => ha (e ▸ hi)
    have hib : i ∈ rest.map Live.id → b.id ≠ i := fun hi e => hb (e ▸ hi)
    tauto
  · simpa [Nat.add_assoc] using hsum

/-- The left child comes before the right one, and the right one before every other live node (41_tree_builder.md R121, R122). -/
theorem picksTwoLeast (hfit : total < 2 ^ 32) : KeyLess v a.id b.id ∧
    ∀ x, LiveAt v k n x → x ≠ a.id → x ≠ b.id → KeyLess v b.id x := by
  have hab : a.id ≠ b.id := fun e => (List.nodup_cons.1 h.live.nodup).1 (e ▸ List.mem_cons_self)
  refine ⟨h.live.keyLess hfit (by simp) (by simp) (h.least b (by simp)) hab, fun x hx hxa hxb => ?_⟩
  obtain ⟨y, hy, rfl⟩ := List.mem_map.1 ((h.live.ids x).2 hx)
  have hrest : y ∈ rest := by
    rcases List.mem_cons.1 hy with rfl | hy
    · exact absurd rfl hxa
    · exact (List.mem_cons.1 hy).resolve_left fun e => hxb (e ▸ rfl)
  exact h.live.keyLess hfit (by simp) hy (h.next y hrest) hxb.symm

end Round

/-! ### All rounds -/

theorem lookNodes_of_extends {ns ms : List Node} (h : ns <+: ms) {i : Nat} (hi : i < ns.length) :
    lookNodes ms i = lookNodes ns i := by
  obtain ⟨rest, rfl⟩ := h
  rw [lookNodes, lookNodes, List.getElem?_append_left hi]

/-- The rounds only append to the arena. -/
theorem buildRounds_extends (rounds : Nat) : ∀ (live : List Live) (arena : List Node),
    live.length = rounds + 1 → arena <+: buildRounds rounds live arena := by
  induction rounds with
  | zero => exact fun _ _ _ => List.prefix_rfl
  | succ rounds ih =>
    intro live arena hlen
    obtain ⟨a, b, rest, p, -, -, hbuild⟩ := buildRounds_succ rounds live arena (by omega)
    have hrest : rest.length + 2 = live.length := p.length_eq
    rw [hbuild]
    exact (List.prefix_append _ _).trans (ih _ _ (by simp only [List.length_cons]; omega))

/-- Every node that the rounds append to the arena was made in a round, when the table `v` holds the arena they leave. -/
theorem round_of_buildRounds (v : Vector Node 511) (k total rounds : Nat) : ∀ (live : List Live) (arena : List Node),
    live.length = rounds + 1 → k ≤ arena.length → LiveSet v k total live arena.length →
    (∀ i, i < arena.length + rounds → nodeGet v i = lookNodes (buildRounds rounds live arena) i) →
    ∀ j, arena.length ≤ j → j < arena.length + rounds → ∃ a b rest, Round v k total j a b rest := by
  induction rounds with
  | zero => intro live arena _ _ _ _ j hj hj'; omega
  | succ rounds ih =>
    intro live arena hlen hk hlive hv j hj hj'
    obtain ⟨a, b, rest, p, hleast, hnext, hbuild⟩ := buildRounds_succ rounds live arena (by omega)
    have hrest : rest.length + 2 = live.length := p.length_eq
    have hlen' : ({ freq := a.freq + b.freq, id := arena.length } :: rest).length = rounds + 1 := by
      simp only [List.length_cons]; omega
    have hnode : nodeGet v arena.length = innerNode (BitVec.ofNat 32 (a.freq + b.freq)) a.id b.id := by
      rw [hv _ (by omega), hbuild, lookNodes_of_extends (buildRounds_extends rounds _ _ hlen') (by simp)]
      simp [lookNodes]
    have hround : Round v k total arena.length a b rest := ⟨hlive.perm p, hleast, hnext, hnode⟩
    rcases Nat.eq_or_lt_of_le hj with rfl | hj
    · exact ⟨a, b, rest, hround⟩
    · refine ih _ (arena ++ [innerNode (BitVec.ofNat 32 (a.freq + b.freq)) a.id b.id]) hlen' ?_ ?_ ?_ j ?_ ?_ <;>
        rw [List.length_append, List.length_singleton]
      · omega
      · exact hround.liveSet_succ hk
      · exact fun i hi => hbuild ▸ hv i (by omega)
      · omega
      · omega

/-! ### The arena of `Build` -/

theorem lookNodes_leaves (F : Byte → Nat) (S : List Byte) {i : Nat} (hi : i < S.length) :
    lookNodes (S.map fun sym => leafNode sym (BitVec.ofNat 32 (F sym))) i =
      leafNode (S.getD i 0) (BitVec.ofNat 32 (F (S.getD i 0))) := by
  simp [lookNodes, List.getD_eq_getElem?_getD, List.getElem?_eq_getElem hi]

section

variable (v : Vector Node 511) (F : Byte → Nat) (S : List Byte) (h0 : S ≠ []) (hS : S.length ≤ 256)
include h0 hS

theorem nodeGet_build {i : Nat} (hi : i < 2 * S.length - 1) : nodeGet (loadNodes v (build F S)) i = lookNodes (build F S) i := by
  obtain ⟨-, -, hlen, -⟩ := build_tree F S h0 hS
  exact nodeGet_lookNodes v _ i (hlen ▸ hi) (by omega)

/-- The leaves have the first ids, in the order of `S` (41_tree_builder.md R120). -/
theorem nodeGet_build_leaf {i : Nat} (hi : i < S.length) : nodeGet (loadNodes v (build F S)) i =
    leafNode (S.getD i 0) (BitVec.ofNat 32 (F (S.getD i 0))) := by
  obtain ⟨-, -, -, hleaves, -⟩ := build_tree F S h0 hS
  rw [nodeGet_build v F S h0 hS (by omega), lookNodes_of_extends hleaves (by simpa using hi), lookNodes_leaves F S hi]

/-- Before the first round the leaves are the live set. -/
theorem liveSet_leaves : LiveSet (loadNodes v (build F S)) S.length (S.map F).sum
    (S.zipIdx.map fun p => { freq := F p.1, id := p.2 }) S.length := by
  have hids : (S.zipIdx.map fun p => ({ freq := F p.1, id := p.2 } : Live)).map Live.id = List.range S.length := by
    rw [List.map_map, List.range_eq_range', ← List.zipIdx_map_snd]; rfl
  refine ⟨fun x hx => ?_, fun i => ?_, hids ▸ List.nodup_range, childrenOlder_leaves _ _, ?_⟩
  · obtain ⟨⟨sym, i⟩, hp, rfl⟩ := List.mem_map.1 hx
    have hget := List.mem_zipIdx_iff_getElem?.1 hp
    obtain ⟨hi, -⟩ := List.getElem?_eq_some_iff.1 hget
    rw [nodeGet_build_leaf v F S h0 hS hi, List.getD_eq_getElem?_getD, hget]; rfl
  · rw [hids, List.mem_range, liveAt_leaves]
  · conv_rhs => rw [← List.zipIdx_map_fst 0 S, List.map_map]
    rw [List.map_map]; rfl

/-- Every internal node of `Build` was made in a round. -/
theorem round_of_build {j : Nat} (hj : S.length ≤ j) (hj' : j < 2 * S.length - 1) :
    ∃ a b rest, Round (loadNodes v (build F S)) S.length (S.map F).sum j a b rest := by
  have hpos : 0 < S.length := List.length_pos_iff.2 h0
  refine round_of_buildRounds _ _ _ (S.length - 1) (S.zipIdx.map fun p => { freq := F p.1, id := p.2 })
    (S.map fun sym => leafNode sym (BitVec.ofNat 32 (F sym))) ?_ ?_ ?_ ?_ j ?_ ?_ <;>
    simp only [List.length_map, List.length_zipIdx]
  · omega
  · exact Nat.le_refl _
  · exact liveSet_leaves v F S h0 hS
  · exact fun i hi => nodeGet_build v F S h0 hS (by omega)
  · exact hj
  · omega

end

/-! ### The command -/

/-- `SEQ[0..K)` is empty only for K = 0. -/
theorem seqList_ne_nil (s : State) (h0 : s.k ≠ 0) (hk : s.k.toNat ≤ 256) : s.seqList ≠ [] := by
  intro e
  have hlen := seqList_length s hk
  rw [e, List.length_nil] at hlen
  exact h0 (BitVec.eq_of_toNat_eq hlen.symm)

/-- A command that writes the tree alone leaves everything else but STATUS as it was (41_tree_builder.md R124). -/
theorem same_of_setTree {s t : State} {v : Vector Node 511} {n r : BitVec 9} {op : Byte}
    (ht : t = (s.setTree v n r).finish none op) :
    SameInput s t ∧ SameOutput s t ∧ SameParse s t ∧ SameView s t ∧ SameCount s t ∧ SameCodes s t ∧ SameRest s t := by
  subst ht
  exact ⟨⟨rfl, rfl, fun _ => rfl⟩, ⟨rfl, fun _ => rfl⟩, ⟨rfl, rfl, rfl, rfl⟩, ⟨rfl, rfl, rfl⟩, ⟨rfl, rfl, rfl⟩,
    ⟨rfl, rfl⟩, ⟨rfl, rfl, rfl, rfl, rfl, rfl⟩⟩

/-- For K = 0 TBLD leaves the absent tree (41_tree_builder.md R125). -/
theorem exec_tbld_zero (s : State) (h0 : s.k = 0) : exec .tbld s = .next ((s.setTree s.node 0 0).finish none 0x02) :=
  exec_done .tbld (fun h => absurd h (by decide)) (by decide) (tbldBody_zero s h0)

/-- The NODE table with the arena of `Build` in its first entries. -/
def builtNodes (s : State) : Vector Node 511 :=
  loadNodes s.node (build (fun sym => (symGet s.freq sym).toNat) s.seqList)

/-- For K from 1 to 256 TBLD loads the arena of `Build` (41_tree_builder.md R124). -/
theorem exec_tbld_build (s : State) (h0 : s.k ≠ 0) (hk : s.k.toNat ≤ 256) : ∃ n r,
    exec .tbld s = .next ((s.setTree (builtNodes s) n r).finish none 0x02) ∧
      n.toNat = 2 * s.k.toNat - 1 ∧ r.toNat = 2 * s.k.toNat - 2 ∧
      SameNodesAbove s (s.setTree (builtNodes s) n r) ∧ ArenaInv (s.setTree (builtNodes s) n r) := by
  obtain ⟨t, -, hbody, hset, hnode, hn, hr, -, -, habove, harena, -, -⟩ := tbldBody_build s h0 hk
  rw [hnode] at hset
  rw [hset] at hbody habove harena
  exact ⟨t.nnodes, t.root, exec_done .tbld (fun h => absurd h (by decide)) (by decide) hbody, hn, hr, habove, harena⟩

/-- The leaves that TBLD loads (41_tree_builder.md R124). -/
theorem nodeGet_builtNodes_leaf (s : State) (h0 : s.k ≠ 0) (hk : s.k.toNat ≤ 256) {i : Nat} (hi : i < s.k.toNat) :
    nodeGet (builtNodes s) i = leafNode (s.seqList.getD i 0) (symGet s.freq (s.seqList.getD i 0)) := by
  have hlen := seqList_length s hk
  rw [builtNodes, nodeGet_build_leaf _ _ _ (seqList_ne_nil s h0 hk) (by omega) (hlen ▸ hi), BitVec.ofNat_toNat,
    BitVec.setWidth_eq]

/-- Every internal node that TBLD makes was made in a round. -/
theorem exec_tbld_round {s t : State} (hk : s.k.toNat ≤ 256) (he : exec .tbld s = .next t) {j : Nat} (hj : s.k.toNat ≤ j)
    (hj' : j < 2 * s.k.toNat - 1) : ∃ a b rest,
      Round t.node s.k.toNat (s.seqList.map fun sym => (symGet s.freq sym).toNat).sum j a b rest := by
  have h0 : s.k ≠ 0 := fun e => by rw [e] at hj'; exact absurd hj' (Nat.not_lt_zero j)
  obtain ⟨n, r, hexec, -⟩ := exec_tbld_build s h0 hk
  obtain rfl := Host.Outcome.next.inj (hexec.symm.trans he)
  have hlen := seqList_length s hk
  have := round_of_build s.node (fun sym => (symGet s.freq sym).toNat) s.seqList (seqList_ne_nil s h0 hk) (by omega)
    (j := j) (by omega) (by omega)
  rwa [hlen] at this

/-- Settles O20: every internal node was made in a round, and no 32-bit frequency wraps. -/
theorem tbldPicksTwoLeast : Obligations.TbldPicksTwoLeast := by
  unfold Obligations.TbldPicksTwoLeast
  intro s t j hk hfit he hj hj'
  obtain ⟨a, b, rest, hround⟩ := exec_tbld_round hk he hj hj'
  rw [hround.left_toNat, hround.right_toNat]
  exact ⟨hround.liveAt_left, hround.liveAt_right, hround.picksTwoLeast hfit⟩

/-- Settles O19: the absent tree for K = 0, else the arena of `Build`, whose internal nodes each come from a round. -/
theorem tbldArena : Obligations.TbldArena := by
  unfold Obligations.TbldArena
  intro s hk
  by_cases h0 : s.k = 0
  · exact ⟨_, exec_tbld_zero s h0, finish_ended s _ none _ rfl, fun _ => ⟨rfl, rfl, rfl⟩, fun h => absurd h0 h,
      same_of_setTree rfl⟩
  · obtain ⟨n, r, hexec, hn, hr, habove, harena⟩ := exec_tbld_build s h0 hk
    refine ⟨_, hexec, finish_ended s _ none _ rfl, fun h => absurd h h0, fun _ => ⟨hn, hr, ?leaves, ?internal, ?above, harena⟩,
      same_of_setTree rfl⟩
    case leaves => exact fun i => nodeGet_builtNodes_leaf s h0 hk
    case above => exact fun i hi => habove i (hn.trans_le hi)
    case internal =>
      intro i hi hi'
      obtain ⟨a, b, rest, hround⟩ := exec_tbld_round hk hexec hi hi'
      rw [hround.left_toNat, hround.right_toNat]
      exact ⟨congrArg Node.kind hround.node, congrArg Node.sym hround.node, hround.liveAt_left.1, hround.liveAt_right.1,
        hround.freq_eq_add⟩

end Sys2Proof.Machine
end

section
/-! CGEN: the shape of the code list, and the table the command writes, obligations O21 to O23
(42_code_table_generator.md R130 to R134). -/

namespace Sys2Proof.Machine

open Sys2Proof.Safety

/-! ### No code is a prefix of another (42_code_table_generator.md R131 item 2) -/

/-- No code of the list is a prefix of a code at another place of it. -/
def PrefixFree (cs : List (Byte × List Bool)) : Prop :=
  cs.Pairwise fun p q => ¬ p.2 <+: q.2 ∧ ¬ q.2 <+: p.2

theorem PrefixFree.map_cons {cs : List (Byte × List Bool)} (h : PrefixFree cs) (b : Bool) :
    PrefixFree (cs.map fun q => (q.1, b :: q.2)) := by
  refine List.pairwise_map.2 (h.imp fun hpq => ?_)
  simpa only [List.prefix_cons_inj] using hpq

/-- Codes whose first bits differ are no prefixes of each other, so the codes of two subtrees can stand in one list. -/
theorem PrefixFree.append_children {cs ds : List (Byte × List Bool)} (hc : PrefixFree cs) (hd : PrefixFree ds) :
    PrefixFree ((cs.map fun q => (q.1, false :: q.2)) ++ ds.map fun q => (q.1, true :: q.2)) := by
  refine List.pairwise_append.2 ⟨hc.map_cons false, hd.map_cons true, fun p hp q hq => ?_⟩
  obtain ⟨p, -, rfl⟩ := List.mem_map.1 hp
  obtain ⟨q, -, rfl⟩ := List.mem_map.1 hq
  simp [List.cons_prefix_cons]

theorem prefixFree_paths (t : HTree) : PrefixFree (paths t []) := by
  induction t with
  | leaf s f => exact List.pairwise_singleton _ _
  | node f l r ihl ihr => rw [paths_node]; exact ihl.append_children ihr

/-- Settles O22: the codes of a tree are its paths, and paths that part at a node differ in the bit taken there. -/
theorem codesPrefixFree : Obligations.CodesPrefixFree := by
  unfold Obligations.CodesPrefixFree
  intro ot
  cases ot with
  | none => exact List.Pairwise.nil
  | some t =>
    cases t with
    | leaf s f => exact List.pairwise_singleton _ _
    | node f l r => exact prefixFree_paths (.node f l r)

/-! ### The code list and the leaves -/

/-- Settles O23: the equations of `Codes` and `Paths`; the symbols follow the leaves, and the depth bounds the lengths. -/
theorem codeLengths : Obligations.CodeLengths := by
  unfold Obligations.CodeLengths
  exact ⟨rfl, fun _ _ => rfl, fun _ _ _ => rfl, fun _ _ => rfl, paths_node, codes_syms, codes_length⟩

/-! ### The command -/

/-- A command that writes the code table alone leaves everything else but STATUS as it was (42_code_table_generator.md R133). -/
theorem same_of_setCodes (s : State) (l : Vector Byte 256) (b : Vector (BitVec 256) 256) (op : Byte) :
    let t := (s.setCodes l b).finish none op
    SameInput s t ∧ SameOutput s t ∧ SameParse s t ∧ SameView s t ∧ SameCount s t ∧ SameTree s t ∧ SameRest s t :=
  ⟨⟨rfl, rfl, fun _ => rfl⟩, ⟨rfl, fun _ => rfl⟩, ⟨rfl, rfl, rfl, rfl⟩, ⟨rfl, rfl, rfl⟩, ⟨rfl, rfl, rfl⟩, ⟨rfl, rfl, rfl⟩,
    ⟨rfl, rfl, rfl, rfl, rfl, rfl⟩⟩

/-- On every tree CGEN completes with the tables of its code list (42_code_table_generator.md R133). -/
theorem exec_cgen (s : State) (ot : Option HTree) (h : HoldsTree s ot) :
    exec .cgen s = .next ((s.setCodes (clenTable (codes ot)) (cbitsTable (codes ot))).finish none 0x03) :=
  exec_done .cgen (fun hw => absurd hw (by decide)) (by decide) (cgenBody_of_holds s ot h)

/-- Settles O21: the codes of a tree in the arena fit their table entries, so the tables hold them exactly. -/
theorem cgenTable : Obligations.CgenTable := by
  unfold Obligations.CgenTable
  intro s ot hot
  have hlen := codes_length_option ot (holdsTree_size_le s ot hot)
  refine ⟨_, exec_cgen s ot hot, finish_ended s _ none _ rfl, code_setCodes s _ hlen, fun sym hsym => ?_,
    codeInv_setCodes s _ hlen, same_of_setCodes s _ _ _⟩
  obtain ⟨-, -, -, huncoded, -⟩ := tables_spec _ hlen sym
  exact huncoded hsym

end Sys2Proof.Machine
end

section
/-! BPCK: the packed payload of a bit-string, and the command that appends it, obligations O24 to O27
(43_bit_packer.md R140 to R145). -/

namespace Sys2Proof.Machine

open Sys2Proof.Safety

/-! ### The payload (43_bit_packer.md R142) -/

/-- A byte whose bit-string ends with `n` zeros has its low `n` bits 0. -/
theorem getLsbD_of_zeros_suffix {b : Byte} {n : Nat} (h : List.replicate n false <:+ byteBits b) {i : Nat} (hi : i < n) :
    b.getLsbD i = false := by
  obtain ⟨front, hbits⟩ := h
  have hlen : front.length + n = 8 := by simpa [byteBits_length] using congrArg List.length hbits
  have hbit : (byteBits b)[7 - i]? = some (b.getLsbD i) := by
    simp only [byteBits, List.getElem?_map, List.getElem?_range (by omega : 7 - i < 8), Option.map_some]
    congr 2; omega
  rw [← hbits, List.getElem?_append_right (by omega), List.getElem?_replicate_of_lt (by omega)] at hbit
  exact (Option.some.inj hbit).symm

/-- The bits of a byte sequence end with those of its last byte. -/
theorem byteBits_getLast_suffix {data : List Byte} {last : Byte} (h : data.getLast? = some last) :
    byteBits last <:+ data.flatMap byteBits := by
  obtain ⟨front, rfl⟩ := List.getLast?_eq_some_iff.1 h
  exact ⟨front.flatMap byteBits, by simp⟩

/-- Settles O26: the bits of the data bytes are the bit-string and its padding, so the last byte ends with the padding. -/
theorem packShape : Obligations.PackShape := by
  unfold Obligations.PackShape
  intro bits
  obtain ⟨pad, data, hpack, hpad, hlen, hbits⟩ := pack_spec bits
  obtain ⟨hle, hsum⟩ := padCount_spec bits.length
  refine ⟨pad, data, hpack, hpad, hlen, fun hnil => ?_, by omega, fun last hlast i hi => ?_⟩
  · rw [hnil, List.length_nil] at hlen
    exact BitVec.eq_of_toNat_eq (by rw [hpad]; show padCount bits.length = 0; omega)
  · have hzeros : List.replicate pad.toNat false <:+ data.flatMap byteBits := by
      rw [hbits, hpad]; exact List.suffix_append _ _
    exact getLsbD_of_zeros_suffix (List.suffix_of_suffix_length_le hzeros (byteBits_getLast_suffix hlast)
      (by rw [List.length_replicate, byteBits_length]; omega)) hi

/-- Settles O27: a packed payload passes the tests of `Unpack`, which then drops the padding. -/
theorem unpackPack : Obligations.UnpackPack := by
  unfold Obligations.UnpackPack
  intro bits
  obtain ⟨pad, data, hpack, -, -, hnil, hlen, -⟩ := packShape bits
  obtain ⟨_, _, hpack', hpad, -, hbits⟩ := pack_spec bits
  obtain ⟨rfl, rfl⟩ := List.cons.inj (hpack'.symm.trans hpack)
  have hle := (padCount_spec bits.length).1
  rw [hpack, unpack, if_neg (by omega), if_neg (fun h => h.2 (hnil h.1)), hlen, hbits, List.take_left]

/-! ### The command (43_bit_packer.md R144, R145) -/

/-- The payload of the window has `1 + ceil8(T)` bytes, where `T` sums the code lengths (43_bit_packer.md R140, R142 item 1). -/
theorem pack_window_length (s : State) : (pack (s.window.flatMap s.code)).length =
    1 + ((s.window.map fun b => (symGet s.clen b).toNat).sum + 7) / 8 := by
  rw [pack_length]
  simp only [List.length_flatMap, code_length]

/-- An appending command whose body stops before any change ends with the error, without output (60_exceptions.md R238). -/
theorem exec_append_raised (i : Instr) {s : State} {e : ErrKind} {u : BlockUnit} (hw : i ∈ windowCommands → WindowFits s)
    (ha : (commandForm i).appends = true) (hc : (commandForm i).clears = false) (hb : commandBody i s = .raised e u s) :
    ∃ t, exec i s = .next t ∧ Ended s t (opcode i) (some (e, u)) ∧ NoOutput s t s.olen ∧ SameAllButOutput s t := by
  have hend := takeError_ended (commandForm i) s.olen e u s
  have hout := takeError_noOutput (commandForm i) ha s.olen e u s
  rw [commandForm_op] at hend
  rw [hc] at hout
  refine ⟨_, ?_, hend, hout, takeError_same _ _ _ _ s⟩
  rw [exec_eq_runCommand i s (ne_rst_of_appends ha)]
  exact runCommand_raised _ _ s s e u (fun h => hw ((commandForm_window i).1 h)) hb

/-- Settles O24: on a coded window BPCK's body is one append of the payload, which fits. -/
theorem bpckPacks : Obligations.BpckPacks := by
  unfold Obligations.BpckPacks
  intro s hw hcoded hfit
  exact exec_append_of_fits .bpck .bpck _ s (fun _ => hw) rfl (bpckBody_coded s hcoded)
    (by rw [pack_window_length]; omega)

/-- Settles O25: the search for a byte without a code comes before the append, and both stop with the state unchanged. -/
theorem bpckErrors : Obligations.BpckErrors := by
  unfold Obligations.BpckErrors
  intro s hw
  constructor
  · intro hmissing
    exact exec_append_raised .bpck (fun _ => hw) rfl rfl (bpckBody_missing s hmissing)
  · intro hcoded hfull
    exact exec_append_of_full .bpck .bpck _ s (fun _ => hw) rfl (bpckBody_coded s hcoded) rfl
      (by rw [pack_window_length]; omega)

end Sys2Proof.Machine
end

section
/-! BUNP: the bit view of a window that passes the tests of `Unpack`, and the cleared view of one that does not, obligation O28
(44_bit_unpacker.md R151, R153). -/

namespace Sys2Proof.Machine

open Sys2Proof.Safety

/-- A command that writes the bit view alone leaves everything else but STATUS as it was (44_bit_unpacker.md R153). -/
theorem same_of_setView (s : State) (off len : Word) (pad : BitVec 3) (e : Option (ErrKind × BlockUnit)) (op : Byte) :
    let t := (s.setView off len pad).finish e op
    SameInput s t ∧ SameOutput s t ∧ SameParse s t ∧ SameCount s t ∧ SameTree s t ∧ SameCodes s t ∧ SameRest s t :=
  ⟨⟨rfl, rfl, fun _ => rfl⟩, ⟨rfl, fun _ => rfl⟩, ⟨rfl, rfl, rfl, rfl⟩, ⟨rfl, rfl, rfl⟩, ⟨rfl, rfl, rfl⟩, ⟨rfl, rfl⟩,
    ⟨rfl, rfl, rfl, rfl, rfl, rfl⟩⟩

/-- On a window that one of the three tests rejects, BUNP clears the view (60_exceptions.md R239). -/
theorem exec_bunp_fails (s : State) (hw : WindowFits s) (h : bunpFails s s.srcOff s.srcLen) :
    exec .bunp s = .next ((s.setView 0 0 0).finish (some (.malformedPayload, .bunp)) 0x05) :=
  exec_raised_plain .bunp (fun _ => hw) (by decide) rfl rfl (bunpBody_fails s s.srcOff s.srcLen h).1

/-- On every other window BUNP sets the view to the bytes after the padding count, whose bits are `Unpack` of the window
(44_bit_unpacker.md R153). -/
theorem exec_bunp_done (s : State) (hw : WindowFits s) (h : ¬ bunpFails s s.srcOff s.srcLen) : ∃ off len pad,
    exec .bunp s = .next ((s.setView off len pad).finish none 0x05) ∧ off.toNat = s.srcOff.toNat + 1 ∧
      len.toNat + 1 = s.srcLen.toNat ∧ pad.toNat = (s.ibufByte s.srcOff.toNat).toNat ∧
      unpack s.window = .ok (s.setView off len pad).viewBits := by
  have hsum : s.srcOff.toNat + s.srcLen.toNat < 2 ^ 32 := Nat.lt_of_le_of_lt hw s.ibufSize.isLt
  obtain ⟨t, hbody, hview, hoff, hlen, hpad, -, hbits⟩ := bunpBody_done s s.srcOff s.srcLen h hsum
  rw [hview] at hbody hbits
  exact ⟨_, _, _, exec_done .bunp (fun _ => hw) (by decide) hbody, hoff, hlen, hpad, hbits⟩

/-- Settles O28: BUNP's body decides by the three tests and writes the view alone. -/
theorem bunpView : Obligations.BunpView := by
  unfold Obligations.BunpView
  intro s hw
  constructor
  · intro hfails
    exact ⟨_, exec_bunp_fails s hw hfails, finish_ended s _ _ _ rfl, rfl, rfl, rfl, same_of_setView s _ _ _ _ _⟩
  · intro hpasses
    obtain ⟨off, len, pad, hexec, hoff, hlen, hpad, hbits⟩ := exec_bunp_done s hw hpasses
    exact ⟨_, hexec, finish_ended s _ none _ rfl, hoff, hlen, hpad, hbits, same_of_setView s off len pad none _⟩

end Sys2Proof.Machine
end

section
/-! TSER, and `Des` as the inverse of `Ser`: obligations O30 and O32 (45_tree_codec.md R160 to R166). -/

namespace Sys2Proof.Machine

open Sys2Proof.Safety

/-- Settles O30: on a tree TSER's body is one append of the serialization. -/
theorem tserAppends : Obligations.TserAppends := by
  unfold Obligations.TserAppends
  intro s ot hot
  have hwin : Instr.tser ∈ windowCommands → WindowFits s := fun h => absurd h (by decide)
  have hbody : commandBody .tser s = appendBytes .tser (ser ot) s := tserBody_of_holds s ot hot
  exact ⟨exec_append_of_fits .tser .tser _ s hwin rfl hbody, exec_append_of_full .tser .tser _ s hwin rfl hbody rfl⟩

/-- The nodes that `Des` answers for a tree: the nodes in pre-order, none for the absent tree (45_tree_codec.md R166). -/
def desNodes : Option HTree → List Node
  | none => []
  | some t => preNodes 0 t

theorem desNodes_length (ot : Option HTree) : (desNodes ot).length = nodeCount ot := by
  cases ot with
  | none => rfl
  | some t => exact preNodes_length t 0

/-- `Des` inverts `Ser` on every tree that fits the arena (45_tree_codec.md R163). -/
theorem des_ser (ot : Option HTree) (h : nodeCount ot ≤ 511) : des (ser ot) = .ok (desNodes ot) := by
  cases ot with
  | none => rfl
  | some t => exact des_serTree t h

theorem des_eq_ok_iff (r : List Byte) (ns : List Node) :
    des r = .ok ns ↔ ∃ ot, ns = desNodes ot ∧ r = ser ot ∧ nodeCount ot ≤ 511 := by
  constructor
  · intro h
    rcases des_ok r ns h with ⟨rfl, rfl⟩ | ⟨t, rfl, rfl, hsize⟩
    · exact ⟨none, rfl, rfl, Nat.zero_le _⟩
    · exact ⟨some t, rfl, rfl, hsize⟩
  · rintro ⟨ot, rfl, rfl, hsize⟩
    exact des_ser ot hsize

theorem standsAt_lookNodes (t : HTree) : StandsAt (lookNodes (preNodes 0 t)) 0 t := by
  intro j _
  rw [Nat.zero_add, lookNodes, List.getD_eq_getElem?_getD]

/-- The nodes in pre-order, read from id 0 as an arena of their own, are the tree: a descent passes through at most as many
nodes as the tree has. -/
theorem treeOfNodes_preNodes (t : HTree) (h : t.size ≤ 511) : treeOfNodes (preNodes 0 t) 0 = some t := by
  have hholds : Holds (lookNodes (preNodes 0 t)) 0 t (List.range' 0 t.size) :=
    holds_preNodes t 0 _ (by omega) (standsAt_lookNodes t)
  have hdepth : t.depth < t.size := by have := t.two_depth_lt_size; omega
  have hids : ∀ x ∈ List.range' 0 t.size, x < t.size := fun x hx => by have := List.mem_range'_1.1 hx; omega
  have htree := (hholds.treeOf t.size hdepth hids).1
  rw [← preNodes_length t 0] at htree
  exact htree

theorem nodesHold_desNodes (ot : Option HTree) (h : nodeCount ot ≤ 511) : NodesHold (desNodes ot) ot := by
  cases ot with
  | none => rfl
  | some t => exact treeOfNodes_preNodes t h

/-- Settles O32: `Des` answers exactly the pre-order nodes of the trees that fit, and these nodes hold their tree. -/
theorem treeRoundTrip : Obligations.TreeRoundTrip := by
  unfold Obligations.TreeRoundTrip
  constructor
  · intro ot hsize
    exact ⟨_, des_ser ot hsize, nodesHold_desNodes ot hsize, desNodes_length ot⟩
  · intro r ns hdes
    obtain ⟨ot, rfl, hr, hsize⟩ := (des_eq_ok_iff r ns).1 hdes
    exact ⟨ot, nodesHold_desNodes ot hsize, hr, hsize⟩

end Sys2Proof.Machine
end

section
/-! TDES on a serialized tree: the arena it loads, obligation O33 (45_tree_codec.md R166, R168). -/

namespace Sys2Proof.Machine

open Sys2Proof.Safety

/-- The state with the tree `ot` loaded in pre-order, root 0 (45_tree_codec.md R168). -/
def State.loadTree (s : State) (ot : Option HTree) : State :=
  s.setTree (loadNodes s.node (desNodes ot)) (BitVec.ofNat 9 (desNodes ot).length) 0

/-- On the serialization of a tree that fits, TDES loads that tree. -/
theorem exec_tdes_ser (s : State) (ot : Option HTree) (hw : WindowFits s) (hser : s.window = ser ot)
    (hsize : nodeCount ot ≤ 511) : exec .tdes s = .next ((s.loadTree ot).finish none 0x07) := by
  have hdes : des s.window = .ok (desNodes ot) := hser ▸ des_ser ot hsize
  exact exec_done .tdes (fun _ => hw) (by decide) (tdesBody_done s s.srcOff s.srcLen _ hdes)

section

variable (s : State) (ot : Option HTree) (h : nodeCount ot ≤ 511)

include h

theorem loadTree_nnodes : (s.loadTree ot).nnodes.toNat = nodeCount ot := by
  rw [State.loadTree, State.setTree_nnodes, desNodes_length, BitVec.toNat_ofNat]; omega

/-- The loaded arena holds the tree, and the entries above it are as they were. -/
theorem loadTree_holds_sameAbove : HoldsTree (s.loadTree ot) ot ∧ SameNodesAbove s (s.loadTree ot) := by
  obtain ⟨ot', hser, -, -, hholds, habove, -⟩ := loadNodes_des s (ser ot) (desNodes ot) (des_ser ot h)
  rw [← ser_inj hser] at hholds
  exact ⟨hholds, habove⟩

/-- Following LEFT and RIGHT from 0 visits the loaded nodes in the order of their ids. -/
theorem loadTree_visitOf (hot : ot ≠ none) :
    visitOf (nodeGet (s.loadTree ot).node) (nodeCount ot) 511 0 = some (List.range (nodeCount ot)) := by
  cases ot with
  | none => exact absurd rfl hot
  | some t =>
    have hsize : t.size ≤ 511 := h
    have hdepth := t.two_depth_lt_size
    exact ((holds_loadNodes_preNodes s.node t h).treeOf 511 (by omega) fun _ => List.mem_range.1).2

/-- What each loaded node names (45_tree_codec.md R166). -/
theorem loadTree_children {i : Nat} (hi : i < nodeCount ot) :
    ((nodeGet (s.loadTree ot).node i).kind = false →
      (nodeGet (s.loadTree ot).node i).left = 0 ∧ (nodeGet (s.loadTree ot).node i).right = 0) ∧
    ((nodeGet (s.loadTree ot).node i).kind = true →
      (nodeGet (s.loadTree ot).node i).sym = 0 ∧ (nodeGet (s.loadTree ot).node i).left.toNat = i + 1 ∧
      ∃ ids, visitOf (nodeGet (s.loadTree ot).node) (nodeCount ot) 511 (nodeGet (s.loadTree ot).node i).left.toNat = some ids ∧
        (nodeGet (s.loadTree ot).node i).right.toNat = i + 1 + ids.length) := by
  cases ot with
  | none => exact absurd hi (Nat.not_lt_zero i)
  | some t =>
    exact (standsAt_loadNodes s.node t h).children t 0 t.size (Nat.zero_add _).le h i i.zero_le
      (hi.trans_eq (Nat.zero_add _).symm)

end

/-- Settles O33: TDES loads the pre-order nodes of the tree and writes nothing else. -/
theorem tdesLoads : Obligations.TdesLoads := by
  unfold Obligations.TdesLoads
  intro s ot hw hser hsize
  obtain ⟨hholds, habove⟩ := loadTree_holds_sameAbove s ot hsize
  have hn := loadTree_nnodes s ot hsize
  exact ⟨_, exec_tdes_ser s ot hw hser hsize, finish_ended s _ none _ rfl, hholds, hn, rfl, loadTree_visitOf s ot hsize,
    fun i hi => (loadTree_children s ot hsize hi).2, fun i hi => (loadTree_children s ot hsize hi).1,
    fun i hi => habove i (hn.trans_le hi), same_of_setTree rfl⟩

end Sys2Proof.Machine
end

section
/-! The container framing: `Split` as the inverse of `Frame`, and CPAR, obligations O37 and O36 (46_container_format.md R180 to
R184). -/

namespace Sys2Proof.Machine

open Sys2Proof.Safety

theorem frame_length (tr pl : List Byte) : (frame tr pl).length = 4 + tr.length + pl.length := by
  rw [frame, List.length_append, List.length_append, be32_length]

/-- `Split` on a length field and the bytes that follow it, when the tree region lies in them (46_container_format.md R182). -/
theorem split_be32_append (v : Word) (rest : List Byte) (h : v.toNat ≤ rest.length) :
    split (be32 v ++ rest) = .ok (rest.take v.toNat, rest.drop v.toNat) := by
  simp only [be32, List.cons_append, List.nil_append, split, unBE32_be32]
  exact if_neg (Nat.not_lt.2 h)

/-- `Split` inverts `Frame` on every tree region whose length the 32-bit field holds (46_container_format.md R184). -/
theorem split_frame (tr pl : List Byte) (h : tr.length < 2 ^ 32) : split (frame tr pl) = .ok (tr, pl) := by
  have hn : (BitVec.ofNat 32 tr.length).toNat = tr.length := by rw [BitVec.toNat_ofNat, Nat.mod_eq_of_lt h]
  have hle : tr.length ≤ (tr ++ pl).length := by rw [List.length_append]; exact Nat.le_add_right _ _
  rw [frame, List.append_assoc, split_be32_append _ _ (hn.trans_le hle), hn, List.take_left, List.drop_left]

/-- Settles O37: the length field of the container names exactly the tree region. -/
theorem splitFrame : Obligations.SplitFrame := by
  unfold Obligations.SplitFrame
  intro tr pl htr
  exact ⟨split_frame tr pl htr, frame_length tr pl⟩

/-- A command that writes the parse registers alone leaves everything else but STATUS as it was (46_container_format.md R183). -/
theorem same_of_setParse (s : State) (a b c d : Word) (e : Option (ErrKind × BlockUnit)) (op : Byte) :
    let t := (s.setParse a b c d).finish e op
    SameInput s t ∧ SameOutput s t ∧ SameView s t ∧ SameCount s t ∧ SameTree s t ∧ SameCodes s t ∧ SameRest s t :=
  ⟨⟨rfl, rfl, fun _ => rfl⟩, ⟨rfl, fun _ => rfl⟩, ⟨rfl, rfl, rfl⟩, ⟨rfl, rfl, rfl⟩, ⟨rfl, rfl, rfl⟩, ⟨rfl, rfl⟩,
    ⟨rfl, rfl, rfl, rfl, rfl, rfl⟩⟩

/-- The length field of the window is the word that CPAR's tests read. -/
theorem ibufWord_srcOff (s : State) : (s.ibufWord s.srcOff.toNat).toNat = windowN s := ibufWord_toNat s s.srcOff.toNat

theorem cparFails_iff (s : State) :
    cparFails s s.srcOff s.srcLen ↔ s.srcLen.toNat < 4 ∨ s.srcLen.toNat - 4 < windowN s := by
  rw [cparFails, ibufWord_srcOff]

/-- On a window that one of the two tests rejects, CPAR clears the four registers (60_exceptions.md R239). -/
theorem exec_cpar_fails (s : State) (hw : WindowFits s) (h : cparFails s s.srcOff s.srcLen) :
    exec .cpar s = .next ((s.setParse 0 0 0 0).finish (some (.truncatedContainer, .cfmt)) 0x09) :=
  exec_raised_plain .cpar (fun _ => hw) (by decide) rfl rfl (cparBody_fails s s.srcOff s.srcLen h).1

/-- On every other window CPAR names the two regions of `Split` of the window (46_container_format.md R183). -/
theorem exec_cpar_done (s : State) (hw : WindowFits s) (h : ¬ cparFails s s.srcOff s.srcLen) :
    ∃ treeOff treeLen payOff payLen : Word,
      exec .cpar s = .next ((s.setParse treeOff treeLen payOff payLen).finish none 0x09) ∧
      treeOff.toNat = s.srcOff.toNat + 4 ∧ treeLen.toNat = windowN s ∧ payOff.toNat = treeOff.toNat + treeLen.toNat ∧
      payOff.toNat + payLen.toNat = s.srcOff.toNat + s.srcLen.toNat ∧
      split s.window =
        .ok (s.ibufRange treeOff.toNat treeLen.toNat, s.ibufRange payOff.toNat payLen.toNat) := by
  have hsum : s.srcOff.toNat + s.srcLen.toNat < 2 ^ 32 := Nat.lt_of_le_of_lt hw s.ibufSize.isLt
  obtain ⟨t, hbody, hparse, htree, hlen, hpay, hend, hsplit⟩ := cparBody_done s s.srcOff s.srcLen h hsum
  rw [hparse] at hbody
  exact ⟨_, _, _, _, exec_done .cpar (fun _ => hw) (by decide) hbody, htree, hlen ▸ ibufWord_srcOff s, hpay, hend, hsplit⟩

/-- Settles O36: CPAR's body decides by the two tests of `Split` and writes the four parse registers alone. -/
theorem cparSplits : Obligations.CparSplits := by
  unfold Obligations.CparSplits
  intro s hw
  constructor
  · intro hfails
    exact ⟨_, exec_cpar_fails s hw ((cparFails_iff s).2 hfails), finish_ended s _ _ _ rfl, rfl, rfl, rfl, rfl,
      same_of_setParse s _ _ _ _ _ _⟩
  · intro h4 hN
    have hpasses : ¬ cparFails s s.srcOff s.srcLen := by rw [cparFails_iff]; omega
    obtain ⟨treeOff, treeLen, payOff, payLen, hexec, htree, hlen, hpay, hend, hsplit⟩ := exec_cpar_done s hw hpasses
    have hpayOff : payOff.toNat = s.srcOff.toNat + 4 + windowN s := by rw [hpay, htree, hlen]
    have hpayLen : payLen.toNat = s.srcLen.toNat - 4 - windowN s := by omega
    exact ⟨_, hexec, finish_ended s _ none _ rfl, htree, hlen, hpayOff, hpayLen, hsplit, same_of_setParse s _ _ _ _ none _⟩

end Sys2Proof.Machine
end

section
/-! Illegal command words and the control commands NOP and OCLR (49_control.md R222 to R224): obligations O3, O14 and O15. -/

namespace Sys2Proof.Machine

open Sys2Proof.Safety

/-- The decoder rejects every word with a bit of RSV set or an opcode that is not assigned. -/
theorem decode_illegal {w : Word} (h : w.extractLsb' 8 24 ≠ 0 ∨ 0x0F ≤ (w.extractLsb' 0 8).toNat) :
    ∃ r, decode w = .error r := by
  by_cases hrsv : w.extractLsb' 8 24 = 0
  · exact ⟨_, decode_of_unassigned hrsv (h.resolve_left fun hne => hne hrsv)⟩
  · exact ⟨_, decode_of_reserved hrsv⟩

/-- A write to CMD of a word that does not decode changes STATUS alone (49_control.md R222). -/
theorem transact_illegal (s : State) (w : Word) {r : DecodeReject} (h : decode w = .error r) :
    transact (.writeReg 0 w) s =
      .next ((s.setReply .nothing).finish (some (.illegalCommand, .ctrl)) (w.extractLsb' 0 8)) := by
  rw [transact, if_pos rfl, executeWord, h]

/-- STATUS after an error: FAULTED is set, whatever it was. -/
theorem Status.finish_error (st : Status) (e : ErrKind × BlockUnit) (op : Byte) :
    st.finish (some e) op = { error := some e, done := true, lastop := op, faulted := true } := by
  simp [Status.finish]

/-- STATUS after a success: FAULTED is as it was. -/
theorem Status.finish_success (st : Status) (op : Byte) :
    st.finish none op = { error := none, done := true, lastop := op, faulted := st.faulted } := by
  simp [Status.finish]

/-- Settles O3: the word does not decode, and `Finish` writes IllegalCommand of CTRL. -/
theorem illegalWordChangesStatusOnly : Obligations.IllegalWordChangesStatusOnly := by
  unfold Obligations.IllegalWordChangesStatusOnly
  intro s w hw
  obtain ⟨r, hr⟩ := decode_illegal hw
  obtain ⟨herr, hunit, -, -, hlastop, -⟩ :=
    (s.status.finish (some (.illegalCommand, .ctrl)) (w.extractLsb' 0 8)).word_fields
  refine ⟨_, transact_illegal s w hr, ?_, herr, hunit, hlastop⟩
  rw [State.finish, Status.finish_error]
  rfl

theorem exec_nop (s : State) : exec .nop s = .next (s.finish none 0x00) :=
  exec_done .nop (fun h => absurd h (by decide)) (by decide) rfl

theorem exec_oclr (s : State) : exec .oclr s = .next ((s.setOlen 0).finish none 0x0D) :=
  exec_done .oclr (fun h => absurd h (by decide)) (by decide) rfl

/-- Settles O14: NOP is `Finish` alone. -/
theorem nopStatusOnly : Obligations.NopStatusOnly := by
  unfold Obligations.NopStatusOnly
  refine ⟨decode_encode .nop, fun s => ?_, fun t ht => ?_⟩
  · rw [exec_nop, State.finish, Status.finish_success]
    rfl
  · rw [exec_nop] at ht
    cases ht
    rfl

/-- Settles O15: OCLR's body writes OLEN alone. -/
theorem oclrClearsOutput : Obligations.OclrClearsOutput := by
  unfold Obligations.OclrClearsOutput
  refine ⟨decode_encode .oclr, fun s => ?_⟩
  rw [exec_oclr, State.finish, Status.finish_success]
  rfl

end Sys2Proof.Machine
end

section
/-! What no body changes: STATUS and the table port; and what `Finish` leaves in STATUS, obligation O6 (49_control.md R220). -/

namespace Sys2Proof.Machine

open Sys2Proof.Safety

/-- A state whose STATUS and table port are those of `s` is left as it is when they are set to those of `s`. -/
theorem State.mapUnread_self (s : State) :
    s.mapUnread (fun _ => s.status) (fun _ => s.tblSel) (fun _ => s.tblIdx) = s := rfl

theorem BodyResult.All.of_map {f : State → State} {P : State → Prop} (hf : ∀ t, P (f t)) :
    ∀ r : BodyResult, (r.map f).All P
  | .done t => hf t
  | .raised _ _ t => hf t
  | .stuck _ => trivial

/-- No body changes STATUS or the table port: it does not see that they are set to what they hold. -/
theorem commandBody_keepsUnread (i : Instr) (s : State) :
    (commandBody i s).All fun t => t.status = s.status ∧ t.tblSel = s.tblSel ∧ t.tblIdx = s.tblIdx := by
  have hbody := commandBody_unseen (fun _ => s.status) (fun _ => s.tblSel) (fun _ => s.tblIdx) i s
  rw [State.mapUnread_self] at hbody
  rw [hbody]
  exact BodyResult.All.of_map (fun t => ⟨rfl, rfl, rfl⟩) _

theorem commandBody_status {i : Instr} {s u : State} (h : commandBody i s = .done u) : u.status = s.status := by
  have hkeeps := commandBody_keepsUnread i s
  rw [h] at hkeeps
  exact hkeeps.1

/-- STATUS after every command but RST is what `Finish` makes of the old one, with some error or none. -/
theorem exec_status {i : Instr} {s t : State} (hi : i ≠ .rst) (he : exec i s = .next t) :
    ∃ e, t.status = s.status.finish e (opcode i) := by
  have hkeeps := commandBody_keepsUnread i s
  rcases exec_next_cases i s t hi he with ⟨-, -, rfl⟩ | ⟨u, hb, rfl⟩ | ⟨e, b, u, hb, rfl⟩
  · exact ⟨_, rfl⟩
  all_goals rw [hb] at hkeeps; obtain ⟨hstatus, -⟩ := hkeeps
  · exact ⟨none, by rw [State.finish_status, hstatus]⟩
  · exact ⟨some (e, b), by rw [takeError_status, hstatus, commandForm_op]⟩

/-- Settles O6: STATUS is what `Finish` wrote. -/
theorem statusAfterCommand : Obligations.StatusAfterCommand := by
  unfold Obligations.StatusAfterCommand
  intro s i t hi he
  obtain ⟨e, hstatus⟩ := exec_status hi he
  rw [hstatus]
  exact ⟨rfl, rfl, rfl⟩

end Sys2Proof.Machine
end

section
/-! RST and the hardware reset (49_control.md R225, 70_reset_and_hazards.md R260): obligations O16 and O57. -/

namespace Sys2Proof.Machine

open Sys2Proof.Safety

/-- Every entry of the five tables is 0 (70_reset_and_hazards.md R260). -/
theorem resetWith_tables (a b : Word) :
    (∀ sym, symGet (State.resetWith a b).freq sym = 0) ∧ (∀ i : Fin 256, (State.resetWith a b).seq[i] = 0) ∧
      (∀ i, i < 511 → nodeGet (State.resetWith a b).node i = Node.zero) ∧
      (∀ sym, symGet (State.resetWith a b).clen sym = 0) ∧ ∀ sym, symGet (State.resetWith a b).cbits sym = 0 := by
  refine ⟨symGet_replicate _, fun i => ?_, fun i hi => ?_, symGet_replicate _, symGet_replicate _⟩
  · simp [State.resetWith]
  · rw [nodeGet_of_lt _ i hi]
    simp [State.resetWith]

theorem Status.zero_word : Status.zero.word = 0 := by decide

theorem transact_hostReset (s : State) : transact .hostReset s = .next s.hardReset := rfl

/-- TBL_DATA reads entry 0 of FREQ, which is 0. -/
theorem hardReset_tblData (s : State) : s.hardReset.regRead 19 = 0 := by
  obtain ⟨hfreq, -⟩ := resetWith_tables s.ibufSize s.obufSize
  exact hfreq 0

/-- RST alone clears FAULTED, which is sticky in every other command (10_state.md R26). -/
theorem eq_rst_of_clears_faulted {i : Instr} {s t : State} (he : exec i s = .next t) (hs : s.status.faulted = true)
    (ht : t.status.faulted = false) : i = .rst := by
  by_contra hi
  obtain ⟨e, hstatus⟩ := exec_status hi he
  rw [hstatus, Status.finish, hs] at ht
  cases ht

/-- Settles O16: RST answers the reset state with the buffers kept, and a hardware reset differs in the buffers and the reply. -/
theorem rstResets : Obligations.RstResets := by
  unfold Obligations.RstResets
  refine ⟨decode_encode .rst, fun s => ?_, fun s t i => eq_rst_of_clears_faulted,
    fun s => ⟨_, transact_hostReset s, exec_rst s⟩⟩
  obtain ⟨hfreq, hseq, hnode, hclen, hcbits⟩ := resetWith_tables s.ibufSize s.obufSize
  exact ⟨_, exec_rst s, Status.zero_word, rfl, rfl, rfl, rfl, rfl, rfl, rfl, rfl, rfl, rfl, rfl, rfl, rfl, rfl, rfl, rfl, hfreq, hseq, hnode,
    hclen, hcbits, rfl, rfl, fun _ => rfl, fun _ => rfl⟩

/-- Settles O57: the hardware reset answers the reset state with both buffers empty, in their next draw. -/
theorem hostResetResets : Obligations.HostResetResets := by
  unfold Obligations.HostResetResets
  intro s
  obtain ⟨hfreq, hseq, hnode, hclen, hcbits⟩ := resetWith_tables s.ibufSize s.obufSize
  exact ⟨_, transact_hostReset s, rfl, Status.zero_word, hardReset_tblData s, rfl, rfl, rfl, rfl, rfl, rfl, rfl, rfl, rfl, rfl, rfl, rfl, rfl,
    rfl, rfl, rfl, hfreq, hseq, hnode, hclen, hcbits, rfl, rfl, fun _ => rfl, fun _ => rfl, rfl, rfl, rfl⟩

end Sys2Proof.Machine
end

section
/-! WALK: which bit-strings a tree decodes, that the walk undoes the coding, and the command, obligations O38 to O41
(47_decode_walk.md R190 to R194). -/

namespace Sys2Proof.Machine

open Sys2Proof.Safety

/-! ### The walk of a tree -/

/-- The result of a walk that first emits `s` and then goes on as `r` says. -/
def WalkResult.emit (s : Byte) (r : WalkResult) : WalkResult := (s :: r.1, r.2)

theorem walkLeaf_eq (s : Byte) (bits : List Bool) : walkLeaf s bits =
    (List.replicate (bits.idxOf true) s, if true ∈ bits then some .malformedPayload else none) := by
  induction bits with
  | nil => rfl
  | cons b bits ih =>
    cases b
    · simp [walkLeaf, ih, List.replicate_succ]
    · simp [walkLeaf]

/-- A walk that stands at a node, not at a leaf, with bits to read goes to a child: a leaf emits its symbol and the walk is
back at the root, below a node it goes on. -/
theorem walkNode_cons (t : HTree) (f : Word) (l r : HTree) (atRoot b : Bool) (bits : List Bool) :
    walkNode t (.node f l r) atRoot (b :: bits) =
      match if b then r else l with
      | .leaf s _ => WalkResult.emit s (walkNode t t true bits)
      | .node f' l' r' => walkNode t (.node f' l' r') false bits := by
  cases b <;> rfl

/-- A path of a node starts with the bit of the child that it goes through. -/
theorem mem_paths_node {f : Word} {l r : HTree} {s : Byte} {c : List Bool} :
    (s, c) ∈ paths (.node f l r) [] ↔ ∃ b c', c = b :: c' ∧ (s, c') ∈ paths (if b then r else l) [] := by
  simp [paths_node, Bool.exists_bool, and_comm, eq_comm (a := c)]

theorem mem_paths_leaf {x s : Byte} {f : Word} {c : List Bool} : (s, c) ∈ paths (.leaf x f) [] ↔ s = x ∧ c = [] := by
  simp [paths]

/-- Walking along a path below a node emits the symbol at its end and is back at the root. -/
theorem walkNode_path (t : HTree) {s : Byte} (rest : List Bool) : ∀ (c : List Bool) (f : Word) (l r : HTree) (atRoot : Bool),
    (s, c) ∈ paths (.node f l r) [] →
    walkNode t (.node f l r) atRoot (c ++ rest) = WalkResult.emit s (walkNode t t true rest) := by
  intro c
  induction c with
  | nil => intro f l r _ h; obtain ⟨b, c', hc, -⟩ := mem_paths_node.1 h; cases hc
  | cons b c ih =>
    intro f l r atRoot h
    obtain ⟨_, _, hc, hpath⟩ := mem_paths_node.1 h
    cases hc
    rw [List.cons_append, walkNode_cons]
    cases hchild : (if b then r else l) with
    | leaf x fx =>
      rw [hchild] at hpath
      obtain ⟨rfl, rfl⟩ := mem_paths_leaf.1 hpath
      rfl
    | node f' l' r' => exact ih f' l' r' false (hchild ▸ hpath)

/-- A walk from a node that succeeds stands at the root with nothing to read, or reads a whole path and goes on from the root. -/
theorem walkNode_ok (t : HTree) {out : List Byte} : ∀ (bits : List Bool) (f : Word) (l r : HTree) (atRoot : Bool),
    walkNode t (.node f l r) atRoot bits = (out, none) →
    (bits = [] ∧ out = []) ∨ ∃ s c rest out', (s, c) ∈ paths (.node f l r) [] ∧ bits = c ++ rest ∧ c ≠ [] ∧
      out = s :: out' ∧ walkNode t t true rest = (out', none) := by
  intro bits
  induction bits with
  | nil => intro f l r atRoot h; exact .inl ⟨rfl, (Prod.mk.inj h).1.symm⟩
  | cons b bits ih =>
    intro f l r atRoot h
    right
    rw [walkNode_cons] at h
    cases hchild : (if b then r else l) with
    | leaf x fx =>
      rw [hchild] at h
      obtain ⟨hout, hend⟩ := Prod.mk.inj h
      exact ⟨x, [b], bits, _, mem_paths_node.2 ⟨b, [], rfl, hchild ▸ mem_paths_leaf.2 ⟨rfl, rfl⟩⟩, rfl, List.cons_ne_nil _ _,
        hout.symm, Prod.ext rfl hend⟩
    | node f' l' r' =>
      rw [hchild] at h
      rcases ih f' l' r' false h with ⟨rfl, -⟩ | ⟨s, c, rest, out', hpath, rfl, -, hout, hrest⟩
      · cases h
      · exact ⟨s, b :: c, rest, out', mem_paths_node.2 ⟨b, c, rfl, hchild ▸ hpath⟩, rfl, List.cons_ne_nil _ _, hout, hrest⟩

/-- A walk from a node fails only by ending before a leaf (47_decode_walk.md R191 (b)). -/
theorem walkNode_error (t : HTree) : ∀ (bits : List Bool) (cur : HTree) (atRoot : Bool),
    (walkNode t cur atRoot bits).2 = none ∨ (walkNode t cur atRoot bits).2 = some .decodeUnderflow := by
  intro bits
  induction bits with
  | nil => intro cur atRoot; cases cur <;> cases atRoot <;> simp [walkNode]
  | cons b bits ih =>
    intro cur atRoot
    cases cur with
    | leaf s f => exact .inr rfl
    | node f l r =>
      rw [walkNode_cons]
      cases (if b then r else l) with
      | leaf x fx => exact ih t true
      | node f' l' r' => exact ih (.node f' l' r') false

/-- Walking along the code of a leaf emits its symbol, and the walk goes on from the root. -/
theorem walk_code {t : HTree} {s : Byte} {c : List Bool} (h : (s, c) ∈ codes (some t)) (rest : List Bool) :
    walk (some t) (c ++ rest) = WalkResult.emit s (walk (some t) rest) := by
  cases t with
  | leaf x f =>
    obtain ⟨rfl, rfl⟩ := Prod.mk.inj (List.mem_singleton.1 h)
    rfl
  | node f l r => exact walkNode_path _ rest c f l r true h

theorem walk_codes {t : HTree} : ∀ ps : List (Byte × List Bool), (∀ p ∈ ps, p ∈ codes (some t)) →
    walk (some t) (ps.flatMap Prod.snd) = (ps.map Prod.fst, none)
  | [], _ => by cases t <;> rfl
  | p :: ps, h => by
    obtain ⟨hp, hps⟩ := List.forall_mem_cons.1 h
    rw [List.flatMap_cons, walk_code hp, walk_codes ps hps]
    rfl

/-- A walk of a tree with an internal root succeeds only on a concatenation of codes; each step of the induction reads one. -/
theorem codes_of_walk {f : Word} {l r : HTree} (n : Nat) : ∀ (bits : List Bool) (out : List Byte), bits.length ≤ n →
    walk (some (.node f l r)) bits = (out, none) →
    ∃ ps : List (Byte × List Bool), (∀ p ∈ ps, p ∈ codes (some (.node f l r))) ∧ bits = ps.flatMap Prod.snd ∧
      out = ps.map Prod.fst := by
  induction n with
  | zero =>
    intro bits out hlen h
    obtain rfl := List.eq_nil_of_length_eq_zero (Nat.le_zero.1 hlen)
    cases h
    exact ⟨[], nofun, rfl, rfl⟩
  | succ n ih =>
    intro bits out hlen h
    rcases walkNode_ok _ bits f l r true h with ⟨rfl, rfl⟩ | ⟨s, c, rest, out', hpath, rfl, hne, rfl, hrest⟩
    · exact ⟨[], nofun, rfl, rfl⟩
    · have hpos := List.length_pos_iff.2 hne
      rw [List.length_append] at hlen
      obtain ⟨ps, hps, rfl, rfl⟩ := ih rest out' (by omega) hrest
      exact ⟨(s, c) :: ps, List.forall_mem_cons.2 ⟨hpath, hps⟩, rfl, rfl⟩

/-- Settles O40: a leaf reads zeros; a larger tree reads one code after another, and stops short only inside a code. -/
theorem walkDecodes : Obligations.WalkDecodes := by
  unfold Obligations.WalkDecodes
  refine ⟨fun _ => rfl, fun s _ bits => walkLeaf_eq s bits, fun f l r bits out => ⟨codes_of_walk _ bits out le_rfl, ?_⟩,
    fun f l r bits => walkNode_error _ bits _ true⟩
  rintro ⟨ps, hps, rfl, rfl⟩
  exact walk_codes ps hps

/-- The code that the table gives a symbol of the list is one of the list's codes for it. -/
theorem codeMap_mem {cs : List (Byte × List Bool)} {b : Byte} (h : b ∈ cs.map Prod.fst) : (b, codeMap cs b) ∈ cs := by
  cases hlook : cs.reverse.lookup b with
  | none => exact absurd (by simpa using h) ((lookup_none _ _).1 hlook)
  | some c =>
    rw [codeMap, hlook]
    exact List.mem_reverse.1 (mem_of_lookup _ _ _ hlook)

/-- Walking the codes of the bytes gives the bytes (47_decode_walk.md R193 item 1), also when a symbol has several leaves. -/
theorem walk_stream {ot : Option HTree} {B : List Byte} (h : ∀ b ∈ B, b ∈ (codes ot).map Prod.fst) :
    walk ot (stream B (codeMap (codes ot))) = (B, none) := by
  cases ot with
  | none =>
    obtain rfl : B = [] := List.eq_nil_iff_forall_not_mem.2 fun b hb => List.not_mem_nil (h b hb)
    rfl
  | some t =>
    have hcodes : ∀ p ∈ B.map fun b => (b, codeMap (codes (some t)) b), p ∈ codes (some t) := by
      intro p hp
      obtain ⟨b, hb, rfl⟩ := List.mem_map.1 hp
      exact codeMap_mem (h b hb)
    have hwalk := walk_codes _ hcodes
    rw [List.flatMap_map, List.map_map] at hwalk
    exact hwalk.trans (by simp [Function.comp_def])

/-- Settles O41: every byte has a code among those of the tree, and walking along it emits the byte. -/
theorem walkStream : Obligations.WalkStream := by
  unfold Obligations.WalkStream
  intro t B _ hB
  exact walk_stream fun b hb => by rw [codes_syms]; exact hB b hb

/-! ### The command (47_decode_walk.md R192, R194) -/

/-- Settles O38: WALK's body is one append of the symbols, which fit. -/
theorem walkAppends : Obligations.WalkAppends := by
  unfold Obligations.WalkAppends
  intro s ot out hview htree hwalk hfit
  exact ⟨_, exec_done .walk (fun h => absurd h (by decide)) (by decide) (walkBody_done s ot out hview htree hwalk hfit),
    finish_ended s _ none _ rfl, afterAppend_appended s out hfit, afterAppend_same s out⟩

/-- An error raised after appends that fit: nothing of them is output (60_exceptions.md R238). -/
theorem exec_walk_raised {s : State} {e : ErrKind} {u : BlockUnit} {bs : List Byte}
    (hb : commandBody .walk s = .raised e u (afterAppend s bs)) :
    ∃ t, exec .walk s = .next t ∧ Ended s t 0x0A (some (e, u)) ∧ NoOutput s t s.olen ∧ SameAllButOutput s t := by
  refine ⟨takeError (commandForm .walk) s.olen e u (afterAppend s bs), ?_,
    takeError_ended (commandForm .walk) s.olen e u (afterAppend s bs), ⟨rfl, fun a ha => ?_⟩,
    takeError_same (commandForm .walk) s.olen e u (afterAppend s bs)⟩
  · rw [exec_eq_runCommand .walk s (by decide)]
    exact runCommand_raised _ _ _ _ _ _ (fun h => absurd h (by decide)) hb
  · rw [takeError_obufByte (commandForm .walk) s.olen e u _ a fun _ => ha, afterAppend_obufByte, dif_neg (by omega)]

/-- Settles O39: the symbols before the end of the walk are appended first, and what was appended is no output. -/
theorem walkErrors : Obligations.WalkErrors := by
  unfold Obligations.WalkErrors
  intro s ot out e hview houtput htree hwalk
  constructor
  · intro hfull
    obtain ⟨cs, -, hbody⟩ := walkBody_full s ot out e hview houtput htree hwalk hfull
    exact exec_walk_raised hbody
  · rintro k rfl hfit
    exact exec_walk_raised (walkBody_fails s ot out k hview htree hwalk hfit)

end Sys2Proof.Machine
end

section
/-! What no body sees: the table port, and outside the window-reading commands the window, obligation O11
(70_reset_and_hazards.md R275). -/

namespace Sys2Proof.Machine

open Sys2Proof.Safety

/-- A change of the state that `Finish` and taking an error do not see, and that leaves OLEN. -/
structure UnseenByWrapper (f : State → State) : Prop where
  finish : ∀ s e op, (f s).finish e op = f (s.finish e op)
  takeError : ∀ c o e u s, takeError c o e u (f s) = f (takeError c o e u s)
  olen : ∀ s, (f s).olen = s.olen

/-- A command does not see a change that its body and the wrapper do not see, when the window check is the same. -/
theorem exec_unseen {f : State → State} {i : Instr} (hf : UnseenByWrapper f) (hi : i ≠ .rst)
    (hwin : i ∈ windowCommands → ∀ s, (f s).windowOk = s.windowOk) (hbody : Unseen f (commandBody i)) (s : State) :
    exec i (f s) = mapNext f (exec i s) := by
  have hcheck : ((commandForm i).window && !(f s).windowOk) = ((commandForm i).window && !s.windowOk) := by
    cases hc : (commandForm i).window with
    | false => rfl
    | true => rw [hwin ((commandForm_window i).1 hc)]
  rw [exec_eq_runCommand i _ hi, exec_eq_runCommand i s hi, runCommand, runCommand, hcheck, hbody s]
  split
  · rw [hf.finish]; rfl
  · cases commandBody i s with
    | done t => exact congrArg Host.Outcome.next (hf.finish t _ _)
    | raised e u t => rw [hf.olen]; exact congrArg Host.Outcome.next (hf.takeError _ _ _ _ t)
    | stuck x => rfl

theorem setPort_unseenByWrapper (sel : BitVec 3) (idx : BitVec 11) : UnseenByWrapper fun s => s.setPort sel idx where
  finish _ _ _ := rfl
  takeError c o e u s := by simp only [takeError]; split <;> rfl
  olen _ := rfl

/-- No command but RST sees the table port. -/
theorem exec_setPort (s : State) {i : Instr} (hi : i ≠ .rst) (sel : BitVec 3) (idx : BitVec 11) :
    exec i (s.setPort sel idx) = mapNext (fun t => t.setPort sel idx) (exec i s) :=
  exec_unseen (setPort_unseenByWrapper sel idx) hi (fun _ _ => rfl) (commandBody_unseen id (fun _ => sel) (fun _ => idx) i) s

theorem takeError_port (c : CommandForm) (o : Word) (e : ErrKind) (u : BlockUnit) (s : State) :
    (takeError c o e u s).tblSel = s.tblSel ∧ (takeError c o e u s).tblIdx = s.tblIdx := by
  obtain ⟨-, -, -, -, -, -, -, -, hsel, hidx, -⟩ := takeError_same c o e u s
  exact ⟨hsel, hidx⟩

/-- No command but RST changes the table port. -/
theorem exec_keepsPort {i : Instr} {s t : State} (hi : i ≠ .rst) (he : exec i s = .next t) :
    t.tblSel = s.tblSel ∧ t.tblIdx = s.tblIdx := by
  have hkeeps := commandBody_keepsUnread i s
  rcases exec_next_cases i s t hi he with ⟨-, -, rfl⟩ | ⟨u, hb, rfl⟩ | ⟨e, b, u, hb, rfl⟩
  · exact ⟨rfl, rfl⟩
  all_goals rw [hb] at hkeeps; obtain ⟨-, hsel, hidx⟩ := hkeeps
  · exact ⟨hsel, hidx⟩
  · obtain ⟨hsel', hidx'⟩ := takeError_port (commandForm i) s.olen e b u
    exact ⟨hsel'.trans hsel, hidx'.trans hidx⟩

/-- Settles O11: no body sees the port or changes it, RST clears it, and a register read writes the reply alone. -/
theorem tablePortPassive : Obligations.TablePortPassive := by
  unfold Obligations.TablePortPassive
  exact ⟨fun s i sel idx hi => exec_setPort s hi sel idx, fun _ _ _ => rfl, fun s t i hi he => exec_keepsPort hi he,
    fun _ _ => rfl⟩

end Sys2Proof.Machine
end

section
/-! Which error each body can raise, and that a body ends in every state that meets the invariants: obligations O8, O9 and O5
(49_control.md R221, R226; 60_exceptions.md R230, R252). -/

namespace Sys2Proof.Machine

open Sys2Proof.Safety

/-- The body raises only errors that `E` allows. -/
def BodyResult.Raises (E : ErrKind × BlockUnit → Prop) : BodyResult → Prop
  | .raised e u _ => E (e, u)
  | _ => True

theorem BodyResult.Raises.andThen {E : ErrKind × BlockUnit → Prop} {f : State → BodyResult} (hf : ∀ s, (f s).Raises E) :
    ∀ {r : BodyResult}, r.Raises E → (r.andThen f).Raises E
  | .done s, _ => hf s
  | .raised _ _ _, h => h
  | .stuck _, _ => trivial

/-- The errors of 60_exceptions.md R230 that the body of a command can raise: the wrapper raises BadWindow before the body. -/
abbrev BodyError (i : Instr) (p : ErrKind × BlockUnit) : Prop := p ∈ allowedErrors i ∧ p.1 ≠ .badWindow

theorem appendBytes_raises {E : ErrKind × BlockUnit → Prop} {u : BlockUnit} (h : E (.capacityExceeded, u)) (bs : List Byte)
    (s : State) : (appendBytes u bs s).Raises E := by
  rcases appendBytes_cases u bs s with ⟨-, he⟩ | ⟨-, he⟩ <;> rw [he]
  · trivial
  · exact h

theorem appendEach_raises {E : ErrKind × BlockUnit → Prop} {u : BlockUnit} (h : E (.capacityExceeded, u)) :
    ∀ (bs : List Byte) (s : State), (appendEach u bs s).Raises E
  | [], _ => trivial
  | _ :: bs, s => (appendBytes_raises h _ s).andThen (appendEach_raises h bs)

theorem withTree_raises {E : ErrKind × BlockUnit → Prop} {s : State} {f : Option HTree → BodyResult}
    (hf : ∀ ot, (f ot).Raises E) : (withTree s f).Raises E := by
  rw [withTree]
  split
  · exact hf none
  · exact hf _
  · trivial

/-- The three errors that end a walk (47_decode_walk.md R191). -/
theorem walk_error {ot : Option HTree} {bits : List Bool} {e : ErrKind} (h : (walk ot bits).2 = some e) :
    e = .malformedTree ∨ e = .malformedPayload ∨ e = .decodeUnderflow := by
  obtain ⟨habsent, hleaf, -, hnode⟩ := walkDecodes
  cases ot with
  | none => rw [habsent] at h; simp at h; exact .inl h.2.symm
  | some t =>
    cases t with
    | leaf s f => rw [hleaf] at h; simp at h; exact .inr (.inl h.2.symm)
    | node f l r =>
      rcases hnode f l r bits with hn | hn <;> rw [hn] at h <;> cases h
      exact .inr (.inr rfl)

/-- CPAR's only error is that of `Split` (46_container_format.md R182). -/
theorem split_error {c : List Byte} {e : ErrKind} (h : split c = .error e) : e = .truncatedContainer := by
  unfold split at h
  split at h
  · simp only at h
    split at h <;> cases h
    rfl
  · cases h
    rfl

/-- BUNP's only error is that of `Unpack` (44_bit_unpacker.md R151). -/
theorem unpack_error {p : List Byte} {e : ErrKind} (h : unpack p = .error e) : e = .malformedPayload := by
  unfold unpack at h
  split at h
  · cases h
    rfl
  · split at h
    · cases h
      rfl
    · split at h <;> cases h
      rfl

section

variable {E : ErrKind × BlockUnit → Prop} (off len : Word) (s : State)

theorem cparBody_raises (h : E (.truncatedContainer, .cfmt)) : (cparBody off len s).Raises E := by
  rw [cparBody]
  split
  · next he => rw [split_error he]; exact h
  · trivial

theorem tdesBody_raises (hm : E (.malformedTree, .tdes)) (hc : E (.capacityExceeded, .tdes)) :
    (tdesBody off len s).Raises E := by
  rw [tdesBody]
  split
  · trivial
  · next he => rcases des_error _ _ he with ⟨rfl, -⟩ | ⟨rfl, -⟩ <;> assumption

theorem bunpBody_raises (h : E (.malformedPayload, .bunp)) : (bunpBody off len s).Raises E := by
  rw [bunpBody]
  split
  · next he => rw [unpack_error he]; exact h
  · trivial

theorem walkBody_raises (ht : E (.malformedTree, .walk)) (hp : E (.malformedPayload, .walk)) (hu : E (.decodeUnderflow, .walk))
    (hc : E (.capacityExceeded, .walk)) : (walkBody s).Raises E := by
  rw [walkBody]
  split
  · refine withTree_raises fun ot => (appendEach_raises hc _ s).andThen fun t => ?_
    split
    · trivial
    · next he => rcases walk_error he with rfl | rfl | rfl <;> assumption
  · trivial

end

theorem tbldBody_raises {E : ErrKind × BlockUnit → Prop} (s : State) : (tbldBody s).Raises E := by
  rw [tbldBody]
  split
  · trivial
  · split <;> trivial

theorem cgenBody_raises {E : ErrKind × BlockUnit → Prop} (s : State) : (cgenBody s).Raises E := by
  rw [cgenBody]
  exact withTree_raises fun _ => trivial

theorem bpckBody_raises (s : State) : (bpckBody s).Raises (BodyError .bpck) := by
  rw [bpckBody]
  split
  · exact (by decide : BodyError .bpck (.missingCode, .bpck))
  · exact appendBytes_raises (by decide) _ s

/-- ENC raises no MissingCode: its own tables code every byte of the window (48_end_to_end.md R202). -/
theorem encBody_raises (s : State) : (encBody s).Raises (BodyError .enc) := by
  obtain ⟨t, htables, hset, ⟨-, -, -, htree, hcode⟩, hcoded, -⟩ := encTables s
  have hwin : t.window = s.window := by rw [hset]; rfl
  rw [encBody_appends s t htables htree hwin hcoded hcode]
  exact ((appendBytes_raises (by decide) _ t).andThen fun u => appendBytes_raises (by decide) _ u).andThen fun u =>
    appendBytes_raises (by decide) _ u

theorem decBody_raises (s : State) : (decBody s).Raises (BodyError .dec) :=
  BodyResult.Raises.andThen (r := oclrBody s) (fun _ => (cparBody_raises _ _ _ (by decide)).andThen fun _ =>
    (tdesBody_raises _ _ _ (by decide) (by decide)).andThen fun _ => (bunpBody_raises _ _ _ (by decide)).andThen fun t =>
      walkBody_raises t (by decide) (by decide) (by decide) (by decide)) trivial

/-- A body raises only errors that the spec lists for its command, BadWindow not among them. -/
theorem commandBody_raises (i : Instr) (s : State) : (commandBody i s).Raises (BodyError i) := by
  cases i
  case nop | fcnt | oclr | rst => trivial
  case tbld => exact tbldBody_raises s
  case cgen => exact cgenBody_raises s
  case bpck => exact bpckBody_raises s
  case bunp => exact bunpBody_raises _ _ s (by decide)
  case tser => exact withTree_raises fun _ => appendBytes_raises (by decide) _ s
  case tdes => exact tdesBody_raises _ _ s (by decide) (by decide)
  case chdr => exact appendBytes_raises (by decide) _ s
  case cpar => exact cparBody_raises _ _ s (by decide)
  case walk => exact walkBody_raises s (by decide) (by decide) (by decide) (by decide)
  case enc => exact encBody_raises s
  case dec => exact decBody_raises s

/-- The error of a command that answers a next state: BadWindow of CTRL for a window that does not fit, else its body's. -/
theorem exec_error {i : Instr} {s t : State} {p : ErrKind × BlockUnit} (he : exec i s = .next t)
    (hp : t.status.error = some p) :
    (i ∈ windowCommands ∧ ¬ WindowFits s ∧ p = (.badWindow, .ctrl)) ∨ BodyError i p := by
  by_cases hi : i = .rst
  · subst hi; cases he; cases hp
  have hraises := commandBody_raises i s
  rcases exec_next_cases i s t hi he with ⟨hmem, hw, rfl⟩ | ⟨u, hb, rfl⟩ | ⟨e, b, u, hb, rfl⟩
  · cases hp
    exact .inl ⟨hmem, fun hfits => Bool.noConfusion (hw.symm.trans ((windowOk_iff s).2 hfits)), rfl⟩
  · cases hp
  · rw [takeError_status] at hp
    cases hp
    rw [hb] at hraises
    exact .inr hraises

theorem badWindow_allowed {i : Instr} (h : i ∈ windowCommands) : (ErrKind.badWindow, BlockUnit.ctrl) ∈ allowedErrors i := by
  cases i <;> first | decide | exact absurd h (by decide)

/-- Settles O8: the wrapper's error is listed for the window-reading commands, and the body's errors are listed. -/
theorem errorTable : Obligations.ErrorTable := by
  unfold Obligations.ErrorTable
  intro s i t e he herr
  rcases exec_error he herr with ⟨hmem, -, rfl⟩ | ⟨hlisted, -⟩
  · exact badWindow_allowed hmem
  · exact hlisted

end Sys2Proof.Machine
end

section
/-! The window check, and that outside the window-reading commands nothing sees the window: obligation O5 (49_control.md R221). -/

namespace Sys2Proof.Machine

open Sys2Proof.Safety

section

variable (off len : Word)

theorem appendBytes_unseenWindow (u : BlockUnit) (bs : List Byte) :
    Unseen (fun s => s.setWindow off len) (appendBytes u bs) := by
  intro s
  rcases appendBytes_cases u bs s with ⟨hfit, he⟩ | ⟨hfull, he⟩ <;> rw [he]
  · exact appendBytes_of_fits u bs _ hfit
  · exact appendBytes_of_full u bs _ hfull

theorem appendEach_unseenWindow (u : BlockUnit) : ∀ bs, Unseen (fun s => s.setWindow off len) (appendEach u bs)
  | [] => fun _ => rfl
  | b :: bs => (appendBytes_unseenWindow off len u [b]).andThen (appendEach_unseenWindow u bs)

/-- A body on CurrentTree, which is the same whatever the window. -/
theorem withTree_unseenWindow {body : Option HTree → State → BodyResult}
    (hb : ∀ ot, Unseen (fun s => s.setWindow off len) (body ot)) :
    Unseen (fun s => s.setWindow off len) fun s => withTree s fun ot => body ot s := by
  intro s
  have htree : (s.setWindow off len).currentTree = s.currentTree := rfl
  simp only [withTree, htree]
  cases s.currentTree with
  | absent => exact hb none s
  | tree t => exact hb (some t) s
  | broken => rfl

/-- WALK reads the bit view, not the window (47_decode_walk.md R192). -/
theorem walkBody_unseenWindow : Unseen (fun s => s.setWindow off len) walkBody := by
  have hend : ∀ e : Option ErrKind, Unseen (fun s => s.setWindow off len) fun s =>
      match e with
      | none => .done s
      | some e => .raised e .walk s := fun e s => by cases e <;> rfl
  intro s
  have hok : (s.setWindow off len).viewOk = s.viewOk := rfl
  have hbits : (s.setWindow off len).viewBits = s.viewBits := rfl
  simp only [walkBody, hok, hbits, apply_ite (BodyResult.map _)]
  congr 1
  exact withTree_unseenWindow off len (fun ot => (appendEach_unseenWindow off len .walk (walk ot s.viewBits).1).andThen
    (hend (walk ot s.viewBits).2)) s

theorem tbldBody_unseenWindow : Unseen (fun s => s.setWindow off len) tbldBody := by
  intro s
  simp only [tbldBody, apply_ite (BodyResult.map _)]
  rfl

theorem cgenBody_unseenWindow : Unseen (fun s => s.setWindow off len) cgenBody :=
  withTree_unseenWindow off len (body := fun ot s => .done (s.setCodes (clenTable (codes ot)) (cbitsTable (codes ot))))
    fun _ _ => rfl

theorem commandBody_unseenWindow {i : Instr} (hi : i ∉ windowCommands) :
    Unseen (fun s => s.setWindow off len) (commandBody i) := by
  cases i
  case nop | oclr | rst => exact fun _ => rfl
  case tbld => exact tbldBody_unseenWindow off len
  case cgen => exact cgenBody_unseenWindow off len
  case tser => exact withTree_unseenWindow off len fun _ => appendBytes_unseenWindow off len _ _
  case chdr => exact fun s => appendBytes_unseenWindow off len _ _ s
  case walk => exact walkBody_unseenWindow off len
  case fcnt | bpck | bunp | tdes | cpar | enc | dec => exact absurd (by decide) hi

theorem setWindow_unseenByWrapper : UnseenByWrapper fun s => s.setWindow off len where
  finish _ _ _ := rfl
  takeError c o e u s := by simp only [takeError]; split <;> rfl
  olen _ := rfl

end

/-- A window that does not fit changes nothing but STATUS (49_control.md R221). -/
theorem exec_badWindow {i : Instr} {s : State} (hi : i ∈ windowCommands)
    (hw : s.ibufSize.toNat < s.srcOff.toNat + s.srcLen.toNat) :
    exec i s = .next (s.finish (some (.badWindow, .ctrl)) (opcode i)) := by
  have hrst : i ≠ .rst := by rintro rfl; exact absurd hi (by decide)
  rw [exec_eq_runCommand i s hrst, runCommand_badWindow _ _ s ((commandForm_window i).2 hi) hw, commandForm_op]

/-- Settles O5: the check comes before the body, no body raises BadWindow, and the other commands do not see the window. -/
theorem windowCheck : Obligations.WindowCheck := by
  unfold Obligations.WindowCheck
  refine ⟨fun s i hi hw => ?_, rfl, rfl, fun s i t u _ hfits he hbad => ?_, fun s hlen => ?_, fun s i off len hi hrst => ?_,
    fun _ _ _ => rfl, fun s i t u hi he hbad => ?_⟩
  · rw [exec_badWindow hi hw, State.finish, Status.finish_error]
    rfl
  · rcases exec_error he hbad with ⟨-, hnot, -⟩ | ⟨-, hne⟩
    · exact hnot hfits
    · exact hne rfl
  · rw [WindowFits, hlen]
    rfl
  · exact exec_unseen (setWindow_unseenByWrapper off len) hrst (fun h => absurd h hi) (commandBody_unseenWindow off len hi) s
  · rcases exec_error he hbad with ⟨hmem, -, -⟩ | ⟨-, hne⟩
    · exact hi hmem
    · exact hne rfl

end Sys2Proof.Machine
end

section
/-! Under the invariants every command ends in a next state: obligation O9 (49_control.md R226, 60_exceptions.md R252). -/

namespace Sys2Proof.Machine

open Sys2Proof.Safety

/-- The body stops as the spec says, completed or at an error. -/
def BodyResult.Ends : BodyResult → Prop
  | .stuck _ => False
  | _ => True

/-- The next step ends in every state that meets `P`, and the step before leaves only such states. -/
theorem BodyResult.Ends.andThen {P : State → Prop} {f : State → BodyResult} :
    ∀ {r : BodyResult}, r.Ends → r.All P → (∀ s, P s → (f s).Ends) → (r.andThen f).Ends
  | .done s, _, hs, hf => hf s hs
  | .raised _ _ _, _, _, _ => trivial

theorem appendBytes_ends (u : BlockUnit) (bs : List Byte) (s : State) : (appendBytes u bs s).Ends := by
  rcases appendBytes_cases u bs s with ⟨-, he⟩ | ⟨-, he⟩ <;> rw [he] <;> trivial

theorem appendEach_ends (u : BlockUnit) : ∀ (bs : List Byte) (s : State), (appendEach u bs s).Ends
  | [], _ => trivial
  | _ :: bs, s => (appendBytes_ends u _ s).andThen (P := fun _ => True) (appendBytes_all u _ trivial fun _ => trivial)
      fun t _ => appendEach_ends u bs t

/-- A body on CurrentTree ends under invariant 3, by which there is one (10_state.md R44). -/
theorem withTree_ends {s : State} {f : Option HTree → BodyResult} (h : ArenaInv s) (hf : ∀ ot, (f ot).Ends) :
    (withTree s f).Ends := by
  obtain ⟨ot, hot⟩ := holdsTree_of_arenaInv s h
  rw [withTree_of_holds s ot hot]
  exact hf ot

theorem bpckBody_ends (s : State) : (bpckBody s).Ends := by
  rw [bpckBody]
  split
  · trivial
  · exact appendBytes_ends _ _ s

theorem cparBody_ends (off len : Word) (s : State) : (cparBody off len s).Ends := by rw [cparBody]; split <;> trivial

theorem tdesBody_ends (off len : Word) (s : State) : (tdesBody off len s).Ends := by rw [tdesBody]; split <;> trivial

theorem bunpBody_ends (off len : Word) (s : State) : (bunpBody off len s).Ends := by rw [bunpBody]; split <;> trivial

section

variable {s : State} (h : Inv s)

include h

theorem tbldBody_ends : (tbldBody s).Ends := by
  obtain ⟨hk, -⟩ := h.count
  rw [tbldBody, if_neg (Nat.not_lt.2 hk)]
  split <;> trivial

theorem cgenBody_ends : (cgenBody s).Ends := by
  rw [cgenBody]
  exact withTree_ends h.arena fun _ => trivial

theorem tserBody_ends : (tserBody s).Ends := withTree_ends h.arena fun _ => appendBytes_ends _ _ s

theorem walkBody_ends : (walkBody s).Ends := by
  rw [walkBody, if_pos ((viewOk_iff s).2 h.view)]
  refine withTree_ends h.arena fun ot => (appendEach_ends _ _ s).andThen
    (appendEach_all .walk (fun _ _ _ _ => trivial) _ s trivial : BodyResult.All (fun _ => True) _) fun t _ => ?_
  split <;> trivial

/-- ENC: each of its steps ends, in the state that the step before leaves (48_end_to_end.md R201). -/
theorem encBody_ends : (encBody s).Ends :=
  BodyResult.Ends.andThen (r := oclrBody s) trivial h.oclrBody fun s1 h1 =>
    BodyResult.Ends.andThen (r := fcntBody s1) trivial h1.fcntBody fun _ h2 =>
    (tbldBody_ends h2).andThen h2.tbldBody fun _ h3 => (cgenBody_ends h3).andThen h3.cgenBody fun s4 h4 =>
    (appendBytes_ends _ _ s4).andThen (h4.append _ _) fun _ h5 => (tserBody_ends h5).andThen h5.tserBody fun s6 _ =>
    bpckBody_ends s6

/-- DEC: each of its steps ends, in the state that the step before leaves (48_end_to_end.md R204). -/
theorem decBody_ends (hw : WindowFits s) : (decBody s).Ends :=
  BodyResult.Ends.andThen (r := oclrBody s) (P := fun t => Inv t ∧ WindowFits t) trivial ⟨h.oclrBody, hw⟩ fun s1 h1 =>
    (cparBody_ends _ _ s1).andThen (h1.1.cparBody _ _ h1.2) fun s2 h2 =>
    (tdesBody_ends _ _ s2).andThen (h2.tdesBody _ _) fun s3 h3 =>
    (bunpBody_ends _ _ s3).andThen (h3.bunpBody _ _ h3.parse.2) fun _ h4 => walkBody_ends h4

theorem commandBody_ends (i : Instr) (hw : i ∈ windowCommands → WindowFits s) : (commandBody i s).Ends := by
  cases i
  case nop | fcnt | oclr | rst => trivial
  case tbld => exact tbldBody_ends h
  case cgen => exact cgenBody_ends h
  case bpck => exact bpckBody_ends s
  case bunp => exact bunpBody_ends _ _ s
  case tser => exact tserBody_ends h
  case tdes => exact tdesBody_ends _ _ s
  case chdr => exact appendBytes_ends _ _ s
  case cpar => exact cparBody_ends _ _ s
  case walk => exact walkBody_ends h
  case enc => exact encBody_ends h
  case dec => exact decBody_ends h (hw (by decide))

end

/-- Settles O9: the body ends, or the window check has ended the command before. -/
theorem commandsEnd : Obligations.CommandsEnd := by
  unfold Obligations.CommandsEnd
  intro s i h
  by_cases hi : i = .rst
  · subst hi; exact ⟨_, exec_rst s⟩
  rw [exec_eq_runCommand i s hi]
  rcases runCommand_cases (commandForm i) (commandBody i) s with
    ⟨-, -, he⟩ | ⟨hw, ⟨u, -, he⟩ | ⟨e, b, u, -, he⟩ | ⟨f, hb, -⟩⟩
  · exact ⟨_, he⟩
  · exact ⟨_, he⟩
  · exact ⟨_, he⟩
  · have hends := commandBody_ends h i fun hmem => windowFits_of_ran hw ((commandForm_window i).2 hmem)
    rw [hb] at hends
    exact hends.elim

end Sys2Proof.Machine
end

section
/-! `Decode` and its parts, and that it inverts `Encode`: obligation O46 (48_end_to_end.md R200, R207). -/

namespace Sys2Proof.Machine

open Sys2Proof.Safety

/-- The nodes that `Des` answers hold the tree, as `Decode` reads them. -/
theorem treeOfNodes_desNodes (ot : Option HTree) (h : nodeCount ot ≤ 511) :
    (if desNodes ot = [] then none else treeOfNodes (desNodes ot) 0) = ot := by
  cases ot with
  | none => rfl
  | some t =>
    have hne : desNodes (some t) ≠ [] := fun e => by
      have hlen := desNodes_length (some t)
      have := t.size_pos
      rw [e] at hlen
      simp only [List.length_nil, nodeCount] at hlen
      omega
    rw [if_neg hne]
    exact nodesHold_desNodes (some t) h

/-- The bytes `c` are a container of the tree `ot` and of a payload `pl` that unpacks to `bits`. -/
structure Contains (c : List Byte) (ot : Option HTree) (pl : List Byte) (bits : List Bool) : Prop where
  split : split c = .ok (ser ot, pl)
  size : nodeCount ot ≤ 511
  unpack : unpack pl = .ok bits

/-- `Decode` succeeds exactly on the containers whose bits their tree decodes. -/
theorem decodeBytes_eq_ok_iff (c out : List Byte) :
    decodeBytes c = .ok out ↔ ∃ ot pl bits, Contains c ot pl bits ∧ walk ot bits = (out, none) := by
  constructor
  · intro h
    unfold decodeBytes at h
    split at h
    · cases h
    · next tr pl hsplit =>
      split at h
      · cases h
      · next ns hdes =>
        obtain ⟨ot, rfl, rfl, hsize⟩ := (des_eq_ok_iff tr ns).1 hdes
        split at h
        · cases h
        · next bits hunpack =>
          rw [treeOfNodes_desNodes ot hsize] at h
          split at h
          · cases h
          · next hwalk =>
            cases h
            exact ⟨ot, pl, bits, ⟨hsplit, hsize, hunpack⟩, hwalk⟩
  · rintro ⟨ot, pl, bits, ⟨hsplit, hsize, hunpack⟩, hwalk⟩
    simp only [decodeBytes, hsplit, des_ser ot hsize, hunpack, treeOfNodes_desNodes ot hsize, hwalk]

theorem ser_length_lt_of_size {ot : Option HTree} (h : nodeCount ot ≤ 511) : (ser ot).length < 2 ^ 32 := by
  rw [ser_length, serLen]
  split <;> omega

/-- `Encode` makes a container of the input's tree and of the stream of the input's codes. -/
theorem encodeBytes_contains (B : List Byte) :
    Contains (encodeBytes B) (inputTree B) (pack (stream B (codeMap (codes (inputTree B)))))
      (stream B (codeMap (codes (inputTree B)))) where
  split := split_frame _ _ (ser_length_lt_of_size (nodeCount_inputTree B))
  size := nodeCount_inputTree B
  unpack := unpackPack _

/-- Settles O46: the container is taken apart again, and walking the codes of the bytes gives the bytes. -/
theorem roundTrip : Obligations.RoundTrip := by
  unfold Obligations.RoundTrip
  intro B
  exact (decodeBytes_eq_ok_iff _ B).2
    ⟨_, _, _, encodeBytes_contains B, walk_stream fun b hb => (mem_codes_inputTree B b).2 hb⟩

end Sys2Proof.Machine
end

section
/-! DEC step by step, with the state that each step leaves: obligations O44 and O45 (48_end_to_end.md R204, R205). -/

namespace Sys2Proof.Machine

open Sys2Proof.Safety

/-! ### What CPAR, TDES and BUNP leave when they succeed -/

/-- The state after OCLR and CPAR on a window whose regions are `tr` and `pl` (46_container_format.md R183). -/
def State.parsed (s : State) (tr pl : List Byte) : State :=
  (s.setOlen 0).setParse (s.srcOff + 4) (BitVec.ofNat 32 tr.length) (s.srcOff + 4 + BitVec.ofNat 32 tr.length)
    (BitVec.ofNat 32 pl.length)

/-- The state after BUNP on the payload region (44_bit_unpacker.md R153). -/
def State.viewPayload (s : State) : State :=
  s.setView (s.payOff + 1) (s.payLen - 1) ((s.ibufByte s.payOff.toNat).setWidth 3)

/-- The state after TDES in DEC: the container in the window is parsed and its tree loaded. -/
def State.loaded (s : State) (ot : Option HTree) (pl : List Byte) : State := (s.parsed (ser ot) pl).loadTree ot

/-- The state that WALK meets in DEC: the payload is in view, too. -/
def State.decoded (s : State) (ot : Option HTree) (pl : List Byte) : State := (s.loaded ot pl).viewPayload

theorem cparBody_eq_done_iff (s p : State) : cparBody s.srcOff s.srcLen (s.setOlen 0) = .done p ↔
    ∃ tr pl, split s.window = .ok (tr, pl) ∧ p = s.parsed tr pl := by
  have hwin : (s.setOlen 0).ibufRange s.srcOff.toNat s.srcLen.toNat = s.window := rfl
  rw [cparBody, hwin]
  cases split s.window with
  | error e => simp
  | ok regions =>
    obtain ⟨tr, pl⟩ := regions
    simp only [BodyResult.done.injEq, Except.ok.injEq, Prod.mk.injEq]
    exact ⟨fun h => ⟨tr, pl, ⟨rfl, rfl⟩, h.symm⟩, by rintro ⟨_, _, ⟨rfl, rfl⟩, rfl⟩; rfl⟩

theorem tdesBody_eq_done_iff (off len : Word) (s q : State) : tdesBody off len s = .done q ↔
    ∃ ot, s.ibufRange off.toNat len.toNat = ser ot ∧ nodeCount ot ≤ 511 ∧ q = s.loadTree ot := by
  constructor
  · intro h
    rw [tdesBody] at h
    split at h <;> cases h
    next hdes =>
    obtain ⟨ot, rfl, hser, hsize⟩ := (des_eq_ok_iff _ _).1 hdes
    exact ⟨ot, hser, hsize, rfl⟩
  · rintro ⟨ot, hser, hsize, rfl⟩
    exact tdesBody_done s off len _ (hser ▸ des_ser ot hsize)

theorem bunpBody_eq_done_iff (s v : State) : bunpBody s.payOff s.payLen s = .done v ↔
    (∃ bits, unpack (s.ibufRange s.payOff.toNat s.payLen.toNat) = .ok bits) ∧ v = s.viewPayload := by
  rw [bunpBody]
  cases unpack (s.ibufRange s.payOff.toNat s.payLen.toNat) with
  | error e => simp
  | ok bits => simp [State.viewPayload, eq_comm]

/-- DEC goes on with TDES on the tree region. -/
theorem decBody_of_split {s : State} {tr pl : List Byte} (hsplit : split s.window = .ok (tr, pl)) : decBody s =
    (tdesBody (s.parsed tr pl).treeOff (s.parsed tr pl).treeLen (s.parsed tr pl)).andThen fun q =>
      (bunpBody q.payOff q.payLen q).andThen walkBody := by
  have hcpar := (cparBody_eq_done_iff s _).2 ⟨tr, pl, hsplit, rfl⟩
  simp only [decBody, oclrBody, BodyResult.andThen, State.setOlen_srcOff, State.setOlen_srcLen, hcpar]

section

variable {s : State} (hw : WindowFits s) {tr pl : List Byte} (hsplit : split s.window = .ok (tr, pl))

include hw hsplit

/-- The parse registers name the two regions, which lie in the window (46_container_format.md R183). -/
theorem parsed_regions : ParsedAs s (s.parsed tr pl) tr pl ∧
    (s.parsed tr pl).payOff.toNat + (s.parsed tr pl).payLen.toNat = s.srcOff.toNat + s.srcLen.toNat := by
  have hsum : s.srcOff.toNat + s.srcLen.toNat < 2 ^ 32 := Nat.lt_of_le_of_lt hw s.ibufSize.isLt
  have hpasses : ¬ cparFails (s.setOlen 0) s.srcOff s.srcLen := fun hf => by
    have hfails := split_fails (s.setOlen 0) s.srcOff s.srcLen hf
    cases hfails.symm.trans hsplit
  obtain ⟨p, hbody, -, htree, -, hpay, hend, hregions⟩ := cparBody_done (s.setOlen 0) s.srcOff s.srcLen hpasses hsum
  obtain ⟨_, _, hsplit', rfl⟩ := (cparBody_eq_done_iff s p).1 hbody
  cases hsplit'.symm.trans hsplit
  obtain ⟨htr, hpl⟩ := Prod.mk.inj (Except.ok.inj (hregions.symm.trans hsplit))
  exact ⟨⟨htree, hpay, htr, hpl⟩, hend⟩

theorem parsed_treeRange :
    (s.parsed tr pl).ibufRange (s.parsed tr pl).treeOff.toNat (s.parsed tr pl).treeLen.toNat = tr := by
  obtain ⟨⟨-, -, htr, -⟩, -⟩ := parsed_regions hw hsplit
  exact htr

/-- A failed TDES step leaves the absent tree and some entries (60_exceptions.md R239). -/
theorem decBody_tdes_fails {e : ErrKind} (hdes : des tr = .error e) :
    ∃ nodes draw, decBody s = .raised e .tdes (((s.parsed tr pl).setTree nodes 0 0).setNodeDraw draw) := by
  rw [decBody_of_split hsplit, tdesBody_fails _ _ _ e ((parsed_treeRange hw hsplit).symm ▸ hdes)]
  exact ⟨_, _, rfl⟩

end

theorem decBody_cpar_fails {s : State} {e : ErrKind} (h : split s.window = .error e) :
    decBody s = .raised e .cfmt ((s.setOlen 0).setParse 0 0 0 0) := by
  have hwin : (s.setOlen 0).ibufRange s.srcOff.toNat s.srcLen.toNat = s.window := rfl
  simp only [decBody, oclrBody, BodyResult.andThen, cparBody, State.setOlen_srcOff, State.setOlen_srcLen, hwin, h]

section

variable {s : State} (hw : WindowFits s) {ot : Option HTree} {pl : List Byte} (hsplit : split s.window = .ok (ser ot, pl))
  (hsize : nodeCount ot ≤ 511)

include hw hsplit hsize

/-- DEC goes on with BUNP on the payload region. -/
theorem decBody_of_tree : decBody s =
    (bunpBody (s.loaded ot pl).payOff (s.loaded ot pl).payLen (s.loaded ot pl)).andThen walkBody := by
  rw [decBody_of_split hsplit, (tdesBody_eq_done_iff _ _ _ _).2 ⟨ot, parsed_treeRange hw hsplit, hsize, rfl⟩]
  rfl

/-- After TDES the parse registers name the two regions, and the arena holds the container's tree. -/
theorem loaded_spec : ParsedAs s (s.loaded ot pl) (ser ot) pl ∧
    (s.loaded ot pl).ibufRange (s.loaded ot pl).payOff.toNat (s.loaded ot pl).payLen.toNat = pl ∧
    (s.loaded ot pl).payOff.toNat + (s.loaded ot pl).payLen.toNat ≤ (s.loaded ot pl).ibufSize.toNat ∧
    HoldsTree (s.loaded ot pl) ot ∧ SameNodesAbove s (s.loaded ot pl) := by
  obtain ⟨hparsed, hend⟩ := parsed_regions hw hsplit
  obtain ⟨htree, habove⟩ := loadTree_holds_sameAbove (s.parsed (ser ot) pl) ot hsize
  have hnode : (s.parsed (ser ot) pl).node = s.node := rfl
  have hibuf : ∀ a n, (s.parsed (ser ot) pl).ibufRange a n = s.ibufRange a n := fun _ _ => rfl
  have hfits : (s.parsed (ser ot) pl).payOff.toNat + (s.parsed (ser ot) pl).payLen.toNat ≤
    (s.parsed (ser ot) pl).ibufSize.toNat := hend.trans_le hw
  rw [State.loaded, State.loadTree] at *
  generalize s.parsed (ser ot) pl = p at *
  obtain ⟨htreeOff, hpayOff, htr, hpl⟩ := hparsed
  exact ⟨⟨htreeOff, hpayOff, htr, hpl⟩, (hibuf _ _).trans hpl, hfits, htree, fun i hi => (habove i hi).trans (by rw [hnode])⟩

theorem decBody_bunp_fails {e : ErrKind} (hunpack : unpack pl = .error e) :
    decBody s = .raised e .bunp ((s.loaded ot pl).setView 0 0 0) := by
  obtain ⟨-, hrange, -⟩ := loaded_spec hw hsplit hsize
  rw [decBody_of_tree hw hsplit hsize, bunpBody, hrange, hunpack]
  rfl

end

section

variable {s : State} (hw : WindowFits s) {ot : Option HTree} {pl : List Byte} {bits : List Bool}
  (hc : Contains s.window ot pl bits)

include hw hc

/-- DEC goes on with WALK. -/
theorem decBody_of_contains : decBody s = walkBody (s.decoded ot pl) := by
  obtain ⟨-, hrange, -⟩ := loaded_spec hw hc.split hc.size
  have hbunp := (bunpBody_eq_done_iff (s.loaded ot pl) _).2 ⟨⟨bits, hrange.symm ▸ hc.unpack⟩, rfl⟩
  rw [decBody_of_tree hw hc.split hc.size, hbunp]
  rfl

/-- What WALK meets in DEC: the parse registers, the tree, and a view of the payload that lies in IBUF (10_state.md R43). -/
theorem decoded_spec : ParsedAs s (s.decoded ot pl) (ser ot) pl ∧ HoldsTree (s.decoded ot pl) ot ∧
    SameNodesAbove s (s.decoded ot pl) ∧ ViewInv (s.decoded ot pl) ∧ (s.decoded ot pl).viewBits = bits := by
  obtain ⟨hparsed, hrange, hpay, htree, habove⟩ := loaded_spec hw hc.split hc.size
  rw [State.decoded]
  generalize s.loaded ot pl = q at *
  have hsize := q.ibufSize.isLt
  have hpasses : ¬ bunpFails q q.payOff q.payLen := fun hf => by
    have hfails := (bunpBody_fails q _ _ hf).2
    rw [hrange, hc.unpack] at hfails
    cases hfails
  obtain ⟨v, hbody, -, hoff, hlen, -, hpad, hbits⟩ := bunpBody_done q q.payOff q.payLen hpasses (by omega)
  obtain ⟨-, rfl⟩ := (bunpBody_eq_done_iff q v).1 hbody
  rw [hrange, hc.unpack] at hbits
  have hin : q.viewPayload.bitOff.toNat + q.viewPayload.dataLen.toNat ≤ q.ibufSize.toNat := by omega
  exact ⟨hparsed, htree, habove, ⟨hpad, hin⟩, (Except.ok.inj hbits).symm⟩

end

/-! ### What DEC leaves -/

/-- Everything but STATUS, the output, the parse registers, the arena and the bit view (48_end_to_end.md R204). -/
def SameButDecoded (s t : State) : Prop := SameInput s t ∧ SameCount s t ∧ SameCodes s t ∧ SameRest s t

theorem SameButDecoded.refl (s : State) : SameButDecoded s s :=
  ⟨⟨rfl, rfl, fun _ => rfl⟩, ⟨rfl, rfl, rfl⟩, ⟨rfl, rfl⟩, ⟨rfl, rfl, rfl, rfl, rfl, rfl⟩⟩

theorem decBody_sameButDecoded (s : State) : (decBody s).All (SameButDecoded s) := by
  have hcpar : ∀ t, SameButDecoded s t → (cparBody t.srcOff t.srcLen t).All (SameButDecoded s) := fun t h => by
    rw [cparBody]; split <;> exact h
  have htdes : ∀ t, SameButDecoded s t → (tdesBody t.treeOff t.treeLen t).All (SameButDecoded s) := fun t h => by
    rw [tdesBody]; split <;> exact h
  have hbunp : ∀ t, SameButDecoded s t → (bunpBody t.payOff t.payLen t).All (SameButDecoded s) := fun t h => by
    rw [bunpBody]; split <;> exact h
  have hwalk : ∀ t, SameButDecoded s t → (walkBody t).All (SameButDecoded s) := fun t h =>
    walkBody_all (fun _ _ h _ => h) h
  exact BodyResult.All.andThen (r := oclrBody s) (fun t h => (hcpar t h).andThen fun t h => (htdes t h).andThen fun t h =>
    (hbunp t h).andThen hwalk) (SameButDecoded.refl s)

theorem exec_dec_sameButDecoded {s t : State} (he : exec .dec s = .next t) : SameButDecoded s t := by
  rw [exec_eq_runCommand .dec s (by decide)] at he
  exact runCommand_next_all he (.refl s) (fun _ => decBody_sameButDecoded s) (fun _ _ h => h) fun _ _ _ h => h

/-! ### The command -/

theorem obufByte_congr {s t : State} (h : t.obuf = s.obuf) (hd : t.obufDraw = s.obufDraw) (a : Nat) :
    t.obufByte a = s.obufByte a := by
  rw [State.obufByte, State.obufByte, h, hd]

/-- Bytes appended to an empty output are the output. -/
theorem afterAppend_outputIs {s t : State} {bs : List Byte} (h0 : t.olen = 0) (hob : ∀ a, t.obufByte a = s.obufByte a)
    (hfit : bs.length ≤ t.obufSize.toNat) : OutputIs s (afterAppend t bs) bs := by
  have hzero : t.olen.toNat = 0 := by rw [h0]; rfl
  obtain ⟨hlen, hrange, habove⟩ := afterAppend_appended t bs (by omega)
  rw [hzero] at hlen hrange
  exact ⟨by omega, hrange, fun a ha => by rw [habove a (.inr (by omega)), hob a]⟩

/-- An error of ENC or DEC leaves OLEN 0 (60_exceptions.md R238), and in everything but STATUS and the output what the failing
step left. -/
theorem exec_raised_cleared {i : Instr} (hi : i = .enc ∨ i = .dec) {s v : State} {e : ErrKind} {u : BlockUnit} (hw : WindowFits s)
    (hb : commandBody i s = .raised e u v) (hstatus : v.status = s.status) : ∃ st ob draw,
    exec i s = .next { v with status := st, olen := 0, obuf := ob, obufDraw := draw } ∧
      Ended s { v with status := st, olen := 0, obuf := ob, obufDraw := draw } (opcode i) (some (e, u)) := by
  have hexec : exec i s = .next (((v.scrubOutput 0).setOlen 0).finish (some (e, u)) (opcode i)) := by
    rcases hi with rfl | rfl
    · rw [exec_eq_runCommand .enc s (by decide)]
      exact runCommand_raised _ _ s v e u (fun _ => hw) hb
    · rw [exec_eq_runCommand .dec s (by decide)]
      exact runCommand_raised _ _ s v e u (fun _ => hw) hb
  exact ⟨_, _, _, hexec, finish_ended s ((v.scrubOutput 0).setOlen 0) (some (e, u)) (opcode i) hstatus⟩

/-- On a container whose bits decode to symbols that fit, DEC appends the symbols to an empty output. -/
theorem exec_dec_done {s : State} (hw : WindowFits s) {ot : Option HTree} {pl out : List Byte} {bits : List Bool}
    (hc : Contains s.window ot pl bits) (hwalk : walk ot bits = (out, none)) (hfit : out.length ≤ s.obufSize.toNat) :
    exec .dec s = .next ((afterAppend (s.decoded ot pl) out).finish none 0x0C) := by
  obtain ⟨-, htree, -, hview, hbits⟩ := decoded_spec hw hc
  have hroom : (s.decoded ot pl).olen.toNat + out.length ≤ (s.decoded ot pl).obufSize.toNat := (Nat.zero_add _).trans_le hfit
  refine exec_done .dec (fun _ => hw) (by decide) ((decBody_of_contains hw hc).trans ?_)
  exact walkBody_done _ ot out hview htree (hbits.symm ▸ hwalk) hroom

/-- Settles O44: the window is a container, and DEC's last step appends what `Decode` gives. -/
theorem decOutput : Obligations.DecOutput := by
  unfold Obligations.DecOutput
  intro s out hw hdecode hfit
  obtain ⟨ot, pl, bits, hc, hwalk⟩ := (decodeBytes_eq_ok_iff _ _).1 hdecode
  have hexec := exec_dec_done hw hc hwalk hfit
  have hout : OutputIs s (afterAppend (s.decoded ot pl) out) out := afterAppend_outputIs rfl (fun a => obufByte_congr rfl rfl a) hfit
  have hroot : (s.decoded ot pl).root = 0 := rfl
  have hstatus : (s.decoded ot pl).status = s.status := rfl
  have hframe := exec_dec_sameButDecoded hexec
  obtain ⟨hparsed, htree, habove, -, rfl⟩ := decoded_spec hw hc
  refine ⟨_, ser ot, pl, ot, hexec, ?_⟩
  generalize s.decoded ot pl = v at *
  exact ⟨finish_ended s (afterAppend v out) none _ hstatus, hout, hc.split, hparsed, rfl, htree, hroot, hc.unpack, hwalk, habove,
    hframe⟩

/-- WALK in DEC fails with CapacityExceeded when the symbols do not fit, else with the error that ends the walk
(48_end_to_end.md R205). -/
theorem decBody_walk_fails {s : State} (hw : WindowFits s) {ot : Option HTree} {pl out : List Byte} {bits : List Bool}
    {e : Option ErrKind} (hc : Contains s.window ot pl bits) (hwalk : walk ot bits = (out, e))
    (hfail : s.obufSize.toNat < out.length ∨ e ≠ none) :
    ∃ cs, decBody s = .raised (if s.obufSize.toNat < out.length then .capacityExceeded else e.getD .decodeUnderflow) .walk
      (afterAppend (s.decoded ot pl) cs) := by
  obtain ⟨-, htree, -, hview, rfl⟩ := decoded_spec hw hc
  have holen : (s.decoded ot pl).olen.toNat = 0 := rfl
  have hosz : (s.decoded ot pl).obufSize = s.obufSize := rfl
  rw [decBody_of_contains hw hc]
  by_cases hfull : s.obufSize.toNat < out.length
  · obtain ⟨cs, -, hbody⟩ := walkBody_full _ ot out e hview (Nat.zero_le _) htree hwalk (by rw [holen, hosz]; omega)
    exact ⟨cs, by rw [if_pos hfull, hbody]⟩
  · obtain ⟨k, rfl⟩ := Option.ne_none_iff_exists'.1 (hfail.resolve_left hfull)
    refine ⟨out, ?_⟩
    rw [if_neg hfull, walkBody_fails _ ot out k hview htree hwalk (by rw [holen, hosz]; omega)]
    rfl

/-- Settles O45: the first step that fails ends DEC, in the state that the steps before it left and with what it clears. -/
theorem decErrors : Obligations.DecErrors := by
  unfold Obligations.DecErrors
  intro s hw
  refine ⟨fun e hsplit => ?cpar, fun tr pl e hsplit hdes => ?tdes, ?bunp, ?walk⟩
  case cpar =>
    obtain ⟨st, ob, draw, hexec, hend⟩ := exec_raised_cleared (.inr rfl) hw (decBody_cpar_fails hsplit) rfl
    exact ⟨_, hexec, hend, rfl, rfl, rfl, rfl, rfl, ⟨rfl, rfl, rfl⟩, ⟨rfl, rfl, rfl⟩, exec_dec_sameButDecoded hexec⟩
  case tdes =>
    obtain ⟨nodes, nodeDraw, hbody⟩ := decBody_tdes_fails hw hsplit hdes
    obtain ⟨st, ob, draw, hexec, hend⟩ := exec_raised_cleared (.inr rfl) hw hbody rfl
    obtain ⟨hparsed, -⟩ := parsed_regions hw hsplit
    exact ⟨_, hexec, hend, rfl, hparsed, rfl, rfl, ⟨rfl, rfl, rfl⟩, exec_dec_sameButDecoded hexec⟩
  case bunp =>
    rintro _ pl ot e hsplit rfl hsize hunpack
    obtain ⟨st, ob, draw, hexec, hend⟩ := exec_raised_cleared (.inr rfl) hw (decBody_bunp_fails hw hsplit hsize hunpack) rfl
    obtain ⟨hparsed, -, -, htree, habove⟩ := loaded_spec hw hsplit hsize
    exact ⟨_, hexec, hend, rfl, hparsed, htree, rfl, rfl, rfl, habove, exec_dec_sameButDecoded hexec⟩
  case walk =>
    rintro _ pl ot bits out e hsplit rfl hsize hunpack hwalk hfail
    have hc : Contains s.window ot pl bits := ⟨hsplit, hsize, hunpack⟩
    obtain ⟨cs, hbody⟩ := decBody_walk_fails hw hc hwalk hfail
    obtain ⟨st, ob, draw, hexec, hend⟩ := exec_raised_cleared (.inr rfl) hw hbody rfl
    obtain ⟨hparsed, htree, habove, -, hbits⟩ := decoded_spec hw hc
    exact ⟨_, hexec, hend, rfl, hparsed, htree, hbits, habove, exec_dec_sameButDecoded hexec⟩

end Sys2Proof.Machine
end

section
/-! DEC does not depend on earlier state: obligation O49 (48_end_to_end.md R208). -/

namespace Sys2Proof.Machine

open Sys2Proof.Safety

/-- How DEC can go on a window `c` with an OBUF of `n` bytes: one of its four steps fails, or it decodes
(48_end_to_end.md R204, R205). -/
theorem dec_cases (c : List Byte) (n : Nat) :
    (∃ e, split c = .error e) ∨ (∃ tr pl e, split c = .ok (tr, pl) ∧ des tr = .error e) ∨
    (∃ ot pl e, split c = .ok (ser ot, pl) ∧ nodeCount ot ≤ 511 ∧ unpack pl = .error e) ∨
    ∃ ot pl bits, Contains c ot pl bits ∧
      ((∃ out e, walk ot bits = (out, e) ∧ (n < out.length ∨ e ≠ none)) ∨ ∃ out, walk ot bits = (out, none) ∧ out.length ≤ n) := by
  cases hsplit : split c with
  | error e => exact .inl ⟨e, rfl⟩
  | ok regions =>
    obtain ⟨tr, pl⟩ := regions
    cases hdes : des tr with
    | error e => exact .inr (.inl ⟨tr, pl, e, rfl, hdes⟩)
    | ok ns =>
      obtain ⟨ot, -, rfl, hsize⟩ := (des_eq_ok_iff _ _).1 hdes
      cases hunpack : unpack pl with
      | error e => exact .inr (.inr (.inl ⟨ot, pl, e, rfl, hsize, hunpack⟩))
      | ok bits =>
        refine .inr (.inr (.inr ⟨ot, pl, bits, ⟨hsplit, hsize, hunpack⟩, ?_⟩))
        by_cases hfail : n < (walk ot bits).1.length ∨ (walk ot bits).2 ≠ none
        · exact .inl ⟨_, _, rfl, hfail⟩
        · simp only [not_or, Nat.not_lt, ne_eq, not_not] at hfail
          exact .inr ⟨_, Prod.ext rfl hfail.2, hfail.1⟩

/-- The outcomes that O49 compares: the same error and output, and after a success the same registers and tree. -/
def DecAgree (t t' : State) : Prop :=
  t'.status.error = t.status.error ∧ t'.olen = t.olen ∧ (∀ a, a < t.olen.toNat → t'.obufByte a = t.obufByte a) ∧
    (t.status.error = none → SameParse t t' ∧ SameView t t' ∧ t'.nnodes = t.nnodes ∧ t'.root = t.root ∧
      ∀ i, i < t.nnodes.toNat → nodeGet t'.node i = nodeGet t.node i)

/-- Two failures with the same error agree: OLEN is 0. -/
theorem decAgree_of_error {s s' t t' : State} {op : Byte} {p : ErrKind × BlockUnit} (h : Ended s t op (some p))
    (h' : Ended s' t' op (some p)) (h0 : t.olen = 0) (h0' : t'.olen = 0) : DecAgree t t' := by
  rw [Ended] at h h'
  refine ⟨by rw [h, h'], h0'.trans h0.symm, fun a ha => ?_, fun hnone => ?_⟩
  · rw [h0] at ha
    exact absurd ha (Nat.not_lt_zero a)
  · rw [h] at hnone
    cases hnone

theorem finish_error (s : State) (e : Option (ErrKind × BlockUnit)) (op : Byte) : (s.finish e op).status.error = e := rfl

/-- Two outputs of the same bytes agree. -/
theorem outputIs_agree {s s' t t' : State} {bs : List Byte} (h : OutputIs s t bs) (h' : OutputIs s' t' bs) :
    t'.olen = t.olen ∧ ∀ a, a < t.olen.toNat → t'.obufByte a = t.obufByte a := by
  obtain ⟨hlen, hrange, -⟩ := h
  obtain ⟨hlen', hrange', -⟩ := h'
  refine ⟨BitVec.eq_of_toNat_eq (hlen'.trans hlen.symm), fun a ha => ?_⟩
  have hbyte := congrArg (fun l => l[a]?) (hrange'.trans hrange.symm)
  simpa [State.obufRange, ← hlen, ha] using hbyte

theorem ibufByte_of_ibufRange {s : State} {a n : Nat} {b : Byte} {rest : List Byte} (h : s.ibufRange a n = b :: rest) :
    s.ibufByte a = b := by
  cases n with
  | zero => cases h
  | succ n =>
    rw [ibufRange_succ] at h
    exact (List.cons.inj h).1

/-- A payload that unpacks has a padding byte. -/
theorem unpack_ok_cons {pl : List Byte} {bits : List Bool} (h : unpack pl = .ok bits) : ∃ b data, pl = b :: data := by
  cases pl with
  | nil => cases h
  | cons b data => exact ⟨b, data, rfl⟩

/-- What WALK meets in DEC, field by field: SRC_OFF and the container decide all but PAD and the entries above the tree. -/
theorem decoded_fields (s : State) (ot : Option HTree) (pl : List Byte) :
    ((s.decoded ot pl).treeOff = s.srcOff + 4 ∧ (s.decoded ot pl).treeLen = BitVec.ofNat 32 (ser ot).length ∧
      (s.decoded ot pl).payOff = s.srcOff + 4 + BitVec.ofNat 32 (ser ot).length ∧
      (s.decoded ot pl).payLen = BitVec.ofNat 32 pl.length) ∧
    ((s.decoded ot pl).bitOff = s.srcOff + 4 + BitVec.ofNat 32 (ser ot).length + 1 ∧
      (s.decoded ot pl).dataLen = BitVec.ofNat 32 pl.length - 1 ∧
      (s.decoded ot pl).pad = ((s.loaded ot pl).ibufByte (s.loaded ot pl).payOff.toNat).setWidth 3) ∧
    (s.decoded ot pl).nnodes = BitVec.ofNat 9 (desNodes ot).length ∧ (s.decoded ot pl).root = 0 ∧
    (s.decoded ot pl).node = loadNodes s.node (desNodes ot) :=
  ⟨⟨rfl, rfl, rfl, rfl⟩, ⟨rfl, rfl, rfl⟩, rfl, rfl, rfl⟩

section

variable {s s' : State} (hw : WindowFits s) (hw' : WindowFits s') (hoff : s'.srcOff = s.srcOff) {ot : Option HTree}
  {pl : List Byte} {bits : List Bool} (hc : Contains s.window ot pl bits) (hc' : Contains s'.window ot pl bits)

include hw hw' hoff hc hc'

/-- On the same container at the same place WALK meets the same registers, view and tree, whatever was there before. -/
theorem decoded_agree : SameParse (s.decoded ot pl) (s'.decoded ot pl) ∧ SameView (s.decoded ot pl) (s'.decoded ot pl) ∧
    (s'.decoded ot pl).nnodes = (s.decoded ot pl).nnodes ∧ (s'.decoded ot pl).root = (s.decoded ot pl).root ∧
    ∀ i, i < (s.decoded ot pl).nnodes.toNat → nodeGet (s'.decoded ot pl).node i = nodeGet (s.decoded ot pl).node i := by
  obtain ⟨-, hrange, -⟩ := loaded_spec hw hc.split hc.size
  obtain ⟨-, hrange', -⟩ := loaded_spec hw' hc'.split hc'.size
  obtain ⟨b, data, hpl⟩ := unpack_ok_cons hc.unpack
  have hpadding := ibufByte_of_ibufRange (hrange.trans hpl)
  have hpadding' := ibufByte_of_ibufRange (hrange'.trans hpl)
  obtain ⟨⟨hto, htl, hpo, hpn⟩, ⟨hbo, hdl, hpad⟩, hn, hr, hnode⟩ := decoded_fields s ot pl
  obtain ⟨⟨hto', htl', hpo', hpn'⟩, ⟨hbo', hdl', hpad'⟩, hn', hr', hnode'⟩ := decoded_fields s' ot pl
  rw [hoff] at hto' hpo' hbo'
  refine ⟨⟨hto'.trans hto.symm, htl'.trans htl.symm, hpo'.trans hpo.symm, hpn'.trans hpn.symm⟩,
    ⟨hbo'.trans hbo.symm, hdl'.trans hdl.symm, by rw [hpad', hpad, hpadding', hpadding]⟩, hn'.trans hn.symm, hr'.trans hr.symm,
    fun i hi => ?_⟩
  have hlen : (desNodes ot).length ≤ 511 := (desNodes_length ot).trans_le hc.size
  have hi : i < (desNodes ot).length := by rwa [hn, BitVec.toNat_ofNat, Nat.mod_eq_of_lt (by omega)] at hi
  rw [hnode', hnode, nodeGet_lookNodes _ _ i hi hlen, nodeGet_lookNodes _ _ i hi hlen]

/-- When DEC succeeds from both states, the outcomes agree. -/
theorem dec_agree_of_walk {out : List Byte} (hwalk : walk ot bits = (out, none)) (hfit : out.length ≤ s.obufSize.toNat)
    (hosz : s'.obufSize = s.obufSize) : ∃ t t', exec .dec s = .next t ∧ exec .dec s' = .next t' ∧ DecAgree t t' := by
  have hout : OutputIs s (afterAppend (s.decoded ot pl) out) out :=
    afterAppend_outputIs rfl (fun a => obufByte_congr rfl rfl a) hfit
  have hout' : OutputIs s' (afterAppend (s'.decoded ot pl) out) out :=
    afterAppend_outputIs rfl (fun a => obufByte_congr rfl rfl a) (hosz ▸ hfit)
  obtain ⟨holen, hbytes⟩ := outputIs_agree hout hout'
  have hregs := decoded_agree hw hw' hoff hc hc'
  refine ⟨_, _, exec_dec_done hw hc hwalk hfit, exec_dec_done hw' hc' hwalk (hosz ▸ hfit), ?_⟩
  generalize s.decoded ot pl = v at *
  generalize s'.decoded ot pl = v' at *
  exact ⟨(finish_error _ none _).trans (finish_error _ none _).symm, holen, hbytes, fun _ => hregs⟩

end

/-- Settles O49: the window decides which step fails, and what the successful steps write. -/
theorem decIndependent : Obligations.DecIndependent := by
  unfold Obligations.DecIndependent
  intro s s' hw hoff hlen hisz hosz hwin
  have hw' : WindowFits s' := by rw [WindowFits, hoff, hlen, hisz]; exact hw
  obtain ⟨hcpar, htdes, hbunp, hwalk⟩ := decErrors s hw
  obtain ⟨hcpar', htdes', hbunp', hwalk'⟩ := decErrors s' hw'
  rw [hwin] at hcpar' htdes' hbunp' hwalk'
  rw [hosz] at hwalk'
  rcases dec_cases s.window s.obufSize.toNat with ⟨e, hs⟩ | ⟨tr, pl, e, hs, hd⟩ | ⟨ot, pl, e, hs, hn, hu⟩ |
    ⟨ot, pl, bits, hc, ⟨out, e, hwk, hfail⟩ | ⟨out, hwk, hfit⟩⟩
  · obtain ⟨t, hexec, hend, h0, -⟩ := hcpar e hs
    obtain ⟨t', hexec', hend', h0', -⟩ := hcpar' e hs
    exact ⟨t, t', hexec, hexec', decAgree_of_error hend hend' h0 h0'⟩
  · obtain ⟨t, hexec, hend, h0, -⟩ := htdes tr pl e hs hd
    obtain ⟨t', hexec', hend', h0', -⟩ := htdes' tr pl e hs hd
    exact ⟨t, t', hexec, hexec', decAgree_of_error hend hend' h0 h0'⟩
  · obtain ⟨t, hexec, hend, h0, -⟩ := hbunp _ pl ot e hs rfl hn hu
    obtain ⟨t', hexec', hend', h0', -⟩ := hbunp' _ pl ot e hs rfl hn hu
    exact ⟨t, t', hexec, hexec', decAgree_of_error hend hend' h0 h0'⟩
  · obtain ⟨t, hexec, hend, h0, -⟩ := hwalk _ pl ot bits out e hc.split rfl hc.size hc.unpack hwk hfail
    obtain ⟨t', hexec', hend', h0', -⟩ := hwalk' _ pl ot bits out e hc.split rfl hc.size hc.unpack hwk hfail
    exact ⟨t, t', hexec, hexec', decAgree_of_error hend hend' h0 h0'⟩
  · exact dec_agree_of_walk hw hw' hoff hc (hwin.symm ▸ hc) hwk hfit hosz

end Sys2Proof.Machine
end

section
/-! Scripts of unit commands, and the end-to-end commands as such scripts: obligations O50 and O51 (48_end_to_end.md R209). -/

namespace Sys2Proof.Machine

open Sys2Proof.Safety

/-! ### A script that succeeds runs the bodies of its commands -/

/-- The bodies of commands, one after another as long as each completes. -/
def runBodies : List Instr → State → BodyResult
  | [], s => .done s
  | i :: is, s => (commandBody i s).andThen (runBodies is)

/-- STATUS after commands that succeed, each with its `Finish` (49_control.md R220). -/
def statusAfter : List Instr → Status → Status
  | [], st => st
  | i :: is, st => statusAfter is (st.finish none (opcode i))

theorem statusAfter_faulted : ∀ (is : List Instr) (st : Status), (statusAfter is st).faulted = st.faulted
  | [], _ => rfl
  | i :: is, st => by rw [statusAfter, statusAfter_faulted is, Status.finish_success]

/-- No script of bodies sees STATUS. -/
theorem runBodies_unseen (st : Status) : ∀ is, Unseen (State.mapUnread (fun _ => st) id id) (runBodies is)
  | [] => fun _ => rfl
  | i :: is => (commandBody_unseen _ id id i).andThen (runBodies_unseen st is)

theorem runBodies_setStatus (is : List Instr) (s : State) (st : Status) :
    runBodies is (s.setStatus st) = (runBodies is s).map fun t => t.setStatus st := runBodies_unseen st is s

theorem BodyResult.map_eq_done_iff {f : State → State} {r : BodyResult} {t : State} :
    r.map f = .done t ↔ ∃ u, r = .done u ∧ t = f u := by
  cases r <;> simp [BodyResult.map, eq_comm]

theorem BodyResult.andThen_eq_done_iff {r : BodyResult} {f : State → BodyResult} {t : State} :
    r.andThen f = .done t ↔ ∃ u, r = .done u ∧ f u = .done t := by
  cases r <;> simp [BodyResult.andThen]

/-- No body changes the window or the size of IBUF. -/
theorem commandBody_windowFits {i : Instr} {s u : State} (h : commandBody i s = .done u) : WindowFits u ↔ WindowFits s := by
  have hkept : KeptByUpdates fun t => WindowFits t ↔ WindowFits s :=
    { setStatus := fun _ _ h => h, setOlen := fun _ _ h => h, setParse := fun _ _ _ _ _ h => h, setView := fun _ _ _ _ h => h,
      setCount := fun _ _ _ _ h => h, setTree := fun _ _ _ _ h => h, setNodeDraw := fun _ _ h => h,
      setCodes := fun _ _ _ h => h, afterAppend := fun _ _ h => h, scrubOutput := fun _ _ h => h }
  have hall := hkept.commandBody i (s := s) Iff.rfl
  rw [h] at hall
  exact hall

/-- A script succeeds exactly when its bodies complete one after another, on a window that fits if one reads it; STATUS alone
tells the commands' own `Finish` (49_control.md R220). -/
theorem runUnits_eq_some_iff : ∀ (is : List Instr) (s t : State), Instr.rst ∉ is → (runUnits is s = some t ↔
    ((∃ i ∈ is, i ∈ windowCommands) → WindowFits s) ∧
      ∃ u, runBodies is s = .done u ∧ t = u.setStatus (statusAfter is s.status))
  | [], s, t, _ => by
    simp only [runUnits, runBodies, statusAfter, Option.some.injEq, BodyResult.done.injEq]
    exact ⟨by rintro rfl; exact ⟨nofun, s, rfl, rfl⟩, by rintro ⟨-, _, rfl, rfl⟩; rfl⟩
  | i :: is, s, t, hrst => by
    obtain ⟨hi, his⟩ := not_or.1 (fun h => hrst (List.mem_cons.2 h))
    have hi : i ≠ .rst := fun e => hi e.symm
    have hrest : ∀ {u : State}, commandBody i s = .done u → (runUnits is (u.finish none (opcode i)) = some t ↔
        ((∃ i ∈ is, i ∈ windowCommands) → WindowFits s) ∧
          ∃ v, runBodies is u = .done v ∧ t = v.setStatus (statusAfter (i :: is) s.status)) := fun {u} hu => by
      rw [runUnits_eq_some_iff is _ t his, State.finish, runBodies_setStatus, State.setStatus_status, commandBody_status hu]
      refine and_congr (imp_congr_right fun _ => show WindowFits u ↔ WindowFits s from commandBody_windowFits hu) ?_
      simp only [BodyResult.map_eq_done_iff]
      exact ⟨by rintro ⟨_, ⟨v, hv, rfl⟩, rfl⟩; exact ⟨v, hv, rfl⟩, by rintro ⟨v, hv, rfl⟩; exact ⟨_, ⟨v, hv, rfl⟩, rfl⟩⟩
    constructor
    · intro h
      obtain ⟨hwin, u, hu, hrun⟩ := runUnits_cons_some i hi is s t h
      obtain ⟨hfits, v, hv, rfl⟩ := (hrest hu).1 hrun
      refine ⟨?_, v, by rw [runBodies, hu]; exact hv, rfl⟩
      rintro ⟨j, hj, hmem⟩
      rcases List.mem_cons.1 hj with rfl | hj
      · exact windowFits_of_ran hwin ((commandForm_window j).2 hmem)
      · exact hfits ⟨j, hj, hmem⟩
    · rintro ⟨hfits, v, hv, rfl⟩
      obtain ⟨u, hu, hv⟩ := BodyResult.andThen_eq_done_iff.1 hv
      rw [runUnits, exec_done i (fun hmem => hfits ⟨i, List.mem_cons_self, hmem⟩) hi hu]
      simp only [finish_error, if_true]
      exact (hrest hu).2 ⟨fun ⟨j, hj, hmem⟩ => hfits ⟨j, List.mem_cons_of_mem _ hj, hmem⟩, v, hv, rfl⟩

/-! ### ENC (48_end_to_end.md R201) -/

theorem andThen_done (r : BodyResult) : r.andThen .done = r := by cases r <;> rfl

/-- ENC's body is the script of its seven units. -/
theorem encBody_eq_runBodies (s : State) :
    encBody s = runBodies [.oclr, .fcnt, .tbld, .cgen, .chdr, .tser, .bpck] s := by
  simp only [runBodies, andThen_done, commandBody]
  rfl

/-- A command that succeeds completed its body. -/
theorem exec_success {i : Instr} {s t : State} (hi : i ≠ .rst) (he : exec i s = .next t) (ht : t.status.error = none) :
    (i ∈ windowCommands → WindowFits s) ∧ ∃ u, commandBody i s = .done u ∧ t = u.finish none (opcode i) := by
  rw [exec_eq_runCommand i s hi] at he
  rcases runCommand_cases (commandForm i) (commandBody i) s with
    ⟨-, -, e⟩ | ⟨hw, ⟨u, hb, e⟩ | ⟨k, b, u, -, e⟩ | ⟨f, -, e⟩⟩ <;> rw [e] at he <;> cases he
  · cases ht
  · exact ⟨fun hmem => windowFits_of_ran hw ((commandForm_window i).2 hmem), u, hb, by rw [commandForm_op]⟩
  · rw [takeError_status] at ht
    cases ht

/-- The state that O50 and O51 compare: `Finish` of the end-to-end command in the state of its last unit. -/
theorem finish_of_setStatus {s u : State} (h : u.status = s.status) (st : Status) (op : Byte) :
    u.finish none op = { u.setStatus st with
      status := { error := none, done := true, lastop := op, faulted := s.status.faulted } } := by
  rw [State.finish, Status.finish_success, h]
  rfl

/-- Settles O50: ENC's body is the script of the units' bodies, which do not see the STATUS that each unit leaves. -/
theorem encEqualsUnits : Obligations.EncEqualsUnits := by
  unfold Obligations.EncEqualsUnits
  intro s
  have hscript := fun t => runUnits_eq_some_iff [.oclr, .fcnt, .tbld, .cgen, .chdr, .tser, .bpck] s t (by decide)
  simp only [← encBody_eq_runBodies] at hscript
  constructor
  · intro t ht
    obtain ⟨hfits, u, hu, rfl⟩ := (hscript t).1 ht
    rw [exec_done .enc (fun _ => hfits ⟨.fcnt, by decide, by decide⟩) (by decide) hu,
      finish_of_setStatus (commandBody_status (i := .enc) hu)]
    rfl
  · intro t he ht
    obtain ⟨hfits, u, hu, rfl⟩ := exec_success (by decide) he ht
    exact ⟨_, (hscript _).2 ⟨fun _ => hfits (by decide), u, hu, rfl⟩, rfl⟩

/-! ### DEC (48_end_to_end.md R204) -/

/-- The state with the window moved, and with another STATUS. -/
def State.moved (s : State) (off len : Word) (st : Status) : State := (s.setWindow off len).setStatus st

theorem walkBody_moved (s : State) (off len : Word) (st : Status) :
    walkBody (s.moved off len st) = (walkBody s).map fun t => t.moved off len st := by
  have hstatus : walkBody (s.moved off len st) = (walkBody (s.setWindow off len)).map fun t => t.setStatus st :=
    walkBody_unseen (fun _ => st) id id _
  rw [hstatus, walkBody_unseenWindow off len s]
  cases walkBody s <;> rfl

/-- TDES and BUNP between moves of the window write what they write in DEC. -/
theorem loadTree_moved (p : State) (ot : Option HTree) (off len : Word) (st : Status) :
    (p.moved off len st).loadTree ot = (p.loadTree ot).moved off len st := rfl

theorem viewPayload_moved (q : State) (off len : Word) (st : Status) :
    (q.moved off len st).viewPayload = q.viewPayload.moved off len st := rfl

/-- OCLR and CPAR succeed on a window that splits, and do what they do in DEC. -/
theorem runUnits_cpar_iff (s t : State) : runUnits [.oclr, .cpar] s = some t ↔ WindowFits s ∧
    ∃ tr pl, split s.window = .ok (tr, pl) ∧ t = (s.parsed tr pl).setStatus (statusAfter [.oclr, .cpar] s.status) := by
  have hbody : ∀ p, runBodies [.oclr, .cpar] s = .done p ↔ ∃ tr pl, split s.window = .ok (tr, pl) ∧ p = s.parsed tr pl := fun p => by
    rw [← cparBody_eq_done_iff]
    simp only [runBodies, andThen_done, commandBody]
    exact Iff.rfl
  rw [runUnits_eq_some_iff _ s t (by decide)]
  simp only [hbody]
  exact and_congr ⟨fun h => h (by decide), fun h _ => h⟩
    ⟨by rintro ⟨_, ⟨tr, pl, hs, rfl⟩, rfl⟩; exact ⟨tr, pl, hs, rfl⟩, by rintro ⟨tr, pl, hs, rfl⟩; exact ⟨_, ⟨tr, pl, hs, rfl⟩, rfl⟩⟩

/-- TDES on the tree region succeeds on a serialized tree that fits the arena, and does what it does in DEC. -/
theorem runUnits_tdes_iff (p t : State) (st : Status) : runUnits [.tdes] (p.moved p.treeOff p.treeLen st) = some t ↔
    p.treeOff.toNat + p.treeLen.toNat ≤ p.ibufSize.toNat ∧
      ∃ ot, p.ibufRange p.treeOff.toNat p.treeLen.toNat = ser ot ∧ nodeCount ot ≤ 511 ∧
        t = (p.loadTree ot).moved p.treeOff p.treeLen (statusAfter [.tdes] st) := by
  have hbody : ∀ q, runBodies [.tdes] (p.moved p.treeOff p.treeLen st) = .done q ↔
      ∃ ot, p.ibufRange p.treeOff.toNat p.treeLen.toNat = ser ot ∧ nodeCount ot ≤ 511 ∧
        q = (p.loadTree ot).moved p.treeOff p.treeLen st := fun q => by
    simp only [runBodies, andThen_done, commandBody, ← loadTree_moved]
    exact tdesBody_eq_done_iff _ _ _ _
  rw [runUnits_eq_some_iff _ _ t (by decide)]
  simp only [hbody]
  exact and_congr ⟨fun h => h (by decide), fun h _ => h⟩
    ⟨by rintro ⟨_, ⟨ot, hs, hn, rfl⟩, rfl⟩; exact ⟨ot, hs, hn, rfl⟩,
      by rintro ⟨ot, hs, hn, rfl⟩; exact ⟨_, ⟨ot, hs, hn, rfl⟩, rfl⟩⟩

/-- BUNP on the payload region and WALK succeed on a payload that unpacks and is decoded, and do what they do in DEC. -/
theorem runUnits_walk_iff (q t : State) (st : Status) : runUnits [.bunp, .walk] (q.moved q.payOff q.payLen st) = some t ↔
    q.payOff.toNat + q.payLen.toNat ≤ q.ibufSize.toNat ∧
      (∃ bits, unpack (q.ibufRange q.payOff.toNat q.payLen.toNat) = .ok bits) ∧
      ∃ u, walkBody q.viewPayload = .done u ∧ t = u.moved q.payOff q.payLen (statusAfter [.bunp, .walk] st) := by
  have hbunp := fun w => bunpBody_eq_done_iff (q.moved q.payOff q.payLen st) w
  have hbody : ∀ v, runBodies [.bunp, .walk] (q.moved q.payOff q.payLen st) = .done v ↔
      (∃ bits, unpack (q.ibufRange q.payOff.toNat q.payLen.toNat) = .ok bits) ∧
        ∃ u, walkBody q.viewPayload = .done u ∧ v = u.moved q.payOff q.payLen st := fun v => by
    simp only [runBodies, andThen_done, commandBody, BodyResult.andThen_eq_done_iff]
    constructor
    · rintro ⟨w, hw, hwalk⟩
      obtain ⟨hbits, rfl⟩ := (hbunp w).1 hw
      rw [viewPayload_moved, walkBody_moved] at hwalk
      obtain ⟨u, hu, rfl⟩ := BodyResult.map_eq_done_iff.1 hwalk
      exact ⟨hbits, u, hu, rfl⟩
    · rintro ⟨hbits, u, hu, rfl⟩
      exact ⟨_, (hbunp _).2 ⟨hbits, rfl⟩, by rw [viewPayload_moved, walkBody_moved, hu]; rfl⟩
  rw [runUnits_eq_some_iff _ _ t (by decide)]
  simp only [hbody]
  exact and_congr ⟨fun h => h (by decide), fun h _ => h⟩
    ⟨by rintro ⟨_, ⟨hb, u, hu, rfl⟩, rfl⟩; exact ⟨hb, u, hu, rfl⟩, by rintro ⟨hb, u, hu, rfl⟩; exact ⟨_, ⟨hb, u, hu, rfl⟩, rfl⟩⟩

/-- The host's script for DEC: the window is moved to the tree region for TDES, and to the payload region for BUNP. -/
structure DecScript (s t1 t2 t3 : State) : Prop where
  cpar : runUnits [.oclr, .cpar] s = some t1
  tdes : runUnits [.tdes] (t1.setWindow t1.treeOff t1.treeLen) = some t2
  walk : runUnits [.bunp, .walk] (t2.setWindow t2.payOff t2.payLen) = some t3

/-- DEC completes exactly on the containers on which its last step does. -/
theorem decBody_eq_done_iff {s : State} (hw : WindowFits s) (u : State) : decBody s = .done u ↔
    ∃ ot pl bits, Contains s.window ot pl bits ∧ walkBody (s.decoded ot pl) = .done u := by
  constructor
  · intro h
    rcases dec_cases s.window 0 with ⟨e, hs⟩ | ⟨tr, pl, e, hs, hd⟩ | ⟨ot, pl, e, hs, hn, hu⟩ | ⟨ot, pl, bits, hc, -⟩
    · rw [decBody_cpar_fails hs] at h
      cases h
    · obtain ⟨_, _, hb⟩ := decBody_tdes_fails hw hs hd
      rw [hb] at h
      cases h
    · rw [decBody_bunp_fails hw hs hn hu] at h
      cases h
    · exact ⟨ot, pl, bits, hc, decBody_of_contains hw hc ▸ h⟩
  · rintro ⟨ot, pl, bits, hc, hu⟩
    rw [decBody_of_contains hw hc, hu]

/-- When DEC's body completes, so does the script, in a state that differs in the window and STATUS only. -/
theorem decScript_of_decBody {s u : State} (hw : WindowFits s) (hb : decBody s = .done u) :
    ∃ t1 t2 t3 off len st, DecScript s t1 t2 t3 ∧ t3 = u.moved off len st := by
  obtain ⟨ot, pl, bits, hc, hwalk⟩ := (decBody_eq_done_iff hw u).1 hb
  have hser := parsed_treeRange hw hc.split
  obtain ⟨⟨-, hpay, -, -⟩, hend⟩ := parsed_regions hw hc.split
  obtain ⟨-, hrange, hpayFits, -⟩ := loaded_spec hw hc.split hc.size
  have htreeFits : (s.parsed (ser ot) pl).treeOff.toNat + (s.parsed (ser ot) pl).treeLen.toNat ≤
      (s.parsed (ser ot) pl).ibufSize.toNat := hpay ▸ (Nat.le_add_right _ _).trans (hend.trans_le hw)
  exact ⟨_, _, _, _, _, _, ⟨(runUnits_cpar_iff s _).2 ⟨hw, _, _, hc.split, rfl⟩,
    (runUnits_tdes_iff (s.parsed (ser ot) pl) _ _).2 ⟨htreeFits, ot, hser, hc.size, rfl⟩,
    (runUnits_walk_iff (s.loaded ot pl) _ _).2 ⟨hpayFits, ⟨bits, hrange.symm ▸ hc.unpack⟩, u, hwalk, rfl⟩⟩, rfl⟩

/-- When the script succeeds, DEC's body completes, in a state that differs in the window and STATUS only. -/
theorem decBody_of_decScript {s t1 t2 t3 : State} (h : DecScript s t1 t2 t3) :
    WindowFits s ∧ ∃ u off len st, decBody s = .done u ∧ t3 = u.moved off len st := by
  obtain ⟨hw, tr, pl, hsplit, rfl⟩ := (runUnits_cpar_iff s t1).1 h.cpar
  obtain ⟨-, ot, hser, hsize, rfl⟩ := (runUnits_tdes_iff (s.parsed tr pl) t2 _).1 h.tdes
  obtain rfl : tr = ser ot := (parsed_treeRange hw hsplit).symm.trans hser
  obtain ⟨-, ⟨bits, hunpack⟩, u, hwalk, rfl⟩ := (runUnits_walk_iff (s.loaded ot pl) t3 _).1 h.walk
  obtain ⟨-, hrange, -⟩ := loaded_spec hw hsplit hsize
  exact ⟨hw, u, _, _, _, (decBody_eq_done_iff hw u).2 ⟨ot, pl, bits, ⟨hsplit, hsize, hrange ▸ hunpack⟩, hwalk⟩, rfl⟩

/-- DEC leaves the window (48_end_to_end.md R204). -/
theorem decBody_window {s u : State} (h : decBody s = .done u) : u.setWindow s.srcOff s.srcLen = u := by
  have hall := decBody_sameButDecoded s
  rw [h] at hall
  obtain ⟨⟨hoff, hlen, -⟩, -⟩ := hall
  rw [← hoff, ← hlen]
  rfl

/-- Settles O51: each unit of the script does what the step of DEC does, since no step reads STATUS or, but for its operands, the
window. -/
theorem decEqualsUnits : Obligations.DecEqualsUnits := by
  unfold Obligations.DecEqualsUnits
  constructor
  · intro s t he ht
    obtain ⟨hfits, u, hu, rfl⟩ := exec_success (by decide) he ht
    obtain ⟨t1, t2, t3, off, len, st, ⟨hcpar, htdes, hwalk⟩, rfl⟩ := decScript_of_decBody (hfits (by decide)) hu
    refine ⟨t1, t2, _, hcpar, htdes, hwalk, ?_⟩
    have hwin := congrArg (fun v => v.finish none (opcode .dec)) (decBody_window hu)
    exact hwin.symm
  · intro s t1 t2 t3 hcpar htdes hwalk
    obtain ⟨hw, u, off, len, st, hu, rfl⟩ := decBody_of_decScript ⟨hcpar, htdes, hwalk⟩
    rw [exec_done .dec (fun _ => hw) (by decide) hu, finish_of_setStatus (commandBody_status (i := .dec) hu) st]
    have hwin := decBody_window hu
    exact congrArg (fun v => Host.Outcome.next { v.setStatus st with
      status := { error := none, done := true, lastop := opcode .dec, faulted := s.status.faulted } }) hwin.symm

end Sys2Proof.Machine
end

section
/-! ENC: obligations O42, O43, O47 and O48 (48_end_to_end.md R200 to R202, R207, R208). -/

namespace Sys2Proof.Machine

open Sys2Proof.Safety

/-! ### The table steps -/

/-- `t` is what the steps OCLR, FCNT, TBLD and CGEN of ENC leave (48_end_to_end.md R201). -/
structure EncTables (s t : State) : Prop where
  run : (((oclrBody s).andThen fcntBody).andThen tbldBody).andThen cgenBody = .done t
  frame : t = (((s.setOlen 0).setCount t.freq t.seq t.k).setTree t.node t.nnodes t.root).setCodes t.clen t.cbits
  tables : TablesOf s.window t
  above : SameNodesAbove s t
  appends : encBody s = ((appendBytes .cfmt (be32 (BitVec.ofNat 32 (ser (inputTree s.window)).length)) t).andThen
    (appendBytes .tser (ser (inputTree s.window)))).andThen
    (appendBytes .bpck (pack (stream s.window (codeMap (codes (inputTree s.window))))))

theorem exists_encTables (s : State) : ∃ t, EncTables s t := by
  obtain ⟨t, hrun, hframe, htables, hcoded, -, habove, -⟩ := encTables s
  obtain ⟨-, -, -, htree, hcode⟩ := id htables
  have hwin : t.window = s.window := by rw [hframe]; rfl
  exact ⟨t, hrun, hframe, htables, habove, encBody_appends s t hrun htree hwin hcoded hcode⟩

/-- Everything but STATUS, the output and the tables (48_end_to_end.md R201). -/
def SameButEncoded (s t : State) : Prop := SameInput s t ∧ SameParse s t ∧ SameView s t ∧ SameRest s t

namespace EncTables

variable {s t : State} (h : EncTables s t)

include h

theorem olen : t.olen = 0 := by rw [h.frame]; rfl

theorem obufSize : t.obufSize = s.obufSize := by rw [h.frame]; rfl

theorem status : t.status = s.status := by rw [h.frame]; rfl

theorem obufByte (a : Nat) : t.obufByte a = s.obufByte a := by rw [h.frame]; rfl

theorem same : SameButEncoded s t := by
  rw [h.frame]
  exact ⟨⟨rfl, rfl, fun _ => rfl⟩, ⟨rfl, rfl, rfl, rfl⟩, ⟨rfl, rfl, rfl⟩, ⟨rfl, rfl, rfl, rfl, rfl, rfl⟩⟩

/-- A container that fits is appended to the empty output. -/
theorem exec_of_fits (hw : WindowFits s) (hfit : (encodeBytes s.window).length ≤ s.obufSize.toNat) :
    exec .enc s = .next ((afterAppend t (encodeBytes s.window)).finish none 0x0B) := by
  refine exec_done .enc (fun _ => hw) (by decide) (h.appends.trans (append3_of_fits _ _ _ _ _ _ t ?_))
  rw [h.olen, h.obufSize]
  exact (Nat.zero_add _).trans_le hfit

/-- A container that does not fit: the first append without room raises. -/
theorem exec_of_full (hw : WindowFits s) (hfull : s.obufSize.toNat < (encodeBytes s.window).length) : ∃ st ob draw,
    exec .enc s = .next { t with status := st, olen := 0, obuf := ob, obufDraw := draw } ∧
      Ended s { t with status := st, olen := 0, obuf := ob, obufDraw := draw } 0x0B (some (.capacityExceeded,
        if s.obufSize.toNat < 4 then .cfmt
        else if s.obufSize.toNat < 4 + (ser (inputTree s.window)).length then .tser else .bpck)) := by
  have h0 : t.olen.toNat = 0 := by rw [h.olen]; rfl
  have hlen : (be32 (BitVec.ofNat 32 (ser (inputTree s.window)).length)).length = 4 := rfl
  obtain ⟨cs, hraise⟩ := append3_of_full .cfmt .tser .bpck (be32 (BitVec.ofNat 32 (ser (inputTree s.window)).length))
    (ser (inputTree s.window)) (pack (stream s.window (codeMap (codes (inputTree s.window))))) t (by
      rw [h0, Nat.zero_add, h.obufSize]; exact hfull)
  rw [h0, Nat.zero_add, h.obufSize, hlen] at hraise
  exact exec_raised_cleared (.inl rfl) (v := afterAppend t cs) hw (h.appends.trans hraise) h.status

end EncTables

/-! ### The command -/

/-- Settles O42: the three appends of ENC put `Encode` of the window in an empty output. -/
theorem encOutput : Obligations.EncOutput := by
  unfold Obligations.EncOutput
  intro s hw hfit
  obtain ⟨t, h⟩ := exists_encTables s
  have hout : OutputIs s (afterAppend t (encodeBytes s.window)) (encodeBytes s.window) :=
    afterAppend_outputIs h.olen h.obufByte (h.obufSize ▸ hfit)
  exact ⟨_, h.exec_of_fits hw hfit, finish_ended s (afterAppend t _) none _ h.status, hout, h.tables, h.above, h.same⟩

/-- Settles O43: the append that does not fit raises CapacityExceeded, after the tables are written. -/
theorem encCapacity : Obligations.EncCapacity := by
  unfold Obligations.EncCapacity
  intro s hw hfull
  obtain ⟨t, h⟩ := exists_encTables s
  obtain ⟨st, ob, draw, hexec, hend⟩ := h.exec_of_full hw hfull
  exact ⟨_, hexec, hend, rfl, h.tables, h.above, h.same⟩

/-- ENC succeeds only when the container fits. -/
theorem encodeBytes_fits_of_success {s t : State} (hw : WindowFits s) (he : exec .enc s = .next t) (ht : t.status.error = none) :
    (encodeBytes s.window).length ≤ s.obufSize.toNat := by
  by_contra hfull
  obtain ⟨u, hexec, hend, -⟩ := encCapacity s hw (Nat.lt_of_not_le hfull)
  rw [hexec] at he
  cases he
  rw [hend] at ht
  cases ht

/-- Settles O47: ENC's output is `Encode` of the window, which `Decode` inverts. -/
theorem commandRoundTrip : Obligations.CommandRoundTrip := by
  unfold Obligations.CommandRoundTrip
  intro s t s2 hw he ht hw2 hwin hroom
  obtain ⟨u, hexec, -, ⟨holen, hrange, -⟩, -⟩ := encOutput s hw (encodeBytes_fits_of_success hw he ht)
  obtain rfl : u = t := Host.Outcome.next.inj (hexec.symm.trans he)
  rw [holen, hrange] at hwin
  obtain ⟨t2, _, _, _, hexec2, hend2, ⟨holen2, hrange2, -⟩, -⟩ :=
    decOutput s2 s.window hw2 (hwin ▸ roundTrip s.window) ((window_length s).trans_le hroom)
  exact ⟨t2, hexec2, by rw [hend2], by rw [holen2, hrange2]⟩

/-! ### Independence of earlier state -/

/-- The arena holds what TBLD makes of FREQ, SEQ and K, and CGEN's tables are those of its tree. -/
structure BuiltFromCount (t : State) : Prop where
  nnodes : t.nnodes.toNat = 2 * t.k.toNat - 1
  root : t.root.toNat = 2 * t.k.toNat - 2
  node : ∀ i, i < t.nnodes.toNat → nodeGet t.node i = lookNodes (build (fun sym => (symGet t.freq sym).toNat) t.seqList) i

theorem tbldBody_builtFromCount {s t : State} (hk : s.k.toNat ≤ 256) (h : tbldBody s = .done t) :
    SameCount s t ∧ BuiltFromCount t := by
  by_cases h0 : s.k = 0
  · rw [tbldBody_zero s h0] at h
    cases h
    exact ⟨⟨rfl, rfl, rfl⟩, by simp [h0], by simp [h0], fun i hi => absurd hi (Nat.not_lt_zero i)⟩
  · obtain ⟨u, tr, hbody, hset, hnode, hn, hr, -⟩ := tbldBody_build s h0 hk
    obtain rfl : u = t := BodyResult.done.inj (hbody.symm.trans h)
    have hlen := seqList_length s hk
    have hne : s.seqList ≠ [] := fun e => h0 (BitVec.eq_of_toNat_eq (hlen.symm.trans (congrArg List.length e)))
    obtain ⟨-, -, hbuild, -⟩ := build_tree (fun sym => (symGet s.freq sym).toNat) s.seqList hne (hlen.trans_le hk)
    obtain ⟨n, nn, r, rfl⟩ : ∃ n nn r, u = s.setTree n nn r := ⟨_, _, _, hset⟩
    refine ⟨⟨rfl, rfl, rfl⟩, hn, hr, fun i hi => ?_⟩
    rw [hnode]
    exact nodeGet_lookNodes _ _ i (by omega) (by omega)

theorem holdsTree_unique {s : State} {ot ot' : Option HTree} (h : HoldsTree s ot) (h' : HoldsTree s ot') : ot = ot' := by
  cases ot <;> cases ot' <;> simp_all [HoldsTree]

theorem cgenBody_done {s t : State} (h : cgenBody s = .done t) :
    ∃ ot, HoldsTree s ot ∧ t = s.setCodes (clenTable (codes ot)) (cbitsTable (codes ot)) := by
  rw [cgenBody, withTree] at h
  split at h
  · next hc => exact ⟨none, hc, (BodyResult.done.inj h).symm⟩
  · next tr hc => exact ⟨some tr, hc, (BodyResult.done.inj h).symm⟩
  · cases h

/-- The window decides every table, but for the entries of NODE that hold no node of the tree. -/
theorem EncTables.values {s t : State} (h : EncTables s t) :
    t.freq = freqTable s.window ∧ t.seq = seqTable s.window ∧ t.k = BitVec.ofNat 9 (countSeq s.window).length ∧ BuiltFromCount t ∧
      t.clen = clenTable (codes (inputTree s.window)) ∧ t.cbits = cbitsTable (codes (inputTree s.window)) := by
  obtain ⟨c, hc, -, -, -, hk, -⟩ := fcntBody_counts (s.setOlen 0)
  have hlen := nodup_length_le _ (countSeq_nodup (s.setOlen 0).window)
  obtain ⟨-, -, -, htree, -⟩ := h.tables
  have hrun := h.run
  rw [oclrBody, BodyResult.andThen, hc, BodyResult.andThen] at hrun
  obtain rfl := BodyResult.done.inj hc
  cases hb : tbldBody ((s.setOlen 0).setCount (freqTable s.window) (seqTable s.window) (BitVec.ofNat 9 (countSeq s.window).length)) with
  | raised e u v => cases (congrArg (·.andThen cgenBody) hb).symm.trans hrun
  | stuck f => cases (congrArg (·.andThen cgenBody) hb).symm.trans hrun
  | done v =>
    obtain ⟨ot, hot, rfl⟩ := cgenBody_done ((congrArg (·.andThen cgenBody) hb).symm.trans hrun)
    obtain rfl : ot = inputTree s.window := holdsTree_unique hot htree
    obtain ⟨⟨hfreq, hseq, hcnt⟩, hn, hr, hnode⟩ := tbldBody_builtFromCount (hk.trans_le hlen) hb
    exact ⟨hfreq, hseq, hcnt, ⟨hn, hr, hnode⟩, rfl, rfl⟩

/-- The tables that O48 compares. -/
def SameTables (t t' : State) : Prop :=
  t'.freq = t.freq ∧ t'.seq = t.seq ∧ t'.k = t.k ∧ t'.nnodes = t.nnodes ∧ t'.root = t.root ∧
    (∀ i, i < t.nnodes.toNat → nodeGet t'.node i = nodeGet t.node i) ∧ t'.clen = t.clen ∧ t'.cbits = t.cbits

theorem EncTables.sameTables {s s' t t' : State} (h : EncTables s t) (h' : EncTables s' t') (hwin : s'.window = s.window) :
    SameTables t t' := by
  obtain ⟨hf, hs, hk, ⟨hn, hr, hnode⟩, hl, hb⟩ := h.values
  obtain ⟨hf', hs', hk', ⟨hn', hr', hnode'⟩, hl', hb'⟩ := h'.values
  rw [hwin] at hf' hs' hk' hl' hb'
  have hfreq := hf'.trans hf.symm
  have hseq := hs'.trans hs.symm
  have hcnt := hk'.trans hk.symm
  have hlist : t'.seqList = t.seqList := by rw [State.seqList, State.seqList, hseq, hcnt]
  have hnn : t'.nnodes = t.nnodes := BitVec.eq_of_toNat_eq (by rw [hn', hn, hcnt])
  refine ⟨hfreq, hseq, hcnt, hnn, BitVec.eq_of_toNat_eq (by rw [hr', hr, hcnt]), fun i hi => ?_, hl'.trans hl.symm, hb'.trans hb.symm⟩
  rw [hnode i hi, hnode' i (hnn ▸ hi), hfreq, hlist]

/-- Settles O48: the window decides the tables, and with OBUF_SIZE whether the container fits. -/
theorem encIndependent : Obligations.EncIndependent := by
  unfold Obligations.EncIndependent
  intro s s' hw hoff hlen hisz hosz hwin
  have hw' : WindowFits s' := by rw [WindowFits, hoff, hlen, hisz]; exact hw
  obtain ⟨t, h⟩ := exists_encTables s
  obtain ⟨t', h'⟩ := exists_encTables s'
  have hsame := h.sameTables h' hwin
  by_cases hfit : (encodeBytes s.window).length ≤ s.obufSize.toNat
  · have hfit' : (encodeBytes s'.window).length ≤ s'.obufSize.toNat := by rwa [hwin, hosz]
    have hexec' := h'.exec_of_fits hw' hfit'
    have hout : OutputIs s (afterAppend t (encodeBytes s.window)) (encodeBytes s.window) :=
      afterAppend_outputIs h.olen h.obufByte (h.obufSize ▸ hfit)
    have hout' : OutputIs s' (afterAppend t' (encodeBytes s'.window)) (encodeBytes s'.window) :=
      afterAppend_outputIs h'.olen h'.obufByte (h'.obufSize ▸ hfit')
    rw [hwin] at hexec' hout'
    obtain ⟨holen, hbytes⟩ := outputIs_agree hout hout'
    exact ⟨_, _, h.exec_of_fits hw hfit, hexec', (finish_error _ none _).trans (finish_error _ none _).symm, holen, hbytes, hsame⟩
  · have hfull := Nat.lt_of_not_le hfit
    obtain ⟨st, ob, draw, hexec, hend⟩ := h.exec_of_full hw hfull
    obtain ⟨st', ob', draw', hexec', hend'⟩ := h'.exec_of_full hw' (by rwa [hwin, hosz])
    rw [hwin, hosz] at hend'
    refine ⟨_, _, hexec, hexec', ?_, rfl, fun a ha => absurd ha (Nat.not_lt_zero a), hsame⟩
    rw [Ended] at hend hend'
    rw [hend, hend']

end Sys2Proof.Machine
end

section
/-! Each command as the first one after reset: obligation O56 (70_reset_and_hazards.md R262). -/

namespace Sys2Proof.Machine

open Sys2Proof.Safety

/-! ### What each command meets: an empty window, no tree, no bits, no output -/

theorem resetWith_windowFits (a b : Word) : WindowFits (State.resetWith a b) := Nat.zero_le _

theorem resetWith_window (a b : Word) : (State.resetWith a b).window = [] := rfl

theorem resetWith_holdsTree (a b : Word) : HoldsTree (State.resetWith a b) none := rfl

theorem resetWith_viewBits (a b : Word) : (State.resetWith a b).viewBits = [] := rfl

/-- No byte of the window lacks a code. -/
theorem resetWith_coded (a b : Word) : ∀ x ∈ (State.resetWith a b).window, symGet (State.resetWith a b).clen x ≠ 0 :=
  fun _ h => absurd h List.not_mem_nil

/-- The length field, and a payload of a padding byte. -/
theorem encodeBytes_nil_length : (encodeBytes []).length = 5 := rfl

/-! ### What each command answers -/

variable {a b : Word}

/-- The STATUS word after the first command: FAULTED tells whether it failed (10_state.md R26). -/
theorem first_word {t : State} {op : Byte} {e : Option (ErrKind × BlockUnit)} (h : Ended (State.resetWith a b) t op e) :
    t.regRead 1 = Status.word { error := e, done := true, lastop := op, faulted := e.isSome } := congrArg Status.word h

/-- From the reset state with these sizes the command answers a state with the STATUS word `w` and OLEN `n`. -/
def Answers (a b : Word) (i : Instr) (w n : Word) : Prop :=
  ∃ t, exec i (State.resetWith a b) = .next t ∧ t.regRead 1 = w ∧ t.olen = n

theorem Answers.of_finish {i : Instr} {t : State} {e : Option (ErrKind × BlockUnit)} {op : Byte}
    (he : exec i (State.resetWith a b) = .next (t.finish e op)) (hstatus : t.status = Status.zero) :
    Answers a b i (Status.word { error := e, done := true, lastop := op, faulted := e.isSome }) t.olen :=
  ⟨_, he, first_word (finish_ended (State.resetWith a b) t e op hstatus), rfl⟩

/-- An appending command, whose bytes fit the empty OBUF or not. -/
theorem Answers.of_append (i : Instr) {u : BlockUnit} {bs : List Byte} (ha : (commandForm i).appends = true)
    (hc : (commandForm i).clears = false) (hb : commandBody i (State.resetWith a b) = appendBytes u bs (State.resetWith a b)) :
    Answers a b i (if bs.length ≤ b.toNat then Status.word { error := none, done := true, lastop := opcode i, faulted := false }
      else Status.word { error := some (.capacityExceeded, u), done := true, lastop := opcode i, faulted := true })
      (if bs.length ≤ b.toNat then BitVec.ofNat 32 bs.length else 0) := by
  have holen : (State.resetWith a b).olen.toNat = 0 := rfl
  have hosz : (State.resetWith a b).obufSize = b := rfl
  have hw : i ∈ windowCommands → WindowFits (State.resetWith a b) := fun _ => resetWith_windowFits a b
  by_cases h : bs.length ≤ b.toNat
  · obtain ⟨t, he, hend, ⟨hlen, -⟩, -⟩ := exec_append_of_fits i u bs _ hw ha hb (by rw [holen, hosz]; omega)
    rw [if_pos h, if_pos h]
    refine ⟨t, he, first_word hend, BitVec.eq_of_toNat_eq ?_⟩
    rw [hlen, holen, Nat.zero_add, BitVec.toNat_ofNat, Nat.mod_eq_of_lt (h.trans_lt b.isLt)]
  · obtain ⟨t, he, hend, ⟨hlen, -⟩, -⟩ := exec_append_of_full i u bs _ hw ha hb hc (by rw [holen, hosz]; omega)
    rw [if_neg h, if_neg h]
    exact ⟨t, he, first_word hend, hlen⟩

theorem first_bpck (a b : Word) :
    Answers a b .bpck (if 1 ≤ b.toNat then 0x00040100 else 0x80040155) (if 1 ≤ b.toNat then 1 else 0) := by
  have hbody : commandBody .bpck (State.resetWith a b) = appendBytes .bpck (pack []) (State.resetWith a b) :=
    bpckBody_coded _ (resetWith_coded a b)
  exact Answers.of_append .bpck rfl rfl hbody

theorem first_tser (a b : Word) : Answers a b .tser 0x00060100 0 :=
  Answers.of_append .tser rfl rfl (tserBody_of_holds _ none (resetWith_holdsTree a b))

theorem first_chdr (a b : Word) :
    Answers a b .chdr (if 4 ≤ b.toNat then 0x00080100 else 0x80080195) (if 4 ≤ b.toNat then 4 else 0) :=
  Answers.of_append .chdr rfl rfl (chdrBody_of_holds _ none (resetWith_holdsTree a b))

theorem first_walk (a b : Word) : Answers a b .walk 0x000A0100 0 := by
  obtain ⟨t, he, hend, ⟨hlen, -⟩, -⟩ := walkAppends (State.resetWith a b) none [] (inv_resetWith a b).view (resetWith_holdsTree a b)
    (by rw [resetWith_viewBits]; rfl) (Nat.zero_le _)
  exact ⟨t, he, first_word hend, BitVec.eq_of_toNat_eq hlen⟩

theorem first_enc (a b : Word) :
    Answers a b .enc (if 5 ≤ b.toNat then 0x000B0100 else if b.toNat < 4 then 0x800B0195 else 0x800B0155)
      (if 5 ≤ b.toNat then 5 else 0) := by
  have hlen : (encodeBytes (State.resetWith a b).window).length = 5 := by rw [resetWith_window, encodeBytes_nil_length]
  have hosz : (State.resetWith a b).obufSize = b := rfl
  by_cases h : 5 ≤ b.toNat
  · obtain ⟨t, he, hend, ⟨holen, -⟩, -⟩ := encOutput _ (resetWith_windowFits a b) (hlen.trans_le h)
    rw [if_pos h, if_pos h]
    exact ⟨t, he, first_word hend, BitVec.eq_of_toNat_eq (holen.trans hlen)⟩
  · obtain ⟨t, he, hend, holen, -⟩ := encCapacity _ (resetWith_windowFits a b) (by rw [hlen, hosz]; omega)
    have hser : (ser (inputTree (State.resetWith a b).window)).length = 0 := rfl
    rw [if_neg h, if_neg h]
    refine ⟨t, he, (first_word hend).trans ?_, holen⟩
    rw [hser, hosz]
    split
    · decide
    · decide

theorem first_dec (a b : Word) : ∃ n, Answers a b .dec 0x800C0193 n := by
  obtain ⟨hcpar, -⟩ := decErrors _ (resetWith_windowFits a b)
  obtain ⟨t, he, hend, holen, -⟩ := hcpar .truncatedContainer rfl
  exact ⟨0, t, he, first_word hend, holen⟩

theorem Answers.word {i : Instr} {w n : Word} {t : State} (h : Answers a b i w n) (he : exec i (State.resetWith a b) = .next t) :
    t.regRead 1 = w := by
  obtain ⟨u, hu, hword, -⟩ := h
  rwa [← Host.Outcome.next.inj (hu.symm.trans he)]

theorem Answers.olen {i : Instr} {w n : Word} {t : State} (h : Answers a b i w n) (he : exec i (State.resetWith a b) = .next t) :
    t.olen = n := by
  obtain ⟨u, hu, -, holen⟩ := h
  rwa [← Host.Outcome.next.inj (hu.symm.trans he)]

/-- Settles O56: the commands that write tables or registers alone by their results, the others by what they append. -/
theorem firstCommandAfterReset : Obligations.FirstCommandAfterReset := by
  unfold Obligations.FirstCommandAfterReset
  intro a b
  have hw := resetWith_windowFits a b
  have htree := resetWith_holdsTree a b
  have hfcnt := exec_done .fcnt (fun _ => hw) (by decide) (s := State.resetWith a b) rfl
  have htbld := exec_tbld_zero (State.resetWith a b) rfl
  have hcgen := exec_cgen (State.resetWith a b) none htree
  have hbunp := exec_bunp_fails (State.resetWith a b) hw (.inl rfl)
  have htdes := exec_tdes_ser (State.resetWith a b) none hw rfl (Nat.zero_le _)
  have hcpar := exec_cpar_fails (State.resetWith a b) hw (.inl (Nat.zero_lt_succ 3))
  obtain ⟨n, hdec⟩ := first_dec a b
  choose f hf using fun i => commandsEnd (State.resetWith a b) i (inv_resetWith a b)
  have heq : ∀ {i t}, exec i (State.resetWith a b) = .next t → f i = t := fun h => Host.Outcome.next.inj ((hf _).symm.trans h)
  exact ⟨f, hf, (Answers.of_finish (exec_nop _) rfl).word (hf _), (Answers.of_finish hfcnt rfl).word (hf _), heq hfcnt ▸ rfl,
    (Answers.of_finish htbld rfl).word (hf _), heq htbld ▸ rfl, (Answers.of_finish hcgen rfl).word (hf _),
    (first_bpck a b).word (hf _), (first_bpck a b).olen (hf _), (Answers.of_finish hbunp rfl).word (hf _),
    (first_tser a b).word (hf _), (first_tser a b).olen (hf _), (Answers.of_finish htdes rfl).word (hf _), heq htdes ▸ rfl,
    (first_chdr a b).word (hf _), (first_chdr a b).olen (hf _), (Answers.of_finish hcpar rfl).word (hf _),
    (first_walk a b).word (hf _), (first_walk a b).olen (hf _), (first_enc a b).word (hf _), (first_enc a b).olen (hf _),
    hdec.word (hf _), (Answers.of_finish (exec_oclr _) rfl).word (hf _), heq (exec_rst _) ▸ Status.zero_word⟩

end Sys2Proof.Machine
end
